-- ==== Sys2Proof/Word.lean ====
section
/-! DEFINITION. The word and vector types of the engine: bytes, 32-bit words, and the two kinds of
vector of 00_scope.md rule R7. Element 0 of a vector is the head of its list. -/

namespace Sys2Proof

/-- A byte, bits 7:0 (R7). -/
abbrev Byte := BitVec 8

/-- A CSR, a command word, or the bus data (R7, R90, R372). -/
abbrev Word := BitVec 32

/-- A byte vector (R7). -/
abbrev Bytes := List Byte

/-- A bit vector (R7). -/
abbrev Bits := List Bool

/-- A 128-bit block as one value: byte 0 in bits 127:120 (R372), so bit 0 of the vector `bits(X)` of
R250 is the most significant bit. -/
abbrev Block128 := BitVec 128

/-- One DES subkey: 48 bits, subkey bit 0 most significant (R33). -/
abbrev SubKey := BitVec 48

/-- A key schedule: exactly 16 subkeys of 48 bits, K_1 first (R33, R170). -/
abbrev Schedule := Vector SubKey 16

end Sys2Proof
end

