-- ==== Sys2Proof/Syntax.lean ====
section
/-! DEFINITION. The 33 command words as one inductive (30_encoding.md rule R97), one constructor per row of
spec/opcode_table.json, and the raw form of any 32-bit word (R90). No command carries an operand: operands
come from CSRs (R99). -/

namespace Sys2Proof

/-- The commands of R97, in the order of spec/opcode_table.json. -/
inductive Instr where
  | nop
  | zeroize
  | loadKey
  | blockF
  | blockI
  | runEcbE
  | runCbcE
  | runCfbE
  | runOfbE
  | runCtrE
  | runGcmE
  | runEcbD
  | runCbcD
  | runCfbD
  | runOfbD
  | runCtrD
  | runGcmD
  | xorB
  | xorBit
  | permB
  | permBit
  | substB
  | substBit
  | alignB
  | alignBit
  | incB
  | incBit
  | inc32B
  | inc32Bit
  | gfmul
  | ghash
  | pad
  | unpad
deriving DecidableEq, Repr

/-- Any 32-bit word, cut into the three fields of R90. -/
structure RawWord where
  /-- OP, bits 7:0. -/
  op : BitVec 8
  /-- FN, bits 11:8. -/
  fn : BitVec 4
  /-- Bits 31:12, which a legal word has zero. -/
  high : BitVec 20
deriving DecidableEq, Repr

/-- The opcode classes of R91. -/
inductive OpClass where
  | run
  | block
  | vector
  | plain
deriving DecidableEq, Repr

end Sys2Proof
end

