-- ==== Sys2Proof/WellFormed.lean ====
section
/-! DEFINITION. Which words are well formed: the three conditions of 30_encoding.md rule R96. The commands of
`Instr` carry no operand, so every `Instr` is well formed; what can be ill formed is a raw word. -/

namespace Sys2Proof

/-- The class of an opcode (R91, R92); none where R92's table has no row for it. -/
def opClass (op : BitVec 8) : Option OpClass :=
  match op.toNat with
  | 0x00 | 0x01 | 0x02 => some .plain
  | 0x03 => some .block
  | 0x04 => some .run
  | 0x10 | 0x11 | 0x12 | 0x13 | 0x14 | 0x15 => some .vector
  | 0x18 | 0x19 | 0x20 | 0x21 => some .plain
  | _ => none

/-- The legal FN values of a class, R91's last column: RUN takes MODE 0 to 5 with either DIR. -/
def fnLegal (c : OpClass) (fn : BitVec 4) : Bool :=
  match c with
  | .run => decide ((fn.extractLsb' 0 3).toNat ≤ 5)
  | .block => decide (fn.extractLsb' 0 3 = 0)
  | .vector => decide (fn.extractLsb' 1 3 = 0)
  | .plain => decide (fn = 0)

/-- R96 (a): bits 31:12 are zero. -/
def RawWord.zeroOk (r : RawWord) : Bool := decide (r.high = 0)

/-- R96 (b): OP is in R92's table. -/
def RawWord.opOk (r : RawWord) : Bool := (opClass r.op).isSome

/-- R96 (c): FN is legal for OP's class. -/
def RawWord.fnOk (r : RawWord) : Bool :=
  match opClass r.op with
  | some c => fnLegal c r.fn
  | none => false

/-- A word that is one of the 33 commands (R96, R97). -/
def RawWord.wellFormed (r : RawWord) : Bool := r.zeroOk && r.opOk && r.fnOk

/-- Every command is well formed: it has no operand that could be out of range (R99). -/
def Instr.wellFormed : Instr → Bool := fun _ => true

end Sys2Proof
end

