-- ==== Sys2Proof/Decode.lean ====
section
/-! DEFINITION. The decoder, total on every 32-bit word, and after it the encoder. The decoder follows the
field layout of 30_encoding.md rules R90 to R96; the encoder is R97's table of words. A word that is no
command decodes to nothing; its completion with ILLEGAL is the step's (60_exceptions.md rule R322). -/

namespace Sys2Proof

/-- The fields of a word (R90). -/
def splitWord (w : Word) : RawWord :=
  { op := w.extractLsb' 0 8, fn := w.extractLsb' 8 4, high := w.extractLsb' 12 20 }

/-- The word with the given fields (R90). -/
def joinWord (r : RawWord) : Word := r.high ++ r.fn ++ r.op

/-- RUN: FN[3] = DIR, FN[2:0] = MODE (R91, R93, R94). -/
def decodeRun (fn : BitVec 4) : Option Instr :=
  match (fn.extractLsb' 0 3).toNat, fn.getLsbD 3 with
  | 0, false => some .runEcbE
  | 0, true => some .runEcbD
  | 1, false => some .runCbcE
  | 1, true => some .runCbcD
  | 2, false => some .runCfbE
  | 2, true => some .runCfbD
  | 3, false => some .runOfbE
  | 3, true => some .runOfbD
  | 4, false => some .runCtrE
  | 4, true => some .runCtrD
  | 5, false => some .runGcmE
  | 5, true => some .runGcmD
  | _, _ => none

/-- BLOCK: FN[3] = DIR (R91, R94). -/
def decodeBlock (fn : BitVec 4) : Option Instr :=
  if fn.getLsbD 3 then some .blockI else some .blockF

/-- A vector command: FN[0] = G (R91, R92, R95). -/
def decodeVector (op : BitVec 8) (fn : BitVec 4) : Option Instr :=
  match op.toNat, fn.getLsbD 0 with
  | 0x10, false => some .xorB
  | 0x10, true => some .xorBit
  | 0x11, false => some .permB
  | 0x11, true => some .permBit
  | 0x12, false => some .substB
  | 0x12, true => some .substBit
  | 0x13, false => some .alignB
  | 0x13, true => some .alignBit
  | 0x14, false => some .incB
  | 0x14, true => some .incBit
  | 0x15, false => some .inc32B
  | 0x15, true => some .inc32Bit
  | _, _ => none

/-- A plain command: OP alone names it (R92). -/
def decodePlain (op : BitVec 8) : Option Instr :=
  match op.toNat with
  | 0x00 => some .nop
  | 0x01 => some .zeroize
  | 0x02 => some .loadKey
  | 0x18 => some .gfmul
  | 0x19 => some .ghash
  | 0x20 => some .pad
  | 0x21 => some .unpad
  | _ => none

/-- The command a split word names, by its class (R91, R92). -/
def decodeRaw (r : RawWord) : Option Instr :=
  match opClass r.op with
  | some .run => decodeRun r.fn
  | some .block => decodeBlock r.fn
  | some .vector => decodeVector r.op r.fn
  | some .plain => decodePlain r.op
  | none => none

/-- The decoder: a word that R96 calls illegal decodes to nothing, every other word to its command. -/
def decode (w : Word) : Option Instr :=
  if (splitWord w).wellFormed then decodeRaw (splitWord w) else none

/-- The word of each command: R97's table. -/
def encode : Instr → Word
  | .nop => 0x00000000
  | .zeroize => 0x00000001
  | .loadKey => 0x00000002
  | .blockF => 0x00000003
  | .blockI => 0x00000803
  | .runEcbE => 0x00000004
  | .runCbcE => 0x00000104
  | .runCfbE => 0x00000204
  | .runOfbE => 0x00000304
  | .runCtrE => 0x00000404
  | .runGcmE => 0x00000504
  | .runEcbD => 0x00000804
  | .runCbcD => 0x00000904
  | .runCfbD => 0x00000A04
  | .runOfbD => 0x00000B04
  | .runCtrD => 0x00000C04
  | .runGcmD => 0x00000D04
  | .xorB => 0x00000010
  | .xorBit => 0x00000110
  | .permB => 0x00000011
  | .permBit => 0x00000111
  | .substB => 0x00000012
  | .substBit => 0x00000112
  | .alignB => 0x00000013
  | .alignBit => 0x00000113
  | .incB => 0x00000014
  | .incBit => 0x00000114
  | .inc32B => 0x00000015
  | .inc32Bit => 0x00000115
  | .gfmul => 0x00000018
  | .ghash => 0x00000019
  | .pad => 0x00000020
  | .unpad => 0x00000021

/-- The command word a number of `nbits` bits stands for; the bits above `nbits` are 0. -/
def tableWord (nbits w : Nat) : Word := BitVec.ofNat 32 (w % 2 ^ nbits)

/-- The decoder's answer on an instruction numbered as spec/opcode_table.json numbers it. Each command is
exactly one 32-bit word (R98), so the table's number is the word. -/
def decodeTableWord (nbits w : Nat) : Option Instr := decode (tableWord nbits w)

end Sys2Proof
end

