-- ==== Sys2Proof/Config.lean ====
section
/-! DEFINITION. What one instance of the engine fixes: the parameters of 00_scope.md rule R6, and the
external 128-bit transform, an open value. The two free values that depend on the state (LATENCY and the
bytes an abandoned command leaves) are declared below State, in Machine/State.lean, under this namespace. -/

namespace Sys2Proof.Config

/-- The instance parameters of R6 that are data. They stand in State and no step changes them (log 1). -/
structure Params where
  /-- DMEM_SIZE, the bytes of data memory. -/
  dmemSize : Nat
  /-- EXT128_PRESENT, the port x_present of R372. -/
  extPresent : Bool
deriving DecidableEq, Repr

/-- The defaults of R6. -/
def defaults : Params := { dmemSize := 4096, extPresent := false }

/-- R6: "integer, 64 ≤ DMEM_SIZE ≤ 65536". -/
def Params.legal (p : Params) : Bool := decide (64 ≤ p.dmemSize) && decide (p.dmemSize ≤ 65536)

/-- The EXT128 responder (R39): F is the function, F⁻¹ its inverse; R6 asks F⁻¹(F(x)) = x and
F(F⁻¹(x)) = x, which a permutation says. OPEN in the spec (D16), so it has no body (log 2). -/
opaque ext128 : Equiv.Perm Block128

end Sys2Proof.Config
end

