-- ==== Sys2Proof/Machine/State.lean ====
section
/-! DEFINITION. The machine's state as plain data: everything 10_state.md gives the engine, the two input
ports that matter between steps, and the list of inputs still to come. Reset is R40. -/

namespace Sys2Proof.Machine

/-- The completion codes of STATUS.ERRCODE (60_exceptions.md R321). Codes 10 to 15 are never produced
(I15), so they have no constructor. -/
inductive Code where
  /-- 0: success. -/
  | ok
  /-- 1: the word is not one of the 33 (R322). -/
  | illegal
  /-- 2: CTRL, or EXT128's absence, makes the command impossible (R323). -/
  | config
  /-- 3: no matching key schedule is loaded (R324). -/
  | nokey
  /-- 4: a DMEM range lies outside DMEM (R325). -/
  | bounds
  /-- 5: the destination meets an input range (R326). -/
  | overlap
  /-- 6: an ECB or CBC message is not whole blocks (R327). -/
  | align
  /-- 7: an operand length the command needs is wrong (R328). -/
  | len
  /-- 8: unpad found the padding malformed (R329). -/
  | pad
  /-- 9: the GCM tag does not verify, or there is none (R330). -/
  | auth
deriving DecidableEq, Repr

/-- Why the machine stops. Only the model faults of R80 and 93_implementation_defined.md I7. -/
inductive Fault where
  /-- Raised by the bus when the host reads a DMEM byte nothing has written (R80, I7). Safe: the hardware
  answers some value, and no claim can pass through this step. -/
  | unwrittenRead
  /-- Raised by a command whose input ranges hold a DMEM byte nothing has written (R80, I7), and by a reset
  that abandons an UNPAD whose extent such a byte decides (log 13). Safe, as above. -/
  | unwrittenInput
deriving DecidableEq, Repr

/-- Why a step has no meaning. -/
inductive Refusal where
  /-- Raised by exec's arms alone, for a command that has no meaning in the model yet. Safe: nothing runs. -/
  | notModelled (mnemonic : String)
deriving DecidableEq, Repr

/-- How a command's computation ends early: an error code raised (R10 "raise Error"), or a model fault. -/
inductive Stop where
  | code (c : Code)
  | fault (f : Fault)
deriving DecidableEq, Repr

/-- The operand and configuration CSRs (R21, R23, R28, R29): what the host writes and commands only read. -/
structure Csrs where
  ctrl : Word
  keyPtr : Word
  keyLen : Word
  ivPtr : Word
  ivLen : Word
  aadPtr : Word
  aadLen : Word
  srcPtr : Word
  srcLen : Word
  auxPtr : Word
  auxLen : Word
  dstPtr : Word
  param : Word
deriving DecidableEq, Repr

/-- The STATUS fields of R26 that are not views of the key store. -/
structure Status where
  busy : Bool
  done : Bool
  err : Bool
  authFail : Bool
  ovr : Bool
  errcode : Code
deriving DecidableEq, Repr

/-- The key-schedule store (R33); KVALID and KALG are readable in STATUS. -/
structure KeyStore where
  sk1 : Schedule
  sk2 : Schedule
  sk3 : Schedule
  kvalid : Bool
  kalg : BitVec 2
deriving DecidableEq, Repr

/-- The registers of one RUN: FB (R34), and GCM's H, J0, running counter and accumulator Y (R35). -/
structure RunRegs where
  fb : Block128
  h : Block128
  j0 : Block128
  ctr : Block128
  y : Block128
deriving DecidableEq, Repr

/-- One host access on the ports of R372. `size`: 0 = 8, 1 = 16, 2 = 32 bits, 3 treated as misaligned. -/
structure Access where
  we : Bool
  addr : BitVec 17
  size : BitVec 2
  wdata : Word
deriving DecidableEq, Repr

/-- What the outside does in one clock cycle (R340, R371). -/
inductive Event where
  /-- A host access. -/
  | access (a : Access)
  /-- A cycle in which the host does nothing. -/
  | cycle
  /-- The host waits (30_encoding.md R102): one read of STATUS, and the same again while bit 0 of the value read is 1. -/
  | wait
  /-- The reset line is driven to this level (R360). -/
  | rst (level : Bool)
  /-- Power is applied: reset is asserted and DMEM is unwritten (R362). -/
  | powerOn
deriving DecidableEq, Repr

/-- DMEM: the written bytes in rising order of address; an address that is not listed is unwritten and has
no value (R37, R80). -/
abbrev Memory := List Host.Cell

/-- The whole machine. -/
structure State where
  /-- Instance parameters (R6); no step changes them. -/
  cfg : Config.Params
  /-- CTRL, the pointers and lengths, PARAM. -/
  csr : Csrs
  /-- OUT_LEN (R30). -/
  outLen : Word
  /-- STATUS but for KVALID and KALG (R26). -/
  status : Status
  /-- SK1, SK2, SK3, KVALID, KALG (R33). -/
  keys : KeyStore
  /-- FB, H, J0, the counter and Y (R34, R35). -/
  regs : RunRegs
  /-- The command latch (R36). -/
  latch : Word
  /-- Clock cycles the accepted command still takes (R335, R369); 0 when no command runs. -/
  cyclesLeft : Nat
  /-- DMEM (R37). -/
  dmem : Memory
  /-- The level of the reset input (R360). -/
  rst : Bool
  /-- h_rdata: the answer to the last host read (R372). -/
  rdata : Word
  /-- The model's own: what the outside does next, the next event first. -/
  inputs : List Event
  /-- The model's own: a counter that makes free values fresh. -/
  fresh : Nat
deriving DecidableEq, Repr

/-- R40: every operand CSR is 0. -/
def Csrs.reset : Csrs := ⟨0, 0, 0, 0, 0, 0, 0, 0, 0, 0, 0, 0, 0⟩

/-- R40: STATUS = 0. -/
def Status.reset : Status := ⟨false, false, false, false, false, .ok⟩

/-- R40: all subkeys 0, KVALID = 0, KALG = 0. -/
def KeyStore.reset : KeyStore :=
  { sk1 := Vector.replicate 16 0, sk2 := Vector.replicate 16 0, sk3 := Vector.replicate 16 0,
    kvalid := false, kalg := 0 }

/-- R40: FB, H, J0, counter and Y are 0. -/
def RunRegs.reset : RunRegs := ⟨0, 0, 0, 0, 0⟩

/-- The machine right after a power-on reset (R40, R360, R362), with the default parameters of R6 (log 1).
The latch, the cycle count, h_rdata and the model's own counter are DESIGN CHOICE 0 (logs 11, 12, 3, 4). -/
def State.reset : State :=
  { cfg := Config.defaults, csr := Csrs.reset, outLen := 0, status := Status.reset, keys := KeyStore.reset,
    regs := RunRegs.reset, latch := 0, cyclesLeft := 0, dmem := [], rst := false, rdata := 0, inputs := [],
    fresh := 0 }

end Sys2Proof.Machine

namespace Sys2Proof.Config

/-- LATENCY(cmd, state) of R6 and R369, less the one cycle it is at least: a free value of the state at
acceptance, whose latch holds the command and whose `fresh` differs at every acceptance (log 3). -/
opaque latencyBeyondOne : Machine.State → Nat

/-- Whether the completion that falls in the coming clock cycle is ordered before what the outside does in it, or
after (R340, I9): either, for each such cycle; a free value of the state that reaches it (log 5). -/
opaque completesFirst : Machine.State → Bool

/-- The byte an abandoned command leaves at a DMEM address of its destination range (R361, I8): any value,
of the state at the reset and the address (log 4). -/
opaque abandonedByte : Machine.State → Nat → Byte

end Sys2Proof.Config
end

