-- ==== Sys2Proof/Machine/Operands.lean ====
section
/-! DEFINITION. The operand forms: vectors and their integer views (00_scope.md R7 to R11), the container
operations of 40_vector_ops.md as functions, the fields of CTRL and PARAM, and the DMEM ranges of
20_memory.md R67 to R69. -/

namespace Sys2Proof.Machine

/-! ### Integer views and byte–bit conversion (R8, R9) -/

/-- The unsigned integer with these big-endian digits (R8 `be_int`). -/
def beNat (base : Nat) (ds : List Nat) : Nat := ds.foldl (fun acc d => acc * base + d) 0

/-- The `n` big-endian digits of `x` mod base^n (R8 `be_bytes_n`, `be_bits_n`). -/
def beDigits (base : Nat) : Nat → Nat → List Nat
  | 0, _ => []
  | n + 1, x => beDigits base n (x / base) ++ [x % base]

/-- A byte's bits, most significant first (R9). -/
def bitsOfByte (b : Byte) : Bits := (List.range 8).map fun k => b.getMsbD k

/-- `bits(bs)` of R9. -/
def bits (bs : Bytes) : Bits := bs.flatMap bitsOfByte

/-- Consecutive pieces of `n` elements, the last possibly shorter; the first argument bounds their number. -/
def chunksUpTo {α : Type} (n : Nat) : Nat → List α → List (List α)
  | 0, _ => []
  | _ + 1, [] => []
  | k + 1, x :: xs => (x :: xs).take n :: chunksUpTo n k ((x :: xs).drop n)

/-- The blocks of R214: consecutive pieces of `n` elements, the last possibly shorter; none of the empty
vector. -/
def chunks {α : Type} (n : Nat) (v : List α) : List (List α) := chunksUpTo n v.length v

/-- Up to eight bits as a byte, most significant first, the unused low bits 0 (R9). -/
def byteOfBits (v : Bits) : Byte :=
  BitVec.ofNat 8 (beNat 2 ((v ++ List.replicate (8 - v.length) false).map Bool.toNat))

/-- `bytes(v)` of R9. -/
def bytes (v : Bits) : Bytes := (chunks 8 v).map byteOfBits

/-- `be_bytes_n(x)` of R8. -/
def beBytes (n x : Nat) : Bytes := (beDigits 256 n x).map (BitVec.ofNat 8)

/-- `le_bytes_n(x)` of R8. -/
def leBytes (n x : Nat) : Bytes := (beBytes n x).reverse

/-- `be_int` of a byte vector (R8). -/
def beInt (v : Bytes) : Nat := beNat 256 (v.map BitVec.toNat)

/-- `be_int` of a bit vector (R8). -/
def beIntBits (v : Bits) : Nat := beNat 2 (v.map Bool.toNat)

/-- A 16-byte vector as a block: byte 0 in bits 127:120 (R372). -/
def blockOf (v : Bytes) : Block128 := BitVec.ofNat 128 (beInt v)

/-- A block as its 16 bytes. -/
def bytesOf (b : Block128) : Bytes := beBytes 16 b.toNat

/-! ### Element kinds (R120 to R122) -/

/-- What an operation needs to know of an element kind, byte or bit (R11, R120). -/
structure Kind (α : Type) where
  /-- Bits an element holds. -/
  width : Nat
  /-- The zero element (R11). -/
  zero : α
  /-- Element-wise exclusive or. -/
  xorElem : α → α → α
  /-- An element as a digit. -/
  toDigit : α → Nat
  /-- A digit as an element. -/
  ofDigit : Nat → α
  /-- DMEM bytes that n elements occupy: `nb` of R120. -/
  nb : Nat → Nat
  /-- The first n elements held in these bytes: ReadVec, R121. -/
  unpack : Nat → Bytes → List α
  /-- The bytes that hold these elements, unused low bits 0: WriteVec, R122. -/
  pack : List α → Bytes

/-- G = 0: byte vectors. -/
def byteKind : Kind Byte :=
  { width := 8, zero := 0, xorElem := fun a b => a ^^^ b, toDigit := BitVec.toNat, ofDigit := BitVec.ofNat 8,
    nb := fun n => n, unpack := fun n v => v.take n, pack := fun v => v }

/-- G = 1: bit vectors, MSB first in each byte (R66). -/
def bitKind : Kind Bool :=
  { width := 1, zero := false, xorElem := Bool.xor, toDigit := Bool.toNat, ofDigit := fun d => decide (d % 2 = 1),
    nb := fun n => (n + 7) / 8, unpack := fun n v => (bits v).take n, pack := bytes }

/-! ### The container operations as functions -/

/-- `xor(a, b)` of R123: the length of the first operand, the second repeated cyclically. R123 leaves an
empty second operand undefined; every command that could meet it raises LEN first. -/
def xorVec {α : Type} (k : Kind α) (a b : List α) : List α :=
  a.zipIdx.map fun p => k.xorElem p.1 (b.getD (p.2 % b.length) k.zero)

/-- `perm(v, idx)` of R126: an index out of range gives the zero element. -/
def permVec {α : Type} (zero : α) (v : List α) (idx : List Nat) : List α := idx.map fun i => v.getD i zero

/-- `align(v, n, f)` of R132: keep the last n elements, or left-pad with the fill. -/
def alignVec {α : Type} (v : List α) (n : Nat) (f : α) : List α :=
  if n ≤ v.length then v.drop (v.length - n) else List.replicate (n - v.length) f ++ v

/-- `be_int` of a vector of either kind (R8). -/
def kindInt {α : Type} (k : Kind α) (v : List α) : Nat := beNat (2 ^ k.width) (v.map k.toDigit)

/-- `inc(v)` of R135: add one, the carry out of the top digit discarded. -/
def incVec {α : Type} (k : Kind α) (v : List α) : List α :=
  (beDigits (2 ^ k.width) v.length (kindInt k v + 1)).map k.ofDigit

/-- `inc32(v)` of R138: the increment confined to the last 32 bits, or to the whole of a shorter vector. -/
def inc32Vec {α : Type} (k : Kind α) (v : List α) : List α :=
  let n := min v.length (32 / k.width)
  v.take (v.length - n) ++ incVec k (v.drop (v.length - n))

/-- `xor` of byte vectors. -/
def xorBytes (a b : Bytes) : Bytes := xorVec byteKind a b

/-- `xor` of bit vectors. -/
def xorBits (a b : Bits) : Bits := xorVec bitKind a b

/-! ### CTRL and PARAM fields (R23, R29, R100) -/

/-- CTRL.ALG. -/
inductive Alg where
  | des
  | tdes
  | ext128
  | reserved
deriving DecidableEq, Repr

/-- CTRL.PAD. -/
inductive Scheme where
  | none
  | pkcs7
  | zero
  | bit
deriving DecidableEq, Repr

/-- CTRL[1:0] (R23, R100). -/
def algOf (ctrl : Word) : Alg :=
  match (ctrl.extractLsb' 0 2).toNat with
  | 0 => .des
  | 1 => .tdes
  | 2 => .ext128
  | _ => .reserved

/-- CTRL[3:2] (R23, R100). -/
def schemeOf (ctrl : Word) : Scheme :=
  match (ctrl.extractLsb' 2 2).toNat with
  | 0 => .none
  | 1 => .pkcs7
  | 2 => .zero
  | _ => .bit

/-- CTRL[6:4], the code of the length-field width (R23). -/
def blwOf (ctrl : Word) : Nat := (ctrl.extractLsb' 4 3).toNat

/-- CTRL[7]: the length field is little-endian (R23). -/
def bleOf (ctrl : Word) : Bool := ctrl.getLsbD 7

/-- CTRL[8]: the completion interrupt is enabled (R23). -/
def ieOf (ctrl : Word) : Bool := ctrl.getLsbD 8

/-- The value of CTRL.ALG, as KALG records it (R26, R182). -/
def algCode (ctrl : Word) : BitVec 2 := ctrl.extractLsb' 0 2

/-- B, the block size in bytes (R211, R280). -/
def blockSize (a : Alg) : Nat :=
  match a with
  | .des => 8
  | .tdes => 8
  | .ext128 => 16
  | .reserved => 8

/-- L, the width of the Bit-padding length field in bytes: 2^BLW (R100, R280). -/
def fieldLen (ctrl : Word) : Nat := 2 ^ blwOf ctrl

/-- W of SUBST: PARAM[3:0] (R29). -/
def rowWidth (param : Word) : Nat := (param.extractLsb' 0 4).toNat

/-- N of ALIGN: PARAM[15:0] (R29). -/
def alignLen (param : Word) : Nat := (param.extractLsb' 0 16).toNat

/-- The fill byte of ALIGN.B: PARAM[23:16] (R29). -/
def fillByte (param : Word) : Byte := param.extractLsb' 16 8

/-- The fill bit of ALIGN.BIT: PARAM[16] (R29). -/
def fillBit (param : Word) : Bool := param.getLsbD 16

/-! ### DMEM ranges (R67, R69) -/

/-- `len` bytes of DMEM starting at `ptr`, on unbounded integers (R67). -/
structure Range where
  ptr : Nat
  len : Nat
deriving DecidableEq, Repr

/-- How an input range may lie to the destination (R69). -/
inductive Mark where
  | inPlace
  | disjoint
deriving DecidableEq, Repr

/-- In bounds: n = 0, or p + n ≤ DMEM_SIZE (R67). -/
def inBounds (size : Nat) (r : Range) : Bool := decide (r.len = 0) || decide (r.ptr + r.len ≤ size)

/-- The ranges meet; empty ranges never do (R69). -/
def meets (a b : Range) : Bool :=
  decide (0 < a.len) && decide (0 < b.len) && decide (a.ptr < b.ptr + b.len) && decide (b.ptr < a.ptr + a.len)

/-- R69: the destination `d` meets the input in a way its mark forbids. -/
def conflicts (d : Range) (i : Range × Mark) : Bool :=
  meets d i.1 &&
    match i.2 with
    | .disjoint => true
    | .inPlace => decide (d.ptr ≠ i.1.ptr)

/-- The range (SRC_PTR, n). -/
def srcRange (c : Csrs) (n : Nat) : Range := ⟨c.srcPtr.toNat, n⟩

/-- The range (AUX_PTR, n). -/
def auxRange (c : Csrs) (n : Nat) : Range := ⟨c.auxPtr.toNat, n⟩

/-- The range (DST_PTR, n). -/
def dstRange (c : Csrs) (n : Nat) : Range := ⟨c.dstPtr.toNat, n⟩

/-- The range (KEY_PTR, KEY_LEN). -/
def keyRange (c : Csrs) : Range := ⟨c.keyPtr.toNat, c.keyLen.toNat⟩

/-- The range (IV_PTR, IV_LEN). -/
def ivRange (c : Csrs) : Range := ⟨c.ivPtr.toNat, c.ivLen.toNat⟩

/-- The range (AAD_PTR, AAD_LEN). -/
def aadRange (c : Csrs) : Range := ⟨c.aadPtr.toNat, c.aadLen.toNat⟩

end Sys2Proof.Machine
end

