-- ==== Sys2Proof/Machine/Flags.lean ====
section
/-! DEFINITION. The STATUS register: its word, its code numbers, its write-1-to-clear rule and the interrupt
output (10_state.md R26, R27, R38; 60_exceptions.md R321, R337). -/

namespace Sys2Proof.Machine

/-- The 4-bit number of a completion code (R321). -/
def codeNum (c : Code) : BitVec 4 :=
  match c with
  | .ok => 0
  | .illegal => 1
  | .config => 2
  | .nokey => 3
  | .bounds => 4
  | .overlap => 5
  | .align => 6
  | .len => 7
  | .pad => 8
  | .auth => 9

/-- The word a read of STATUS returns: R26's layout, bit 31 first. -/
def statusWord (st : Status) (k : KeyStore) : Word :=
  (0 : BitVec 17) ++ k.kalg ++ BitVec.ofBool k.kvalid ++ codeNum st.errcode ++ (0 : BitVec 3)
    ++ BitVec.ofBool st.ovr ++ BitVec.ofBool st.authFail ++ BitVec.ofBool st.err ++ BitVec.ofBool st.done
    ++ BitVec.ofBool st.busy

/-- A host write of v to STATUS: v[1] clears DONE, v[4] clears OVR, nothing else (R27). -/
def statusWrite (st : Status) (v : Word) : Status :=
  { st with done := st.done && !v.getLsbD 1, ovr := st.ovr && !v.getLsbD 4 }

/-- STATUS at acceptance (R334): BUSY set; DONE, ERR, AUTH_FAIL and ERRCODE cleared; OVR kept. -/
def statusAccepted (st : Status) : Status :=
  { st with busy := true, done := false, err := false, authFail := false, errcode := .ok }

/-- STATUS at completion with a code (R335): BUSY cleared, DONE set, ERR and AUTH_FAIL from the code; OVR
kept. -/
def statusCompleted (st : Status) (c : Code) : Status :=
  { st with busy := false, done := true, err := decide (c ≠ .ok), authFail := decide (c = .auth), errcode := c }

/-- The interrupt output: CTRL.IE ∧ STATUS.DONE (R38, R337). -/
def irq (s : State) : Bool := ieOf s.csr.ctrl && s.status.done

end Sys2Proof.Machine
end

