-- ==== Sys2Proof/Machine/Ops.lean ====
section
/-! DEFINITION. The named operations on the machine: reading and writing DMEM, the checks of a command in the
order of 60_exceptions.md R331, acceptance (R334), completion (R335), the clock and reset (R360 to R362).
Completion with a code is the engine's whole exception mechanism: it has no traps and nothing to return from
(R320). -/

namespace Sys2Proof.Machine

/-! ### DMEM -/

/-- The byte at an address; none where nothing has written it (R80). -/
def readByte : Memory → Nat → Option Byte
  | [], _ => none
  | (k, v) :: rest, a => if k = a then some v else readByte rest a

/-- Write one byte, keeping addresses rising. -/
def writeByte : Memory → Nat → Byte → Memory
  | [], a, b => [(a, b)]
  | (k, v) :: rest, a, b =>
    if a < k then (a, b) :: (k, v) :: rest
    else if a = k then (a, b) :: rest
    else (k, v) :: writeByte rest a b

/-- The `n` bytes from address `a`, element 0 lowest (R65); none if one of them is unwritten. MemRead(a, 0)
reads nothing (R10). -/
def readBytes (m : Memory) : Nat → Nat → Option Bytes
  | _, 0 => some []
  | a, n + 1 =>
    match readByte m a, readBytes m (a + 1) n with
    | some b, some bs => some (b :: bs)
    | _, _ => none

/-- Write consecutive bytes from address `a` (R65). -/
def writeBytes : Memory → Nat → Bytes → Memory
  | m, _, [] => m
  | m, a, b :: bs => writeBytes (writeByte m a b) (a + 1) bs

/-- The canonical form: addresses strictly rising. An unlisted byte has no value, so no entry can equal what
it reads as. -/
abbrev Memory.wf (m : Memory) : Prop := m.Pairwise fun a b => a.1 < b.1

/-- Every written byte lies inside DMEM (R37). -/
abbrev Memory.inside (m : Memory) (size : Nat) : Prop := ∀ c ∈ m, c.1 < size

/-! ### What a command does at completion -/

/-- A command's effects, made at completion in one step (R74, R335). -/
structure Effect where
  /-- The completion code. -/
  code : Code
  /-- The result's length, in the command's unit; 0 unless the code is OK (R30). -/
  outLen : Nat
  /-- Where the staged bytes go. -/
  dst : Nat
  /-- The staged bytes; none on an error but a RUN decrypt's PAD (R332). -/
  staged : Bytes
  /-- The key store afterwards, if the command updates it. -/
  keys : Option KeyStore
  /-- The RUN registers afterwards, if the command used them. -/
  regs : Option RunRegs
deriving DecidableEq, Repr

/-- An error: nothing is written, OUT_LEN is 0, all else keeps its value (R332, R333). -/
def failure (c : Code) : Effect :=
  { code := c, outLen := 0, dst := 0, staged := [], keys := none, regs := none }

/-- Success with no result (R30: OUT_LEN is 0 after NOP, ZEROIZE and LOAD_KEY). -/
def success : Effect := failure .ok

/-- Success with `out` staged at DST_PTR and its length in the command's unit. -/
def result (s : State) (out : Bytes) (len : Nat) : Effect :=
  { success with outLen := len, dst := s.csr.dstPtr.toNat, staged := out }

/-- Completion (R74, R335): the DMEM writes, the key-store updates, OUT_LEN and STATUS, in one step. -/
def complete (e : Effect) (s : State) : State :=
  { s with
    dmem := writeBytes s.dmem e.dst e.staged
    keys := e.keys.getD s.keys
    regs := e.regs.getD s.regs
    outLen := if e.code = .ok then BitVec.ofNat 32 e.outLen else 0
    status := statusCompleted s.status e.code
    cyclesLeft := 0 }

/-- A command's computation, ended: its effect, an error raised, or a model fault. -/
def finish (s : State) (r : Except Stop Effect) : Host.Outcome State Fault Refusal :=
  match r with
  | .ok e => .next (complete e s)
  | .error (.code c) => .next (complete (failure c) s)
  | .error (.fault f) => .fault f

/-! ### A command's checks and reads -/

/-- One check: raise Error(c) unless the condition holds (R10, R331). -/
def check (ok : Bool) (c : Code) : Except Stop Unit := if ok then .ok () else .error (.code c)

/-- BOUNDS over all of a command's ranges (R67, R325). -/
def checkBounds (s : State) (rs : List Range) : Except Stop Unit :=
  check (rs.all (inBounds s.cfg.dmemSize)) .bounds

/-- OVERLAP of the destination with the marked inputs (R69, R326). -/
def checkOverlap (d : Range) (ins : List (Range × Mark)) : Except Stop Unit :=
  check (!ins.any (conflicts d)) .overlap

/-- BOUNDS, then OVERLAP (R331 steps 5 and 6); answers the destination range. -/
def checkRanges (s : State) (d : Range) (ins : List (Range × Mark)) : Except Stop Range := do
  checkBounds s (d :: ins.map Prod.fst)
  checkOverlap d ins
  return d

/-- MemRead of an input range from the snapshot (R10, R68); a range that holds an unwritten byte is a model
fault (R80). The snapshot is the state at completion: nothing changes DMEM or the operand CSRs while a command
runs (R36, R70). -/
def readRange (s : State) (r : Range) : Except Stop Bytes :=
  match readBytes s.dmem r.ptr r.len with
  | some v => .ok v
  | none => .error (.fault .unwrittenInput)

/-- CONFIG of a command that uses the transform: (a) and (c) of R323. -/
def cipherConfigOk (s : State) : Bool :=
  match algOf s.csr.ctrl with
  | .des => true
  | .tdes => true
  | .ext128 => s.cfg.extPresent
  | .reserved => false

/-- CONFIG of a command that pads: (d) of R323. -/
def padConfigOk (ctrl : Word) : Bool := !(decide (schemeOf ctrl = .bit) && decide (4 < blwOf ctrl))

/-- NOKEY: DES and TDES need a schedule built for that algorithm (R179, R324). -/
def keyOk (s : State) : Bool :=
  match algOf s.csr.ctrl with
  | .des => s.keys.kvalid && decide (s.keys.kalg = 0)
  | .tdes => s.keys.kvalid && decide (s.keys.kalg = 1)
  | .ext128 => true
  | .reserved => true

/-! ### Acceptance, fetch and the clock -/

/-- The latch, STATUS and OUT_LEN at acceptance of a word (R334). -/
def latchCommand (w : Word) (s : State) : State :=
  { s with latch := w, status := statusAccepted s.status, outLen := 0, fresh := s.fresh + 1 }

/-- Acceptance (R334): the command then takes LATENCY ≥ 1 cycles (R335, R369), a free value (log 3). -/
def accept (w : Word) (s : State) : State :=
  { latchCommand w s with cyclesLeft := Config.latencyBeyondOne (latchCommand w s) + 1 }

/-- The command the engine runs: the decoded latch (R36, R77). -/
def fetch (s : State) : Option Instr := decode s.latch

/-- The accepted command completes next (R335): its cycles have elapsed, or the coming cycle is its last and the
completion is ordered before what the outside does in that cycle (R340, I9; log 5). No command runs under reset
(R360). -/
def ready (s : State) : Bool :=
  s.status.busy && !s.rst && (decide (s.cyclesLeft = 0) || decide (s.cyclesLeft = 1) && Config.completesFirst s)

/-- One clock cycle passes (R369). -/
def tick (s : State) : State := { s with cyclesLeft := s.cyclesLeft - 1 }

/-! ### Reset -/

/-- The state a reset leaves (R40, R360), with the given DMEM and the reset input at `level`. The parameters
and what the outside does next stay; h_rdata is 0, as every read under reset answers (log 11). -/
def resetTo (level : Bool) (m : Memory) (s : State) : State :=
  { State.reset with cfg := s.cfg, dmem := m, rst := level, inputs := s.inputs, fresh := s.fresh + 1 }

/-- DMEM after a reset abandons a command whose destination range is `r`: each byte of the range is any value
(R361, I8), every other byte as before (log 4). -/
def abandonRange (s : State) (r : Range) : Memory :=
  writeBytes s.dmem r.ptr ((List.range r.len).map fun i => Config.abandonedByte s (r.ptr + i))

end Sys2Proof.Machine
end

