-- ==== Sys2Proof/Machine/Des.lean ====
section
/-! DEFINITION. The DES and triple-DES engine of 41_des_engine.md: the tables (R161 to R169), the key
schedule (R170), the round function and block transform (R173 to R175), triple DES (R176 to R178), the
transform pair CTRL.ALG selects (R179 to R181), and LOAD_KEY, BLOCK.F and BLOCK.I (R182 to R184). -/

namespace Sys2Proof.Machine

/-! ### Tables, in the standard 1-based form (R160) -/

/-- The initial permutation (R161). -/
def tableIP : List Nat :=
  [58, 50, 42, 34, 26, 18, 10, 2, 60, 52, 44, 36, 28, 20, 12, 4,
   62, 54, 46, 38, 30, 22, 14, 6, 64, 56, 48, 40, 32, 24, 16, 8,
   57, 49, 41, 33, 25, 17, 9, 1, 59, 51, 43, 35, 27, 19, 11, 3,
   61, 53, 45, 37, 29, 21, 13, 5, 63, 55, 47, 39, 31, 23, 15, 7]

/-- The final permutation (R162). -/
def tableFP : List Nat :=
  [40, 8, 48, 16, 56, 24, 64, 32, 39, 7, 47, 15, 55, 23, 63, 31,
   38, 6, 46, 14, 54, 22, 62, 30, 37, 5, 45, 13, 53, 21, 61, 29,
   36, 4, 44, 12, 52, 20, 60, 28, 35, 3, 43, 11, 51, 19, 59, 27,
   34, 2, 42, 10, 50, 18, 58, 26, 33, 1, 41, 9, 49, 17, 57, 25]

/-- The expansion E (R163). -/
def tableE : List Nat :=
  [32, 1, 2, 3, 4, 5, 4, 5, 6, 7, 8, 9, 8, 9, 10, 11, 12, 13, 12, 13, 14, 15, 16, 17,
   16, 17, 18, 19, 20, 21, 20, 21, 22, 23, 24, 25, 24, 25, 26, 27, 28, 29, 28, 29, 30, 31, 32, 1]

/-- The permutation P (R164). -/
def tableP : List Nat :=
  [16, 7, 20, 21, 29, 12, 28, 17, 1, 15, 23, 26, 5, 18, 31, 10,
   2, 8, 24, 14, 32, 27, 3, 9, 19, 13, 30, 6, 22, 11, 4, 25]

/-- Permuted choice 1 (R167). -/
def tablePC1 : List Nat :=
  [57, 49, 41, 33, 25, 17, 9, 1, 58, 50, 42, 34, 26, 18, 10, 2, 59, 51, 43, 35, 27, 19, 11, 3, 60, 52, 44, 36,
   63, 55, 47, 39, 31, 23, 15, 7, 62, 54, 46, 38, 30, 22, 14, 6, 61, 53, 45, 37, 29, 21, 13, 5, 28, 20, 12, 4]

/-- Permuted choice 2 (R168). -/
def tablePC2 : List Nat :=
  [14, 17, 11, 24, 1, 5, 3, 28, 15, 6, 21, 10, 23, 19, 12, 4, 26, 8, 16, 7, 27, 20, 13, 2,
   41, 52, 31, 37, 47, 55, 30, 40, 51, 45, 33, 48, 44, 49, 39, 56, 34, 53, 46, 42, 50, 36, 29, 32]

/-- The left rotations of rounds 1 to 16 (R169). -/
def keyShifts : List Nat := [1, 1, 2, 2, 2, 2, 2, 2, 1, 2, 2, 2, 2, 2, 2, 1]

/-- S-box 1 in the 4×16 form (R165). -/
def sbox1 : List Nat :=
  [14, 4, 13, 1, 2, 15, 11, 8, 3, 10, 6, 12, 5, 9, 0, 7, 0, 15, 7, 4, 14, 2, 13, 1, 10, 6, 12, 11, 9, 5, 3, 8,
   4, 1, 14, 8, 13, 6, 2, 11, 15, 12, 9, 7, 3, 10, 5, 0, 15, 12, 8, 2, 4, 9, 1, 7, 5, 11, 3, 14, 10, 0, 6, 13]

/-- S-box 2 (R165). -/
def sbox2 : List Nat :=
  [15, 1, 8, 14, 6, 11, 3, 4, 9, 7, 2, 13, 12, 0, 5, 10, 3, 13, 4, 7, 15, 2, 8, 14, 12, 0, 1, 10, 6, 9, 11, 5,
   0, 14, 7, 11, 10, 4, 13, 1, 5, 8, 12, 6, 9, 3, 2, 15, 13, 8, 10, 1, 3, 15, 4, 2, 11, 6, 7, 12, 0, 5, 14, 9]

/-- S-box 3 (R165). -/
def sbox3 : List Nat :=
  [10, 0, 9, 14, 6, 3, 15, 5, 1, 13, 12, 7, 11, 4, 2, 8, 13, 7, 0, 9, 3, 4, 6, 10, 2, 8, 5, 14, 12, 11, 15, 1,
   13, 6, 4, 9, 8, 15, 3, 0, 11, 1, 2, 12, 5, 10, 14, 7, 1, 10, 13, 0, 6, 9, 8, 7, 4, 15, 14, 3, 11, 5, 2, 12]

/-- S-box 4 (R165). -/
def sbox4 : List Nat :=
  [7, 13, 14, 3, 0, 6, 9, 10, 1, 2, 8, 5, 11, 12, 4, 15, 13, 8, 11, 5, 6, 15, 0, 3, 4, 7, 2, 12, 1, 10, 14, 9,
   10, 6, 9, 0, 12, 11, 7, 13, 15, 1, 3, 14, 5, 2, 8, 4, 3, 15, 0, 6, 10, 1, 13, 8, 9, 4, 5, 11, 12, 7, 2, 14]

/-- S-box 5 (R165). -/
def sbox5 : List Nat :=
  [2, 12, 4, 1, 7, 10, 11, 6, 8, 5, 3, 15, 13, 0, 14, 9, 14, 11, 2, 12, 4, 7, 13, 1, 5, 0, 15, 10, 3, 9, 8, 6,
   4, 2, 1, 11, 10, 13, 7, 8, 15, 9, 12, 5, 6, 3, 0, 14, 11, 8, 12, 7, 1, 14, 2, 13, 6, 15, 0, 9, 10, 4, 5, 3]

/-- S-box 6 (R165). -/
def sbox6 : List Nat :=
  [12, 1, 10, 15, 9, 2, 6, 8, 0, 13, 3, 4, 14, 7, 5, 11, 10, 15, 4, 2, 7, 12, 9, 5, 6, 1, 13, 14, 0, 11, 3, 8,
   9, 14, 15, 5, 2, 8, 12, 3, 7, 0, 4, 10, 1, 13, 11, 6, 4, 3, 2, 12, 9, 5, 15, 10, 11, 14, 1, 7, 6, 0, 8, 13]

/-- S-box 7 (R165). -/
def sbox7 : List Nat :=
  [4, 11, 2, 14, 15, 0, 8, 13, 3, 12, 9, 7, 5, 10, 6, 1, 13, 0, 11, 7, 4, 9, 1, 10, 14, 3, 5, 12, 2, 15, 8, 6,
   1, 4, 11, 13, 12, 3, 7, 14, 10, 15, 6, 8, 0, 5, 9, 2, 6, 11, 13, 8, 1, 4, 10, 7, 9, 5, 0, 15, 14, 2, 3, 12]

/-- S-box 8 (R165). -/
def sbox8 : List Nat :=
  [13, 2, 8, 4, 6, 15, 11, 1, 10, 9, 3, 14, 5, 0, 12, 7, 1, 15, 13, 8, 10, 3, 7, 4, 12, 5, 6, 11, 0, 14, 9, 2,
   7, 11, 4, 1, 9, 12, 14, 2, 0, 6, 10, 13, 15, 3, 5, 8, 2, 1, 14, 7, 4, 10, 8, 13, 15, 12, 9, 0, 3, 5, 6, 11]

/-- S1 to S8. -/
def sboxes : List (List Nat) := [sbox1, sbox2, sbox3, sbox4, sbox5, sbox6, sbox7, sbox8]

/-- Row v of an S-box in the source's 64-row form: standard row 2·(v >> 5) + (v & 1), column (v >> 1) & 15
(R166). -/
def sboxRow (s : List Nat) (v : Nat) : Nat := s.getD (16 * (2 * (v / 32) + v % 2) + v / 2 % 16) 0

/-- perm with a table's entries minus one as the index list (R160). -/
def permTable (v : Bits) (table : List Nat) : Bits := permVec false v (table.map fun j => j - 1)

/-- `be_bits_n(x)` of R8. -/
def beBits (n x : Nat) : Bits := (beDigits 2 n x).map fun d => decide (d % 2 = 1)

/-! ### Key schedule -/

/-- rotl of R170. -/
def rotl (v : Bits) (s : Nat) : Bits := v.drop s ++ v.take s

/-- The loop of R170 over the rotation amounts, from the halves C and D. -/
def roundKeys : List Nat → Bits → Bits → List SubKey
  | [], _, _ => []
  | s :: rest, c, d =>
    BitVec.ofNat 48 (beIntBits (permTable (rotl c s ++ rotl d s) tablePC2)) :: roundKeys rest (rotl c s) (rotl d s)

/-- The textbook key schedule of an 8-byte key (R170). -/
def schedule (k : Bytes) : Schedule :=
  let cd := permTable (bits k) tablePC1
  let ks := roundKeys keyShifts (cd.take 28) (cd.drop 28)
  Vector.ofFn fun r : Fin 16 => ks.getD r.val 0

/-- The rotation of round r + 1 since the start: c_{r+1} of R171. -/
def shiftSum (r : Nat) : Nat := (keyShifts.take (r + 1)).sum

/-- The positions in PC1's output after round r + 1: CD_{r+1} of R171. -/
def fusedPositions (r : Nat) : List Nat :=
  ((List.range 28).drop (shiftSum r % 28) ++ (List.range 28).take (shiftSum r % 28)) ++
    (((List.range 28).drop (shiftSum r % 28) ++ (List.range 28).take (shiftSum r % 28)).map fun p => 28 + p)

/-- The fused table of round r + 1: FK_{r+1}[j] = PC1[CD[PC2[j] − 1]] − 1 (R171). -/
def fusedTable (r : Nat) : List Nat :=
  tablePC2.map fun j => tablePC1.getD ((fusedPositions r).getD (j - 1) 0) 0 - 1

/-- Subkey r + 1 by the fused form of R171. -/
def fusedKey (k : Bytes) (r : Nat) : SubKey := BitVec.ofNat 48 (beIntBits (permVec false (bits k) (fusedTable r)))

/-! ### Round function and block transform -/

/-- A subkey's 48 bits. -/
def subkeyBits (k : SubKey) : Bits := (List.range 48).map fun i => k.getMsbD i

/-- The eight S-boxes on the eight 6-bit groups, the j-th group through the j-th box (R173). -/
def substituteGroups (x : Bits) : Bits :=
  ((chunks 6 x).zip sboxes).flatMap fun p => beBits 4 (sboxRow p.2 (beIntBits p.1))

/-- The round function f (R173). -/
def roundF (r : Bits) (k : SubKey) : Bits :=
  permTable (substituteGroups (xorBits (permTable r tableE) (subkeyBits k))) tableP

/-- One Feistel round: (L, R) ← (R, L ⊕ f(R, K)) (R174). -/
def feistelRound (lr : Bits × Bits) (k : SubKey) : Bits × Bits := (lr.2, xorBits lr.1 (roundF lr.2 k))

/-- The DES block transform with the subkeys in this order, the final swap included (R174). -/
def desBlock (x : Bytes) (ks : List SubKey) : Bytes :=
  let b := permTable (bits x) tableIP
  let lr := ks.foldl feistelRound (b.take 32, b.drop 32)
  bytes (permTable (lr.2 ++ lr.1) tableFP)

/-- DES encryption: subkeys in schedule order (R174). -/
def desE (sk : Schedule) (x : Bytes) : Bytes := desBlock x sk.toList

/-- DES decryption: the same rounds with the subkeys reversed (R175). -/
def desD (sk : Schedule) (x : Bytes) : Bytes := desBlock x sk.toList.reverse

/-! ### Triple DES -/

/-- The key split of R176: 16 bytes are two keys, any other length is aligned to 24 bytes. -/
def tdesKeys (k : Bytes) : Bytes × Bytes × Bytes :=
  if k.length = 16 then (k.take 8, k.drop 8, k.take 8)
  else
    let a := alignVec k 24 0
    (a.take 8, (a.drop 8).take 8, a.drop 16)

/-- T3 = E(key3) ∘ D(key2) ∘ E(key1) (R177). -/
def tdesE (k : KeyStore) (x : Bytes) : Bytes := desE k.sk3 (desD k.sk2 (desE k.sk1 x))

/-- T3inv = D(key1) ∘ E(key2) ∘ D(key3) (R178). -/
def tdesD (k : KeyStore) (x : Bytes) : Bytes := desD k.sk1 (desE k.sk2 (desD k.sk3 x))

/-! ### The configured transform pair (R179) -/

/-- EXT128's answer to a 16-byte block (R180): forward F, or inverse F⁻¹. -/
def extF (x : Bytes) : Bytes := bytesOf (Config.ext128 (blockOf x))

/-- EXT128's inverse answer (R180). -/
def extInv (x : Bytes) : Bytes := bytesOf (Config.ext128.symm (blockOf x))

/-- T, the forward transform CTRL.ALG selects (R179). ALG = 3 never gets here: it is CONFIG. -/
def blockT (s : State) (x : Bytes) : Bytes :=
  match algOf s.csr.ctrl with
  | .des => desE s.keys.sk1 x
  | .tdes => tdesE s.keys x
  | .ext128 => extF x
  | .reserved => x

/-- Tinv, the inverse transform CTRL.ALG selects (R179). -/
def blockTinv (s : State) (x : Bytes) : Bytes :=
  match algOf s.csr.ctrl with
  | .des => desD s.keys.sk1 x
  | .tdes => tdesD s.keys x
  | .ext128 => extInv x
  | .reserved => x

/-! ### Commands -/

/-- The checks of LOAD_KEY: CONFIG for EXT128 and the reserved code, then BOUNDS of the key (R182, R323). -/
def preLoadKey (s : State) : Except Stop Unit := do
  check (decide (algOf s.csr.ctrl = .des) || decide (algOf s.csr.ctrl = .tdes)) .config
  checkBounds s [keyRange s.csr]

/-- The key store a key's bytes give (R182). -/
def loadedKeys (ctrl : Word) (k : Bytes) : KeyStore :=
  if algOf ctrl = .tdes then
    let ks := tdesKeys k
    { sk1 := schedule ks.1, sk2 := schedule ks.2.1, sk3 := schedule ks.2.2, kvalid := true, kalg := algCode ctrl }
  else
    { sk1 := schedule (alignVec k 8 0), sk2 := Vector.replicate 16 0, sk3 := Vector.replicate 16 0,
      kvalid := true, kalg := algCode ctrl }

/-- LOAD_KEY (R182). -/
def execLoadKey (s : State) : Host.Outcome State Fault Refusal :=
  finish s do
    preLoadKey s
    let k ← readRange s (keyRange s.csr)
    return { success with keys := some (loadedKeys s.csr.ctrl k) }

/-- The checks of BLOCK: CONFIG, NOKEY, LEN, BOUNDS, OVERLAP; answers the destination (R183, R331). -/
def preBlock (s : State) : Except Stop Range := do
  let b := blockSize (algOf s.csr.ctrl)
  check (cipherConfigOk s) .config
  check (keyOk s) .nokey
  check (decide (s.csr.srcLen.toNat = b)) .len
  checkRanges s (dstRange s.csr b) [(srcRange s.csr b, .inPlace)]

/-- BLOCK with the transform t (R183, R184). -/
def execBlock (t : Bytes → Bytes) (s : State) : Host.Outcome State Fault Refusal :=
  finish s do
    let d ← preBlock s
    let x ← readRange s (srcRange s.csr d.len)
    return result s (t x) d.len

/-- BLOCK.F (R183). -/
def execBlockF (s : State) : Host.Outcome State Fault Refusal := execBlock (blockT s) s

/-- BLOCK.I (R184). -/
def execBlockI (s : State) : Host.Outcome State Fault Refusal := execBlock (blockTinv s) s

end Sys2Proof.Machine
end

