-- ==== Sys2Proof/Machine/Vector.lean ====
section
/-! DEFINITION. The vector commands of 40_vector_ops.md, each in byte and bit form over the element kinds of
Operands.lean. Their checks stand apart from their data step, since a reset while one runs asks for its
destination alone (70_reset_and_hazards.md R361). -/

namespace Sys2Proof.Machine

/-- ReadVec (R121): the n-element vector at a DMEM address. -/
def readVec {α : Type} (k : Kind α) (s : State) (ptr n : Nat) : Except Stop (List α) := do
  let v ← readRange s ⟨ptr, k.nb n⟩
  return k.unpack n v

/-- WriteVec (R122) at DST_PTR: OUT_LEN counts elements. -/
def vecResult {α : Type} (k : Kind α) (s : State) (v : List α) : Effect := result s (k.pack v) v.length

/-! ### XOR (R123 to R125) -/

/-- LEN, BOUNDS, OVERLAP of XOR: A in-place allowed, B disjoint. -/
def preXor {α : Type} (k : Kind α) (s : State) : Except Stop Range := do
  let n := s.csr.srcLen.toNat
  let m := s.csr.auxLen.toNat
  check (!(decide (0 < n) && decide (m = 0))) .len
  checkRanges s (dstRange s.csr (k.nb n))
    [(srcRange s.csr (k.nb n), .inPlace), (auxRange s.csr (k.nb m), .disjoint)]

/-- XOR of either kind. -/
def execXor {α : Type} (k : Kind α) (s : State) : Host.Outcome State Fault Refusal :=
  finish s do
    let _ ← preXor k s
    let a ← readVec k s s.csr.srcPtr.toNat s.csr.srcLen.toNat
    let b ← readVec k s s.csr.auxPtr.toNat s.csr.auxLen.toNat
    return vecResult k s (xorVec k a b)

/-- XOR.B (R124). -/
def execXorB (s : State) : Host.Outcome State Fault Refusal := execXor byteKind s

/-- XOR.BIT (R125). -/
def execXorBit (s : State) : Host.Outcome State Fault Refusal := execXor bitKind s

/-! ### Permutation (R126 to R128) -/

/-- BOUNDS, OVERLAP of PERM: both inputs disjoint; AUX_LEN counts 16-bit entries. -/
def prePerm {α : Type} (k : Kind α) (s : State) : Except Stop Range :=
  checkRanges s (dstRange s.csr (k.nb s.csr.auxLen.toNat))
    [(srcRange s.csr (k.nb s.csr.srcLen.toNat), .disjoint), (auxRange s.csr (2 * s.csr.auxLen.toNat), .disjoint)]

/-- The index list: 16-bit big-endian entries (R127). -/
def indexList (v : Bytes) : List Nat := (chunks 2 v).map beInt

/-- PERM of either kind. -/
def execPerm {α : Type} (k : Kind α) (s : State) : Host.Outcome State Fault Refusal :=
  finish s do
    let _ ← prePerm k s
    let v ← readVec k s s.csr.srcPtr.toNat s.csr.srcLen.toNat
    let ix ← readRange s (auxRange s.csr (2 * s.csr.auxLen.toNat))
    return vecResult k s (permVec k.zero v (indexList ix))

/-- PERM.B (R127). -/
def execPermB (s : State) : Host.Outcome State Fault Refusal := execPerm byteKind s

/-- PERM.BIT (R128). -/
def execPermBit (s : State) : Host.Outcome State Fault Refusal := execPerm bitKind s

/-! ### Substitution (R129 to R131) -/

/-- LEN (static), BOUNDS, OVERLAP of SUBST.B: index at most 2 bytes, rows of W bytes. -/
def preSubstB (s : State) : Except Stop Range := do
  let w := rowWidth s.csr.param
  check (decide (1 ≤ w) && decide (w ≤ 8) && decide (s.csr.srcLen.toNat ≤ 2)) .len
  checkRanges s (dstRange s.csr w)
    [(srcRange s.csr s.csr.srcLen.toNat, .disjoint), (auxRange s.csr (s.csr.auxLen.toNat * w), .disjoint)]

/-- SUBST.B (R130): the index picks a row of W bytes; an index outside the table is LEN. -/
def execSubstB (s : State) : Host.Outcome State Fault Refusal :=
  finish s do
    let _ ← preSubstB s
    let w := rowWidth s.csr.param
    let v ← readVec byteKind s s.csr.srcPtr.toNat s.csr.srcLen.toNat
    let t ← readRange s (auxRange s.csr (s.csr.auxLen.toNat * w))
    let index := kindInt byteKind v
    check (decide (index < s.csr.auxLen.toNat)) .len
    return vecResult byteKind s ((t.drop (index * w)).take w)

/-- LEN (static), BOUNDS, OVERLAP of SUBST.BIT: index at most 16 bits, rows of one byte. -/
def preSubstBit (s : State) : Except Stop Range := do
  let w := rowWidth s.csr.param
  check (decide (1 ≤ w) && decide (w ≤ 8) && decide (s.csr.srcLen.toNat ≤ 16)) .len
  checkRanges s (dstRange s.csr 1)
    [(srcRange s.csr (bitKind.nb s.csr.srcLen.toNat), .disjoint), (auxRange s.csr s.csr.auxLen.toNat, .disjoint)]

/-- SUBST.BIT (R131): the low W bits of the row's byte; an index outside the table is LEN. -/
def execSubstBit (s : State) : Host.Outcome State Fault Refusal :=
  finish s do
    let _ ← preSubstBit s
    let w := rowWidth s.csr.param
    let v ← readVec bitKind s s.csr.srcPtr.toNat s.csr.srcLen.toNat
    let t ← readRange s (auxRange s.csr s.csr.auxLen.toNat)
    let index := kindInt bitKind v
    check (decide (index < s.csr.auxLen.toNat)) .len
    return vecResult bitKind s (beBits w ((t.getD index 0).toNat % 2 ^ w))

/-! ### Alignment (R132 to R134) -/

/-- BOUNDS, OVERLAP of ALIGN: the input is disjoint. -/
def preAlign {α : Type} (k : Kind α) (s : State) : Except Stop Range :=
  checkRanges s (dstRange s.csr (k.nb (alignLen s.csr.param)))
    [(srcRange s.csr (k.nb s.csr.srcLen.toNat), .disjoint)]

/-- ALIGN of either kind with its fill element. -/
def execAlign {α : Type} (k : Kind α) (f : α) (s : State) : Host.Outcome State Fault Refusal :=
  finish s do
    let _ ← preAlign k s
    let v ← readVec k s s.csr.srcPtr.toNat s.csr.srcLen.toNat
    return vecResult k s (alignVec v (alignLen s.csr.param) f)

/-- ALIGN.B (R133). -/
def execAlignB (s : State) : Host.Outcome State Fault Refusal := execAlign byteKind (fillByte s.csr.param) s

/-- ALIGN.BIT (R134). -/
def execAlignBit (s : State) : Host.Outcome State Fault Refusal := execAlign bitKind (fillBit s.csr.param) s

/-! ### Increment (R135 to R140) -/

/-- BOUNDS, OVERLAP of INC and INC32: the input is in-place allowed. -/
def preInc {α : Type} (k : Kind α) (s : State) : Except Stop Range :=
  checkRanges s (dstRange s.csr (k.nb s.csr.srcLen.toNat)) [(srcRange s.csr (k.nb s.csr.srcLen.toNat), .inPlace)]

/-- INC or INC32 of either kind: `f` is the increment. -/
def execIncWith {α : Type} (k : Kind α) (f : List α → List α) (s : State) : Host.Outcome State Fault Refusal :=
  finish s do
    let _ ← preInc k s
    let v ← readVec k s s.csr.srcPtr.toNat s.csr.srcLen.toNat
    return vecResult k s (f v)

/-- INC.B (R136). -/
def execIncB (s : State) : Host.Outcome State Fault Refusal := execIncWith byteKind (incVec byteKind) s

/-- INC.BIT (R137). -/
def execIncBit (s : State) : Host.Outcome State Fault Refusal := execIncWith bitKind (incVec bitKind) s

/-- INC32.B (R139). -/
def execInc32B (s : State) : Host.Outcome State Fault Refusal := execIncWith byteKind (inc32Vec byteKind) s

/-- INC32.BIT (R140). -/
def execInc32Bit (s : State) : Host.Outcome State Fault Refusal := execIncWith bitKind (inc32Vec bitKind) s

end Sys2Proof.Machine
end

