-- ==== Sys2Proof/Machine/Padding.lean ====
section
/-! DEFINITION. The padding encoder and decoder of 44_padding.md: the four schemes as functions (R281 to
R287) and PAD and UNPAD (R288, R289). -/

namespace Sys2Proof.Machine

/-- What a scheme is built with: the scheme, the block size B, the length-field width L and its byte order
(R280). -/
structure PadCfg where
  scheme : Scheme
  block : Nat
  field : Nat
  little : Bool
deriving DecidableEq, Repr

/-- The padding CTRL selects (R23, R280). -/
def padCfg (ctrl : Word) : PadCfg :=
  { scheme := schemeOf ctrl, block := blockSize (algOf ctrl), field := fieldLen ctrl, little := bleOf ctrl }

/-- The zero bytes of Bit-padding: z = ((B − L) − (n + 1)) mod B, never negative (R7, R286). -/
def bitZeros (p : PadCfg) (n : Nat) : Nat := (((p.block : Int) - p.field - (n + 1)) % (p.block : Int)).toNat

/-- The length field: 8·n mod 2^(8L) in the configured byte order (R286). -/
def lengthField (p : PadCfg) (n : Nat) : Bytes :=
  if p.little then leBytes p.field (8 * n) else beBytes p.field (8 * n)

/-- What pad appends to an n-byte message (R281, R282, R284, R286). -/
def padTail (p : PadCfg) (n : Nat) : Bytes :=
  match p.scheme with
  | .none => []
  | .pkcs7 => List.replicate (p.block - n % p.block) (BitVec.ofNat 8 (p.block - n % p.block))
  | .zero => List.replicate ((p.block - n % p.block) % p.block) 0
  | .bit => 0x80 :: (List.replicate (bitZeros p n) 0 ++ lengthField p n)

/-- `pad(m)` (R281, R282, R284, R286). -/
def padBytes (p : PadCfg) (m : Bytes) : Bytes := m ++ padTail p m.length

/-- len(pad(m)) for an n-byte message: the write extent of R212. -/
def paddedLen (p : PadCfg) (n : Nat) : Nat :=
  match p.scheme with
  | .none => n
  | .pkcs7 => n + (p.block - n % p.block)
  | .zero => n + (p.block - n % p.block) % p.block
  | .bit => n + 1 + bitZeros p n + p.field

/-- `unpad(m)`; none where R283 and R287 raise PAD. -/
def unpadBytes (p : PadCfg) (m : Bytes) : Option Bytes :=
  match p.scheme with
  | .none => some m
  | .pkcs7 =>
    match m.getLast? with
    | none => none
    | some k => if m.length < k.toNat then none else some (m.take (m.length - k.toNat))
  | .zero => some (m.reverse.dropWhile fun b => b == 0).reverse
  | .bit =>
    if m.length < p.field + 1 then none
    else
      let field := m.drop (m.length - p.field)
      let k := beInt (if p.little then field.reverse else field) / 8
      if m.length - p.field - 1 < k then none else some (m.take k)

/-- CONFIG of PAD and UNPAD: (a) and (d) of R323. EXT128 need not be present (R280). -/
def padCommandConfigOk (ctrl : Word) : Bool := !decide (algOf ctrl = .reserved) && padConfigOk ctrl

/-- The first checks of PAD and UNPAD: CONFIG, BOUNDS (SRC) (R331). -/
def checkPadSource (s : State) : Except Stop Unit := do
  check (padCommandConfigOk s.csr.ctrl) .config
  checkBounds s [srcRange s.csr s.csr.srcLen.toNat]

/-- Their last checks, on a result of `len` bytes: BOUNDS (DST), OVERLAP (R331); answers the destination range. -/
def checkPadDest (s : State) (len : Nat) : Except Stop Range := do
  checkBounds s [dstRange s.csr len]
  checkOverlap (dstRange s.csr len) [(srcRange s.csr s.csr.srcLen.toNat, .inPlace)]
  return dstRange s.csr len

/-- The course of PAD and UNPAD (R288, R289, R331): the first checks, the computation `f` on the bytes read (none where
it raises PAD), the last checks; answers the destination range and the result. -/
def padCommand (f : Bytes → Option Bytes) (s : State) : Except Stop (Range × Bytes) := do
  checkPadSource s
  let m ← readRange s (srcRange s.csr s.csr.srcLen.toNat)
  match f m with
  | none => .error (.code .pad)
  | some u =>
    let d ← checkPadDest s u.length
    return (d, u)

/-- PAD (R288). -/
def execPad (s : State) : Host.Outcome State Fault Refusal :=
  finish s do
    let (_, p) ← padCommand (fun m => some (padBytes (padCfg s.csr.ctrl) m)) s
    return result s p p.length

/-- PAD's checks without its data, which do not decide its extent: what a reset that abandons it asks for (R361). -/
def prePad (s : State) : Except Stop Range := do
  checkPadSource s
  checkPadDest s (paddedLen (padCfg s.csr.ctrl) s.csr.srcLen.toNat)

/-- UNPAD up to its destination range; answers the range and the unpadded bytes (R289). -/
def preUnpad (s : State) : Except Stop (Range × Bytes) := padCommand (unpadBytes (padCfg s.csr.ctrl)) s

/-- UNPAD (R289). -/
def execUnpad (s : State) : Host.Outcome State Fault Refusal :=
  finish s do
    let (_, u) ← preUnpad s
    return result s u u.length

end Sys2Proof.Machine
end

