-- ==== Sys2Proof/Machine/Modes.lean ====
section
/-! DEFINITION. The mode sequencer of 42_modes.md: the common sequence of RUN (R210 to R216) and the ten
plain-mode commands (R217 to R226). -/

namespace Sys2Proof.Machine

/-- The plain modes of R93. -/
inductive Mode where
  | ecb
  | cbc
  | cfb
  | ofb
  | ctr
deriving DecidableEq, Repr

/-- DIR of R94. -/
inductive Dir where
  | encrypt
  | decrypt
deriving DecidableEq, Repr

/-- `step(m, d, X)` of R217 to R226: the output block and the new feedback register. CFB, OFB and CTR use the
forward transform in both directions (R181). -/
def modeStep (t tinv : Bytes → Bytes) (m : Mode) (d : Dir) (fb x : Bytes) : Bytes × Bytes :=
  match m, d with
  | .ecb, .encrypt => (t x, fb)
  | .ecb, .decrypt => (tinv x, fb)
  | .cbc, .encrypt => (t (xorBytes x fb), t (xorBytes x fb))
  | .cbc, .decrypt => (xorBytes (tinv x) fb, x)
  | .cfb, .encrypt => (xorBytes x (t fb), xorBytes x (t fb))
  | .cfb, .decrypt => (xorBytes x (t fb), x)
  | .ofb, .encrypt => (xorBytes x (t fb), t fb)
  | .ofb, .decrypt => (xorBytes x (t fb), t fb)
  | .ctr, .encrypt => (xorBytes x (t fb), inc32Vec byteKind fb)
  | .ctr, .decrypt => (xorBytes x (t fb), inc32Vec byteKind fb)

/-- The block loop of R210 step 5: the output and the last feedback register. -/
def modeBlocks (t tinv : Bytes → Bytes) (m : Mode) (d : Dir) : Bytes → List Bytes → Bytes × Bytes
  | fb, [] => ([], fb)
  | fb, x :: xs =>
    let yf := modeStep t tinv m d fb x
    let rest := modeBlocks t tinv m d yf.2 xs
    (yf.1 ++ rest.1, rest.2)

/-- W of R212 for a plain mode. -/
def runExtent (d : Dir) (ctrl : Word) (n : Nat) : Nat :=
  match d with
  | .encrypt => paddedLen (padCfg ctrl) n
  | .decrypt => n

/-- ALIGN of R210 step 4: the condition under which ECB and CBC accept n bytes. -/
def alignOk (m : Mode) (d : Dir) (ctrl : Word) (n : Nat) : Bool :=
  match m, d with
  | .ecb, .encrypt | .cbc, .encrypt =>
    !decide (schemeOf ctrl = .none) || decide (n % blockSize (algOf ctrl) = 0)
  | .ecb, .decrypt | .cbc, .decrypt => decide (n % blockSize (algOf ctrl) = 0)
  | .cfb, _ | .ofb, _ | .ctr, _ => true

/-- The input ranges of a plain RUN with their marks: ECB reads no IV (R210 step 3, R213). -/
def runInputs (m : Mode) (c : Csrs) : List (Range × Mark) :=
  match m with
  | .ecb => [(srcRange c c.srcLen.toNat, .inPlace)]
  | .cbc | .cfb | .ofb | .ctr => [(srcRange c c.srcLen.toNat, .inPlace), (ivRange c, .disjoint)]

/-- Steps 1 to 4 of R210 for a plain mode: CONFIG, NOKEY, BOUNDS, OVERLAP, ALIGN; answers the destination. -/
def preRun (m : Mode) (d : Dir) (s : State) : Except Stop Range := do
  let n := s.csr.srcLen.toNat
  check (cipherConfigOk s && padConfigOk s.csr.ctrl) .config
  check (keyOk s) .nokey
  let r ← checkRanges s (dstRange s.csr (runExtent d s.csr.ctrl n)) (runInputs m s.csr)
  check (alignOk m d s.csr.ctrl n) .align
  return r

/-- The seed of FB: the IV aligned to B bytes (R213); ECB keeps FB out of use. -/
def seedFB (m : Mode) (s : State) : Except Stop Bytes :=
  match m with
  | .ecb => .ok []
  | .cbc | .cfb | .ofb | .ctr => do
    let iv ← readRange s (ivRange s.csr)
    return alignVec iv (blockSize (algOf s.csr.ctrl)) 0

/-- FB after a RUN: its bytes in the low end of the 128-bit register (log 10); ECB does not use it. -/
def regsAfter (m : Mode) (s : State) (fb : Bytes) : RunRegs :=
  match m with
  | .ecb => s.regs
  | .cbc | .cfb | .ofb | .ctr => { s.regs with fb := blockOf fb }

/-- Step 5 of R210: the effect of a plain RUN on its data. A decrypt whose unpad fails still writes the whole
decrypted stream, and completes with PAD (R215, R216, R332). -/
def runEffect (m : Mode) (d : Dir) (s : State) (fb msg : Bytes) : Effect :=
  let p := padCfg s.csr.ctrl
  let padded := match d with
    | .encrypt => padBytes p msg
    | .decrypt => msg
  let o := modeBlocks (blockT s) (blockTinv s) m d fb (chunks (blockSize (algOf s.csr.ctrl)) padded)
  let written := { result s o.1 o.1.length with regs := some (regsAfter m s o.2) }
  match d with
  | .encrypt => written
  | .decrypt =>
    match unpadBytes p o.1 with
    | some r => { written with outLen := r.length }
    | none => { written with code := .pad }

/-- RUN in a plain mode (R210). -/
def execRun (m : Mode) (d : Dir) (s : State) : Host.Outcome State Fault Refusal :=
  finish s do
    let _ ← preRun m d s
    let fb ← seedFB m s
    let msg ← readRange s (srcRange s.csr s.csr.srcLen.toNat)
    return runEffect m d s fb msg

/-- RUN.ECB.E (R217). -/
def execRunEcbE (s : State) : Host.Outcome State Fault Refusal := execRun .ecb .encrypt s

/-- RUN.ECB.D (R218). -/
def execRunEcbD (s : State) : Host.Outcome State Fault Refusal := execRun .ecb .decrypt s

/-- RUN.CBC.E (R219). -/
def execRunCbcE (s : State) : Host.Outcome State Fault Refusal := execRun .cbc .encrypt s

/-- RUN.CBC.D (R220). -/
def execRunCbcD (s : State) : Host.Outcome State Fault Refusal := execRun .cbc .decrypt s

/-- RUN.CFB.E (R221). -/
def execRunCfbE (s : State) : Host.Outcome State Fault Refusal := execRun .cfb .encrypt s

/-- RUN.CFB.D (R222). -/
def execRunCfbD (s : State) : Host.Outcome State Fault Refusal := execRun .cfb .decrypt s

/-- RUN.OFB.E (R223). -/
def execRunOfbE (s : State) : Host.Outcome State Fault Refusal := execRun .ofb .encrypt s

/-- RUN.OFB.D (R224). -/
def execRunOfbD (s : State) : Host.Outcome State Fault Refusal := execRun .ofb .decrypt s

/-- RUN.CTR.E (R225). -/
def execRunCtrE (s : State) : Host.Outcome State Fault Refusal := execRun .ctr .encrypt s

/-- RUN.CTR.D (R226). -/
def execRunCtrD (s : State) : Host.Outcome State Fault Refusal := execRun .ctr .decrypt s

end Sys2Proof.Machine
end

