-- ==== Sys2Proof/Machine/Gcm.lean ====
section
/-! DEFINITION. The GCM unit of 43_gcm.md: GF(2^128) multiplication (R250, R251), GHASH (R252), the GCM
construction over a forward transform (R253 to R256), RUN.GCM.E and RUN.GCM.D (R257, R258), GFMUL and GHASH
(R259, R260). -/

namespace Sys2Proof.Machine

/-! ### Field arithmetic -/

/-- R of R251: 0xE1 in the top byte. -/
def gfR : Block128 := 0xE1000000000000000000000000000000

/-- V ← V >> 1, reduced by R when bit 127 was set (R251). -/
def gfHalve (v : Block128) : Block128 := if v.getMsbD 127 then (v >>> 1) ^^^ gfR else v >>> 1

/-- One turn of the loop of R251 at bit i of X, on (Z, V). -/
def gfStep (x : Block128) (zv : Block128 × Block128) (i : Nat) : Block128 × Block128 :=
  (if x.getMsbD i then zv.1 ^^^ zv.2 else zv.1, gfHalve zv.2)

/-- X ⊙ Y (R251). -/
def gfMul (x y : Block128) : Block128 := ((List.range 128).foldl (gfStep x) (0, y)).1

/-- GHASH_H over whole blocks: the left fold (R252). -/
def ghashBlocks (h : Block128) (xs : List Block128) : Block128 := xs.foldl (fun y x => gfMul (y ^^^ x) h) 0

/-- zpad of R252: zero bytes up to a block boundary. -/
def zpad (v : Bytes) : Bytes := v ++ List.replicate ((16 - v.length % 16) % 16) 0

/-- GHASH_H of a byte vector of whole blocks (R252). -/
def ghashBytes (h : Block128) (v : Bytes) : Block128 := ghashBlocks h ((chunks 16 v).map blockOf)

/-! ### The construction, over the forward transform t -/

/-- The hash subkey H = T(0^16) (R253). -/
def gcmH (t : Bytes → Bytes) : Block128 := blockOf (t (List.replicate 16 0))

/-- The pre-counter block J0 (R254). -/
def gcmJ0 (h : Block128) (iv : Bytes) : Bytes :=
  if iv.length = 12 then iv ++ [0, 0, 0, 1]
  else bytesOf (ghashBytes h (zpad iv ++ List.replicate 8 0 ++ beBytes 8 (8 * iv.length)))

/-- The counter pass over the blocks from a counter: the output and the next counter (R255). -/
def gctrBlocks (t : Bytes → Bytes) : Bytes → List Bytes → Bytes × Bytes
  | c, [] => ([], c)
  | c, m :: ms =>
    let rest := gctrBlocks t (inc32Vec byteKind c) ms
    (xorBytes m (t c) ++ rest.1, rest.2)

/-- GCTR(M), which starts from inc32(J0) (R255). -/
def gctr (t : Bytes → Bytes) (j0 m : Bytes) : Bytes × Bytes := gctrBlocks t (inc32Vec byteKind j0) (chunks 16 m)

/-- S of R256: GHASH over the padded AAD, the padded ciphertext and their bit lengths. -/
def gcmS (h : Block128) (aad c : Bytes) : Block128 :=
  ghashBytes h (zpad aad ++ zpad c ++ beBytes 8 (8 * aad.length) ++ beBytes 8 (8 * c.length))

/-- The tag S ⊕ T(J0), 16 bytes (R256). -/
def gcmTag (t : Bytes → Bytes) (j0 aad c : Bytes) : Bytes := bytesOf (gcmS (gcmH t) aad c ^^^ blockOf (t j0))

/-! ### RUN.GCM -/

/-- CONFIG of RUN.GCM: (a), (c), (e) and (f) of R323. -/
def gcmConfigOk (s : State) : Bool :=
  cipherConfigOk s && decide (algOf s.csr.ctrl = .ext128) && decide (schemeOf s.csr.ctrl = .none)

/-- Steps 1 to 3 of R210 for GCM with write extent w: CONFIG, BOUNDS, OVERLAP. -/
def preGcm (w : Nat) (s : State) : Except Stop Range := do
  check (gcmConfigOk s) .config
  checkRanges s (dstRange s.csr w)
    [(srcRange s.csr s.csr.srcLen.toNat, .inPlace), (ivRange s.csr, .disjoint), (aadRange s.csr, .disjoint)]

/-- The checks of RUN.GCM.E: W = n + 16 (R257). -/
def preGcmE (s : State) : Except Stop Range := preGcm (s.csr.srcLen.toNat + 16) s

/-- The checks of RUN.GCM.D: W = max(n − 16, 0) (R258). -/
def preGcmD (s : State) : Except Stop Range := preGcm (s.csr.srcLen.toNat - 16) s

/-- RUN.GCM.E (R257): ciphertext, then the tag. -/
def execRunGcmE (s : State) : Host.Outcome State Fault Refusal :=
  finish s do
    let d ← preGcmE s
    let p ← readRange s (srcRange s.csr s.csr.srcLen.toNat)
    let iv ← readRange s (ivRange s.csr)
    let aad ← readRange s (aadRange s.csr)
    let t := blockT s
    let h := gcmH t
    let j0 := gcmJ0 h iv
    let c := gctr t j0 p
    return { result s (c.1 ++ gcmTag t j0 aad c.1) d.len with
      regs := some { s.regs with h := h, j0 := blockOf j0, ctr := blockOf c.2, y := gcmS h aad c.1 } }

/-- RUN.GCM.D (R258, R261): the whole tag is compared before any plaintext is staged; a mismatch, or no tag at
all, is AUTH. An input too short for a tag is AUTH before anything is read (log 8). -/
def execRunGcmD (s : State) : Host.Outcome State Fault Refusal :=
  finish s do
    let d ← preGcmD s
    check (decide (16 ≤ s.csr.srcLen.toNat)) .auth
    let ct ← readRange s (srcRange s.csr s.csr.srcLen.toNat)
    let iv ← readRange s (ivRange s.csr)
    let aad ← readRange s (aadRange s.csr)
    let t := blockT s
    let h := gcmH t
    let j0 := gcmJ0 h iv
    let c := ct.take d.len
    let regs := { s.regs with h := h, j0 := blockOf j0, y := gcmS h aad c }
    if gcmTag t j0 aad c = ct.drop d.len then
      let p := gctr t j0 c
      return { result s p.1 d.len with regs := some { regs with ctr := blockOf p.2 } }
    else return { failure .auth with regs := some regs }

/-! ### GFMUL and GHASH -/

/-- LEN, BOUNDS, OVERLAP of GFMUL: both operands 16 bytes, in-place allowed (R259). -/
def preGfmul (s : State) : Except Stop Range := do
  check (decide (s.csr.srcLen.toNat = 16) && decide (s.csr.auxLen.toNat = 16)) .len
  checkRanges s (dstRange s.csr 16) [(srcRange s.csr 16, .inPlace), (auxRange s.csr 16, .inPlace)]

/-- GFMUL (R259). -/
def execGfmul (s : State) : Host.Outcome State Fault Refusal :=
  finish s do
    let _ ← preGfmul s
    let x ← readRange s (srcRange s.csr 16)
    let y ← readRange s (auxRange s.csr 16)
    return result s (bytesOf (gfMul (blockOf x) (blockOf y))) 16

/-- LEN, BOUNDS, OVERLAP of GHASH: H is 16 bytes, the data any length, both in-place allowed (R260). -/
def preGhash (s : State) : Except Stop Range := do
  check (decide (s.csr.auxLen.toNat = 16)) .len
  checkRanges s (dstRange s.csr 16)
    [(srcRange s.csr s.csr.srcLen.toNat, .inPlace), (auxRange s.csr 16, .inPlace)]

/-- GHASH (R260). -/
def execGhash (s : State) : Host.Outcome State Fault Refusal :=
  finish s do
    let _ ← preGhash s
    let x ← readRange s (srcRange s.csr s.csr.srcLen.toNat)
    let h ← readRange s (auxRange s.csr 16)
    return result s (bytesOf (ghashBytes (blockOf h) (zpad x))) 16

end Sys2Proof.Machine
end

