-- ==== Sys2Proof/Machine/Control.lean ====
section
/-! DEFINITION. The control commands of 45_control.md: NOP and ZEROIZE. -/

namespace Sys2Proof.Machine

/-- NOP (R310): completes with nothing done. -/
def execNop (s : State) : Host.Outcome State Fault Refusal := finish s (.ok success)

/-- ZEROIZE (R311): every subkey 0, KVALID 0, KALG 0. -/
def execZeroize (s : State) : Host.Outcome State Fault Refusal :=
  finish s (.ok { success with keys := some KeyStore.reset })

end Sys2Proof.Machine
end

