-- ==== Sys2Proof/Machine/Dispatch.lean ====
section
/-! DEFINITION. One arm per command: the meaning a completing command has (60_exceptions.md R335). -/

namespace Sys2Proof.Machine

/-- What completing a command does (R335): it is run at its completion, on the state its acceptance left. -/
def exec (i : Instr) (s : State) : Host.Outcome State Fault Refusal :=
  match i with
  | .nop => Sys2Proof.Machine.execNop s
  | .zeroize => Sys2Proof.Machine.execZeroize s
  | .loadKey => Sys2Proof.Machine.execLoadKey s
  | .blockF => Sys2Proof.Machine.execBlockF s
  | .blockI => Sys2Proof.Machine.execBlockI s
  | .runEcbE => Sys2Proof.Machine.execRunEcbE s
  | .runCbcE => Sys2Proof.Machine.execRunCbcE s
  | .runCfbE => Sys2Proof.Machine.execRunCfbE s
  | .runOfbE => Sys2Proof.Machine.execRunOfbE s
  | .runCtrE => Sys2Proof.Machine.execRunCtrE s
  | .runGcmE => Sys2Proof.Machine.execRunGcmE s
  | .runEcbD => Sys2Proof.Machine.execRunEcbD s
  | .runCbcD => Sys2Proof.Machine.execRunCbcD s
  | .runCfbD => Sys2Proof.Machine.execRunCfbD s
  | .runOfbD => Sys2Proof.Machine.execRunOfbD s
  | .runCtrD => Sys2Proof.Machine.execRunCtrD s
  | .runGcmD => Sys2Proof.Machine.execRunGcmD s
  | .xorB => Sys2Proof.Machine.execXorB s
  | .xorBit => Sys2Proof.Machine.execXorBit s
  | .permB => Sys2Proof.Machine.execPermB s
  | .permBit => Sys2Proof.Machine.execPermBit s
  | .substB => Sys2Proof.Machine.execSubstB s
  | .substBit => Sys2Proof.Machine.execSubstBit s
  | .alignB => Sys2Proof.Machine.execAlignB s
  | .alignBit => Sys2Proof.Machine.execAlignBit s
  | .incB => Sys2Proof.Machine.execIncB s
  | .incBit => Sys2Proof.Machine.execIncBit s
  | .inc32B => Sys2Proof.Machine.execInc32B s
  | .inc32Bit => Sys2Proof.Machine.execInc32Bit s
  | .gfmul => Sys2Proof.Machine.execGfmul s
  | .ghash => Sys2Proof.Machine.execGhash s
  | .pad => Sys2Proof.Machine.execPad s
  | .unpad => Sys2Proof.Machine.execUnpad s

end Sys2Proof.Machine
end

