-- ==== Sys2Proof/Machine/Bus.lean ====
section
/-! DEFINITION. The host's side of the block: the aperture and its windows (20_memory.md R60 to R63), the CSR
file (10_state.md R21 to R32), the busy rules (R70, 60_exceptions.md R336), and reset and power-on as the
outside drives them (70_reset_and_hazards.md R360 to R362). -/

namespace Sys2Proof.Machine

/-! ### The CSR file -/

/-- The 18 registers of R21. -/
inductive CsrName where
  | id
  | ctrl
  | cmd
  | status
  | keyPtr
  | keyLen
  | ivPtr
  | ivLen
  | aadPtr
  | aadLen
  | srcPtr
  | srcLen
  | auxPtr
  | auxLen
  | dstPtr
  | param
  | outLen
  | dmemSize
deriving DecidableEq, Repr

/-- A register's offset in the CSR window (R21). -/
def csrOffset (r : CsrName) : Nat :=
  match r with
  | .id => 0x00
  | .ctrl => 0x04
  | .cmd => 0x08
  | .status => 0x0C
  | .keyPtr => 0x10
  | .keyLen => 0x14
  | .ivPtr => 0x18
  | .ivLen => 0x1C
  | .aadPtr => 0x20
  | .aadLen => 0x24
  | .srcPtr => 0x28
  | .srcLen => 0x2C
  | .auxPtr => 0x30
  | .auxLen => 0x34
  | .dstPtr => 0x38
  | .param => 0x3C
  | .outLen => 0x40
  | .dmemSize => 0x44

/-- The register at an offset; none at a reserved one (R32). -/
def csrAt (off : Nat) : Option CsrName :=
  match off with
  | 0x00 => some .id
  | 0x04 => some .ctrl
  | 0x08 => some .cmd
  | 0x0C => some .status
  | 0x10 => some .keyPtr
  | 0x14 => some .keyLen
  | 0x18 => some .ivPtr
  | 0x1C => some .ivLen
  | 0x20 => some .aadPtr
  | 0x24 => some .aadLen
  | 0x28 => some .srcPtr
  | 0x2C => some .srcLen
  | 0x30 => some .auxPtr
  | 0x34 => some .auxLen
  | 0x38 => some .dstPtr
  | 0x3C => some .param
  | 0x40 => some .outLen
  | 0x44 => some .dmemSize
  | _ => none

/-- The identification word "UFC7" (R22). -/
def idValue : Word := 0x55464337

/-- The bits CTRL holds: 8:0; bits 31:9 of a written value are discarded (R23, R24). -/
def ctrlMask : Word := 0x1FF

/-- What a read of a register returns (R22 to R31); CMD reads 0 (R25). -/
def readCsr (s : State) (r : CsrName) : Word :=
  match r with
  | .id => idValue
  | .ctrl => s.csr.ctrl
  | .cmd => 0
  | .status => statusWord s.status s.keys
  | .keyPtr => s.csr.keyPtr
  | .keyLen => s.csr.keyLen
  | .ivPtr => s.csr.ivPtr
  | .ivLen => s.csr.ivLen
  | .aadPtr => s.csr.aadPtr
  | .aadLen => s.csr.aadLen
  | .srcPtr => s.csr.srcPtr
  | .srcLen => s.csr.srcLen
  | .auxPtr => s.csr.auxPtr
  | .auxLen => s.csr.auxLen
  | .dstPtr => s.csr.dstPtr
  | .param => s.csr.param
  | .outLen => s.outLen
  | .dmemSize => BitVec.ofNat 32 s.cfg.dmemSize

/-- A write that the engine ignores because it is busy: STATUS.OVR is set (R336). -/
def overrun (s : State) : State := { s with status := { s.status with ovr := true } }

/-- A write that takes effect only while BUSY = 0 (R24, R25, R28, R29, R336). -/
def unlessBusy (s : State) (s' : State) : State := if s.status.busy then overrun s else s'

/-- A host write of v to a register. STATUS is honoured while busy (R27); ID, OUT_LEN and DMEM_SIZE ignore
writes (R22, R30, R31); the others are ignored with OVR while busy. -/
def writeCsr (s : State) (r : CsrName) (v : Word) : State :=
  match r with
  | .id => s
  | .ctrl => unlessBusy s { s with csr := { s.csr with ctrl := v &&& ctrlMask } }
  | .cmd => unlessBusy s (accept v s)
  | .status => { s with status := statusWrite s.status v }
  | .keyPtr => unlessBusy s { s with csr := { s.csr with keyPtr := v } }
  | .keyLen => unlessBusy s { s with csr := { s.csr with keyLen := v } }
  | .ivPtr => unlessBusy s { s with csr := { s.csr with ivPtr := v } }
  | .ivLen => unlessBusy s { s with csr := { s.csr with ivLen := v } }
  | .aadPtr => unlessBusy s { s with csr := { s.csr with aadPtr := v } }
  | .aadLen => unlessBusy s { s with csr := { s.csr with aadLen := v } }
  | .srcPtr => unlessBusy s { s with csr := { s.csr with srcPtr := v } }
  | .srcLen => unlessBusy s { s with csr := { s.csr with srcLen := v } }
  | .auxPtr => unlessBusy s { s with csr := { s.csr with auxPtr := v } }
  | .auxLen => unlessBusy s { s with csr := { s.csr with auxLen := v } }
  | .dstPtr => unlessBusy s { s with csr := { s.csr with dstPtr := v } }
  | .param => unlessBusy s { s with csr := { s.csr with param := v } }
  | .outLen => s
  | .dmemSize => s

/-! ### The aperture -/

/-- The bytes an access covers; a size of 3 is treated as misaligned (R372). -/
def accessBytes (size : BitVec 2) : Option Nat :=
  match size.toNat with
  | 0 => some 1
  | 1 => some 2
  | 2 => some 4
  | _ => none

/-- What a well-formed access reaches. -/
inductive Target where
  /-- A register of the CSR window. -/
  | csr (r : CsrName)
  /-- `n` bytes of DMEM from address `a`. -/
  | dmem (a n : Nat)
  /-- Nothing: unmapped, reserved, misaligned, too narrow or past the window. Reads 0, writes are ignored, no
  OVR (R32, R61, R62, R63). -/
  | nothing
deriving DecidableEq, Repr

/-- Where DMEM starts in the aperture (R60). -/
def dmemBase : Nat := 0x10000

/-- The target of an access: aligned 32-bit accesses in the CSR window (R61), naturally aligned accesses that lie
inside the DMEM window (R62), nothing elsewhere (R60, R63). -/
def targetOf (size : Nat) (a : Access) : Target :=
  match accessBytes a.size with
  | none => .nothing
  | some n =>
    let off := a.addr.toNat
    if off % n ≠ 0 then .nothing
    else if off < 0x100 then
      if n = 4 then
        match csrAt off with
        | some r => .csr r
        | none => .nothing
      else .nothing
    else if dmemBase ≤ off ∧ off - dmemBase + n ≤ size then .dmem (off - dmemBase) n
    else .nothing

/-- Bytes on the bus: the byte at the lowest address in bits 7:0, lanes outside the access 0 (R62, R372). -/
def laneWord (v : Bytes) : Word := BitVec.ofNat 32 (beInt v.reverse)

/-- The bytes a write of n bytes stores, bits 7:0 at the lowest address (R62). -/
def laneBytes (n : Nat) (v : Word) : Bytes := leBytes n v.toNat

/-- What a host read returns: 0 under reset (R360); a register; DMEM's bytes, or 0 while busy (R70); else 0. A
read of an unwritten byte is a model fault (R80). -/
def readData (s : State) (a : Access) : Except Fault Word :=
  if s.rst then .ok 0
  else
    match targetOf s.cfg.dmemSize a with
    | .csr r => .ok (readCsr s r)
    | .dmem p n =>
      if s.status.busy then .ok 0
      else
        match readBytes s.dmem p n with
        | some v => .ok (laneWord v)
        | none => .error .unwrittenRead
    | .nothing => .ok 0

/-- A host write: ignored under reset (R360); a register; DMEM's bytes, or ignored with OVR while busy (R70,
R336); else ignored. -/
def writeData (s : State) (a : Access) : State :=
  if s.rst then s
  else
    match targetOf s.cfg.dmemSize a with
    | .csr r => writeCsr s r a.wdata
    | .dmem p n => unlessBusy s { s with dmem := writeBytes s.dmem p (laneBytes n a.wdata) }
    | .nothing => s

/-- One host access. No read changes anything but h_rdata (R72). -/
def hostAccess (a : Access) (s : State) : Host.Outcome State Fault Refusal :=
  if a.we then .next (writeData s a)
  else
    match readData s a with
    | .ok v => .next { s with rdata := v }
    | .error f => .fault f

/-- The read of STATUS that WAIT repeats (30_encoding.md R101, R102). -/
def statusRead : Access := { we := false, addr := BitVec.ofNat 17 (csrOffset .status), size := 2, wdata := 0 }

/-- One turn of WAIT's loop (30_encoding.md R102): read STATUS; while bit 0 of the value is 1 the loop goes on, so WAIT
stays the oldest input. -/
def waitTurn (s : State) : Host.Outcome State Fault Refusal :=
  match hostAccess statusRead s with
  | .next t => .next (if t.rdata.getLsbD 0 then { t with inputs := .wait :: t.inputs } else t)
  | .fault f => .fault f
  | .refused r => .refused r

/-! ### Reset and power-on -/

/-- The destination range of a command whose checks passed; an error code where they did not (R361). NOP,
ZEROIZE and LOAD_KEY have none. -/
def destination (i : Instr) (s : State) : Except Stop Range :=
  match i with
  | .nop | .zeroize | .loadKey => .ok ⟨0, 0⟩
  | .blockF | .blockI => preBlock s
  | .runEcbE => preRun .ecb .encrypt s
  | .runCbcE => preRun .cbc .encrypt s
  | .runCfbE => preRun .cfb .encrypt s
  | .runOfbE => preRun .ofb .encrypt s
  | .runCtrE => preRun .ctr .encrypt s
  | .runGcmE => preGcmE s
  | .runEcbD => preRun .ecb .decrypt s
  | .runCbcD => preRun .cbc .decrypt s
  | .runCfbD => preRun .cfb .decrypt s
  | .runOfbD => preRun .ofb .decrypt s
  | .runCtrD => preRun .ctr .decrypt s
  | .runGcmD => preGcmD s
  | .xorB => preXor byteKind s
  | .xorBit => preXor bitKind s
  | .permB => prePerm byteKind s
  | .permBit => prePerm bitKind s
  | .substB => preSubstB s
  | .substBit => preSubstBit s
  | .alignB => preAlign byteKind s
  | .alignBit => preAlign bitKind s
  | .incB | .inc32B => preInc byteKind s
  | .incBit | .inc32Bit => preInc bitKind s
  | .gfmul => preGfmul s
  | .ghash => preGhash s
  | .pad => prePad s
  | .unpad => do
    let (d, _) ← preUnpad s
    return d

/-- DMEM after reset is asserted: unchanged, but for the destination range of a command the reset abandons
(R361); an illegal word and a command that failed a check have none (log 13). -/
def memoryAfterReset (s : State) : Except Fault Memory :=
  if s.status.busy then
    match fetch s with
    | none => .ok s.dmem
    | some i =>
      match destination i s with
      | .ok r => .ok (abandonRange s r)
      | .error (.code _) => .ok s.dmem
      | .error (.fault f) => .error f
  else .ok s.dmem

/-- The reset line is driven to a level: asserting it resets the block (R360, R361); releasing it leaves the
state the reset made. -/
def driveReset (level : Bool) (s : State) : Host.Outcome State Fault Refusal :=
  if level then
    match memoryAfterReset s with
    | .ok m => .next (resetTo true m s)
    | .error f => .fault f
  else .next { s with rst := false }

/-- Power-on: reset is asserted and every DMEM byte is unwritten (R362, R80). -/
def applyPower (s : State) : State := resetTo true [] s

/-- One input from the outside. -/
def handle (e : Event) (s : State) : Host.Outcome State Fault Refusal :=
  match e with
  | .access a => hostAccess a s
  | .cycle => .next s
  | .wait => waitTurn s
  | .rst level => driveReset level s
  | .powerOn => .next (applyPower s)

/-! ### One event of R340 -/

/-- The accepted command completes; an illegal word with ILLEGAL and no other effect (R96,
R322, R335). -/
def completeLatched (s : State) : Host.Outcome State Fault Refusal :=
  match fetch s with
  | some i => exec i s
  | none => .next (complete (failure .illegal) s)

/-- A clock cycle: the oldest input happens, or nothing does (log 5). Of a command's last cycle the completion may have
gone before (`ready`): its input then sees the completed state, otherwise BUSY = 1 (R340). -/
def clockCycle (s : State) : Host.Outcome State Fault Refusal :=
  match s.inputs with
  | [] => .next (tick s)
  | e :: rest => handle e (tick { s with inputs := rest })

end Sys2Proof.Machine
end

