-- ==== Sys2Proof/Machine/Step.lean ====
section
/-! DEFINITION. One step: one event of 60_exceptions.md R340, and how a command word is placed where the next
step runs it. -/

namespace Sys2Proof.Machine

/-- One step: the completion of a command that is due (R335), or else a clock cycle with what the outside does in
it (logs 3 and 5). -/
def step (s : State) : Host.Outcome State Fault Refusal := if ready s then completeLatched s else clockCycle s

/-- The state in which this command word has been accepted (R334) and its latency has elapsed, so that the next
step completes it. It stands for the host's write of the word to CMD and the cycles after it (log 6). -/
def State.withFetchWord (s : State) (nbits w : Nat) : State :=
  { latchCommand (tableWord nbits w) s with cyclesLeft := 0, rst := false }

end Sys2Proof.Machine
end

