-- ==== Sys2Proof/Machine/HostAsm.lean ====
section
/-! DEFINITION. The host assembly of 30_encoding.md R101 to R103: each form's bus operation, and the
pseudo-instructions' expansions. It is how a host program becomes inputs of the machine. -/

namespace Sys2Proof.Machine

/-- The forms of R101. -/
inductive HostOp where
  | wr (r : CsrName) (imm : Word)
  | rd (r : CsrName)
  | wr8 (a : Nat) (imm : Byte)
  | rd8 (a : Nat)
  | wr32 (a : Nat) (imm : Word)
  | rd32 (a : Nat)
deriving DecidableEq, Repr

/-- The bus operation of a form (R101, R103). DESIGN CHOICE, unsafe: a DMEM offset that does not fit h_addr's 17 bits is
taken modulo 2^17, and a word form off a multiple of 4 is the misaligned access (log 20). -/
def busOp (o : HostOp) : Access :=
  match o with
  | .wr r imm => { we := true, addr := BitVec.ofNat 17 (csrOffset r), size := 2, wdata := imm }
  | .rd r => { we := false, addr := BitVec.ofNat 17 (csrOffset r), size := 2, wdata := 0 }
  | .wr8 a imm => { we := true, addr := BitVec.ofNat 17 (dmemBase + a), size := 0, wdata := imm.setWidth 32 }
  | .rd8 a => { we := false, addr := BitVec.ofNat 17 (dmemBase + a), size := 0, wdata := 0 }
  | .wr32 a imm => { we := true, addr := BitVec.ofNat 17 (dmemBase + a), size := 2, wdata := imm }
  | .rd32 a => { we := false, addr := BitVec.ofNat 17 (dmemBase + a), size := 2, wdata := 0 }

/-- The pseudo-instructions of R102. `words` in WRM is the assembler's choice to emit WR32 for aligned groups of four
(log 19). -/
inductive HostPseudo where
  | op (o : HostOp)
  | cmd (i : Instr)
  | wait
  | clrDone
  | wrm (a : Nat) (v : Bytes) (words : Bool)
  | rdm (a n : Nat)
  | setr (ptr len : CsrName) (p n : Word)
deriving DecidableEq, Repr

/-- WRM byte by byte: one WR8 per byte, in increasing order (R102). -/
def wrmBytes (a : Nat) (v : Bytes) : List HostOp := v.zipIdx.map fun x => .wr8 (a + x.2) x.1

/-- WRM by words from an aligned address: one WR32 per group of four, byte i in lane i mod 4, and one WR8 per byte left
over (R102, log 19). -/
def wrmWords : Nat → Bytes → List HostOp
  | a, b0 :: b1 :: b2 :: b3 :: rest => .wr32 a (laneWord [b0, b1, b2, b3]) :: wrmWords (a + 4) rest
  | a, v => wrmBytes a v

/-- A piece of a program's encoding: one bus operation, or WAIT's loop, whose trip count LATENCY decides (R103). -/
inductive HostStep where
  | op (o : HostOp)
  | waitLoop
deriving DecidableEq, Repr

/-- The expansion of R102. -/
def expandPseudo (p : HostPseudo) : List HostStep :=
  match p with
  | .op o => [.op o]
  | .cmd i => [.op (.wr .cmd (encode i))]
  | .wait => [.waitLoop]
  | .clrDone => [.op (.wr .status 0x00000002)]
  | .wrm a v words => (if words && decide (a % 4 = 0) then wrmWords a v else wrmBytes a v).map .op
  | .rdm a n => (List.range n).map fun i => .op (.rd8 (a + i))
  | .setr ptr len x n => [.op (.wr ptr x), .op (.wr len n)]

/-- A piece as an input of the machine. -/
def hostEvent (p : HostStep) : Event :=
  match p with
  | .op o => .access (busOp o)
  | .waitLoop => .wait

/-- A host program's encoding: its sequence of bus operations, WAIT a loop (R103), as the machine's inputs. -/
def hostProgram (ps : List HostPseudo) : List Event := (ps.flatMap expandPseudo).map hostEvent

end Sys2Proof.Machine
end

