-- ==== Sys2Proof/Safety.lean ====
section
/-! DEFINITION. What counts as a safe run, the invariant of the machine, and the words the statements use: a
command's completion, the ranges it may use, and what it leaves of DMEM. -/

namespace Sys2Proof.Machine

/-- `k` steps from here pass no model fault and no refusal. -/
def SafeFor (k : Nat) (s : State) : Prop := ∃ t, Host.Core.run Sys2Proof.core k s = .next t

/-! ### The invariant -/

/-- What every step keeps. -/
structure Inv (s : State) : Prop where
  /-- 64 ≤ DMEM_SIZE ≤ 65536 (R6). -/
  paramsLegal : s.cfg.legal = true
  /-- DMEM is in canonical form. -/
  memWf : Memory.wf s.dmem
  /-- Every written byte lies inside DMEM (R37). -/
  memInside : Memory.inside s.dmem s.cfg.dmemSize
  /-- CTRL[31:9] read as zero (R23). -/
  ctrlReserved : s.csr.ctrl &&& ~~~ctrlMask = 0
  /-- STATUS.ERR = (ERRCODE ≠ 0) (R321). -/
  errIsCode : s.status.err = decide (s.status.errcode ≠ .ok)
  /-- STATUS.AUTH_FAIL = (ERRCODE = 9) (R321). -/
  authIsCode : s.status.authFail = decide (s.status.errcode = .auth)
  /-- OUT_LEN is 0 after an error (R30, R332). -/
  errorEmpty : s.status.errcode ≠ .ok → s.outLen = 0
  /-- While BUSY = 1: DONE, ERRCODE and OUT_LEN are 0 (R334). -/
  busyClear : s.status.busy = true → s.status.done = false ∧ s.status.errcode = .ok ∧ s.outLen = 0
  /-- No cycles are counted while no command runs (R335). -/
  idleNoCycles : s.status.busy = false → s.cyclesLeft = 0
  /-- With no schedule loaded the store is zero (R40, R311). -/
  noKey : s.keys.kvalid = false → s.keys = KeyStore.reset
  /-- A loaded schedule is DES's or TDES's (R26, R182). -/
  keyAlg : s.keys.kvalid = true → s.keys.kalg = 0 ∨ s.keys.kalg = 1
  /-- Under a DES schedule SK2 and SK3 are zero (R182). -/
  desKeys : s.keys.kvalid = true → s.keys.kalg = 0 →
    s.keys.sk2 = Vector.replicate 16 0 ∧ s.keys.sk3 = Vector.replicate 16 0
  /-- While rst is asserted the registers hold their reset values (R360). -/
  resetHeld : s.rst = true → s.csr = Csrs.reset ∧ s.outLen = 0 ∧ s.status = Status.reset ∧
    s.keys = KeyStore.reset ∧ s.regs = RunRegs.reset

/-! ### Words of the statements -/

/-- What no command changes: the parameters, the operand CSRs (R28), the latch, and the ports. -/
structure Kept (s t : State) : Prop where
  cfg : t.cfg = s.cfg
  csr : t.csr = s.csr
  latch : t.latch = s.latch
  rst : t.rst = s.rst
  rdata : t.rdata = s.rdata
  inputs : t.inputs = s.inputs
  fresh : t.fresh = s.fresh

/-- `t` is `s` after a completion with this code and result length (R30, R335): BUSY 0, DONE 1, ERRCODE the
code, ERR and AUTH_FAIL from it, OVR kept. -/
structure Completes (s t : State) (c : Code) (n : Nat) : Prop where
  status : t.status =
    { busy := false, done := true, err := decide (c ≠ .ok), authFail := decide (c = .auth),
      ovr := s.status.ovr, errcode := c }
  outLen : t.outLen = BitVec.ofNat 32 n
  cycles : t.cyclesLeft = 0
  kept : Kept s t

/-- Every byte of DMEM outside the `n` bytes at `p` reads as before. -/
def OnlyWrote (s t : State) (p n : Nat) : Prop :=
  ∀ a, ¬(p ≤ a ∧ a < p + n) → readByte t.dmem a = readByte s.dmem a

/-- Every byte of the range has a value. -/
def Written (s : State) (r : Range) : Prop := ∀ i < r.len, (readByte s.dmem (r.ptr + i)).isSome = true

/-- Some byte of the range is unwritten. -/
def HoldsUnwritten (s : State) (r : Range) : Prop := ∃ i < r.len, readByte s.dmem (r.ptr + i) = none

/-- Two ranges meet, in R69's words. -/
abbrev Meets (a b : Range) : Prop :=
  0 < a.len ∧ 0 < b.len ∧ a.ptr < b.ptr + b.len ∧ b.ptr < a.ptr + a.len

/-- A range lies in DMEM, in R67's words. -/
abbrev FitsIn (size : Nat) (r : Range) : Prop := r.len = 0 ∨ r.ptr + r.len ≤ size

/-- All ranges of a command are in bounds (R67). -/
abbrev AllFit (s : State) (d : Range) (ins : List (Range × Mark)) : Prop :=
  FitsIn s.cfg.dmemSize d ∧ ∀ i ∈ ins, FitsIn s.cfg.dmemSize i.1

/-- The destination meets no input, or only in place where that is allowed (R69). -/
abbrev MayWrite (d : Range) (ins : List (Range × Mark)) : Prop :=
  ∀ i ∈ ins, Meets d i.1 → i.2 = .inPlace ∧ d.ptr = i.1.ptr

/-- The command's ranges pass BOUNDS and OVERLAP. -/
abbrev RangesOk (s : State) (d : Range) (ins : List (Range × Mark)) : Prop := AllFit s d ins ∧ MayWrite d ins

/-- Element `i` of the bit vector these bytes hold: bit 7 − i mod 8 of byte i div 8 (R66). -/
def vecBit (v : Bytes) (i : Nat) : Bool := (v.getD (i / 8) 0).getMsbD (i % 8)

/-- The first `n` bits of these bytes as a big-endian integer (R8). -/
def vecInt (v : Bytes) (n : Nat) : Nat := beIntBits ((List.range n).map (vecBit v))

/-- Entry `i` of an index list: 16 bits, big-endian (R127). -/
def entry16 (ix : Bytes) (i : Nat) : Nat := 256 * (ix.getD (2 * i) 0).toNat + (ix.getD (2 * i + 1) 0).toNat

/-- Block `i` of a byte string cut into B-byte blocks (R214). -/
def nthBlock (b : Nat) (v : Bytes) (i : Nat) : Bytes := (v.drop (i * b)).take b

/-! ### The rules' conditions, written from the tables of 60_exceptions.md

The meanings do not use these: the statements compare the two. -/

/-- RUN in a plain mode: its mode and direction (R93, R94). -/
def plainRun (i : Instr) : Option (Mode × Dir) :=
  match i with
  | .runEcbE => some (.ecb, .encrypt)
  | .runCbcE => some (.cbc, .encrypt)
  | .runCfbE => some (.cfb, .encrypt)
  | .runOfbE => some (.ofb, .encrypt)
  | .runCtrE => some (.ctr, .encrypt)
  | .runEcbD => some (.ecb, .decrypt)
  | .runCbcD => some (.cbc, .decrypt)
  | .runCfbD => some (.cfb, .decrypt)
  | .runOfbD => some (.ofb, .decrypt)
  | .runCtrD => some (.ctr, .decrypt)
  | _ => none

/-- RUN.GCM. -/
def isGcm (i : Instr) : Bool := decide (i = .runGcmE ∨ i = .runGcmD)

/-- BLOCK. -/
def isBlock (i : Instr) : Bool := decide (i = .blockF ∨ i = .blockI)

/-- RUN in any mode but ECB: the commands that use FB, H, J0, the counter or Y (R34, R35). -/
def usesRunRegs (i : Instr) : Bool :=
  isGcm i ||
    match plainRun i with
    | some (m, _) => decide (m ≠ .ecb)
    | none => false

/-- CONFIG's causes (a) to (f) of R323. -/
def configBad (i : Instr) (s : State) : Bool :=
  let a := algOf s.csr.ctrl
  let runOrBlock := isBlock i || isGcm i || (plainRun i).isSome
  let pads := decide (i = .pad ∨ i = .unpad)
  (decide (a = .reserved) && (decide (i = .loadKey) || runOrBlock || pads)) ||
    (decide (a = .ext128) && decide (i = .loadKey)) ||
    (decide (a = .ext128) && !s.cfg.extPresent && runOrBlock) ||
    (decide (schemeOf s.csr.ctrl = .bit) && decide (5 ≤ blwOf s.csr.ctrl) && ((plainRun i).isSome || pads)) ||
    (isGcm i && decide (a ≠ .ext128)) || (isGcm i && decide (schemeOf s.csr.ctrl ≠ .none))

/-- NOKEY's cause (R324). -/
def keyBad (i : Instr) (s : State) : Bool :=
  (isBlock i || isGcm i || (plainRun i).isSome) &&
    decide (algOf s.csr.ctrl = .des ∨ algOf s.csr.ctrl = .tdes) &&
    (!s.keys.kvalid || decide (s.keys.kalg ≠ algCode s.csr.ctrl))

/-- LEN's static causes (a) to (d), (f) and (g) of R328. -/
def lenBad (i : Instr) (s : State) : Bool :=
  let n := s.csr.srcLen.toNat
  let m := s.csr.auxLen.toNat
  let w := rowWidth s.csr.param
  match i with
  | .blockF | .blockI => decide (n ≠ blockSize (algOf s.csr.ctrl))
  | .xorB | .xorBit => decide (0 < n ∧ m = 0)
  | .substB => decide (w = 0 ∨ 8 < w ∨ 2 < n)
  | .substBit => decide (w = 0 ∨ 8 < w ∨ 16 < n)
  | .gfmul => decide (n ≠ 16 ∨ m ≠ 16)
  | .ghash => decide (m ≠ 16)
  | _ => false

/-- Bytes that `n` bits occupy: ceil(n / 8) (R66). -/
def bitBytes (n : Nat) : Nat := (n + 7) / 8

/-- The destination range a command's rule lists. UNPAD's is as long as the unpadded message, and empty where
there is none. -/
def destOf (i : Instr) (s : State) : Range :=
  let n := s.csr.srcLen.toNat
  let m := s.csr.auxLen.toNat
  let d := s.csr.dstPtr.toNat
  match i with
  | .nop | .zeroize | .loadKey => ⟨0, 0⟩
  | .blockF | .blockI => ⟨d, blockSize (algOf s.csr.ctrl)⟩
  | .runEcbE | .runCbcE | .runCfbE | .runOfbE | .runCtrE | .pad => ⟨d, paddedLen (padCfg s.csr.ctrl) n⟩
  | .runEcbD | .runCbcD | .runCfbD | .runOfbD | .runCtrD => ⟨d, n⟩
  | .runGcmE => ⟨d, n + 16⟩
  | .runGcmD => ⟨d, n - 16⟩
  | .xorB | .incB | .inc32B => ⟨d, n⟩
  | .xorBit | .incBit | .inc32Bit => ⟨d, bitBytes n⟩
  | .permB => ⟨d, m⟩
  | .permBit => ⟨d, bitBytes m⟩
  | .substB => ⟨d, rowWidth s.csr.param⟩
  | .substBit => ⟨d, 1⟩
  | .alignB => ⟨d, alignLen s.csr.param⟩
  | .alignBit => ⟨d, bitBytes (alignLen s.csr.param)⟩
  | .gfmul | .ghash => ⟨d, 16⟩
  | .unpad =>
    match (readBytes s.dmem s.csr.srcPtr.toNat n).bind (unpadBytes (padCfg s.csr.ctrl)) with
    | some u => ⟨d, u.length⟩
    | none => ⟨d, 0⟩

/-- The input ranges a command's rule lists, each with its mark of R69. -/
def inputsOf (i : Instr) (s : State) : List (Range × Mark) :=
  let n := s.csr.srcLen.toNat
  let m := s.csr.auxLen.toNat
  let src : Nat → Range := fun k => ⟨s.csr.srcPtr.toNat, k⟩
  let aux : Nat → Range := fun k => ⟨s.csr.auxPtr.toNat, k⟩
  let iv : Range := ⟨s.csr.ivPtr.toNat, s.csr.ivLen.toNat⟩
  match i with
  | .nop | .zeroize => []
  | .loadKey => [(⟨s.csr.keyPtr.toNat, s.csr.keyLen.toNat⟩, .disjoint)]
  | .blockF | .blockI => [(src (blockSize (algOf s.csr.ctrl)), .inPlace)]
  | .runEcbE | .runEcbD | .pad | .unpad | .incB | .inc32B => [(src n, .inPlace)]
  | .runCbcE | .runCfbE | .runOfbE | .runCtrE | .runCbcD | .runCfbD | .runOfbD | .runCtrD =>
    [(src n, .inPlace), (iv, .disjoint)]
  | .runGcmE | .runGcmD =>
    [(src n, .inPlace), (iv, .disjoint), (⟨s.csr.aadPtr.toNat, s.csr.aadLen.toNat⟩, .disjoint)]
  | .xorB => [(src n, .inPlace), (aux m, .disjoint)]
  | .xorBit => [(src (bitBytes n), .inPlace), (aux (bitBytes m), .disjoint)]
  | .permB => [(src n, .disjoint), (aux (2 * m), .disjoint)]
  | .permBit => [(src (bitBytes n), .disjoint), (aux (2 * m), .disjoint)]
  | .substB => [(src n, .disjoint), (aux (m * rowWidth s.csr.param), .disjoint)]
  | .substBit => [(src (bitBytes n), .disjoint), (aux m, .disjoint)]
  | .alignB => [(src n, .disjoint)]
  | .alignBit => [(src (bitBytes n), .disjoint)]
  | .incBit | .inc32Bit => [(src (bitBytes n), .inPlace)]
  | .gfmul => [(src 16, .inPlace), (aux 16, .inPlace)]
  | .ghash => [(src n, .inPlace), (aux 16, .inPlace)]

/-- BOUNDS finds nothing (R67, R325). -/
abbrev Fits (i : Instr) (s : State) : Prop := AllFit s (destOf i s) (inputsOf i s)

/-- OVERLAP finds nothing (R69, R326). -/
abbrev NoOverlap (i : Instr) (s : State) : Prop := MayWrite (destOf i s) (inputsOf i s)

/-- ALIGN's causes (R327). -/
def alignBad (i : Instr) (s : State) : Bool :=
  match plainRun i with
  | some (m, d) =>
    decide (m = .ecb ∨ m = .cbc) && decide (s.csr.srcLen.toNat % blockSize (algOf s.csr.ctrl) ≠ 0) &&
      decide (d = .decrypt ∨ schemeOf s.csr.ctrl = .none)
  | none => false

/-- Every check that needs no data passes: steps 2 to 7 of R331. -/
abbrev Passes (i : Instr) (s : State) : Prop :=
  configBad i s = false ∧ keyBad i s = false ∧ lenBad i s = false ∧ Fits i s ∧ NoOverlap i s ∧ alignBad i s = false

/-- The data checks, step 8 of R331: command `i` from `s`, whose completion is `t`, raises `c`. LEN: the index is past the
SUBST table (R328 (e)). PAD: UNPAD's message, or the stream a plain RUN decrypt wrote, does not unpad (R329). AUTH:
there is no tag, or it is not the recomputed one (R330). -/
def DataFails (i : Instr) (s t : State) (c : Code) : Prop :=
  let n := s.csr.srcLen.toNat
  let src := s.csr.srcPtr.toNat
  match i with
  | .substB => c = .len ∧ ∃ v, readBytes s.dmem src n = some v ∧ s.csr.auxLen.toNat ≤ beInt v
  | .substBit => c = .len ∧ ∃ v, readBytes s.dmem src (bitBytes n) = some v ∧ s.csr.auxLen.toNat ≤ vecInt v n
  | .unpad => c = .pad ∧ ∃ m, readBytes s.dmem src n = some m ∧ unpadBytes (padCfg s.csr.ctrl) m = none
  | .runEcbD | .runCbcD | .runCfbD | .runOfbD | .runCtrD =>
    c = .pad ∧ ∃ out, readBytes t.dmem s.csr.dstPtr.toNat n = some out ∧ unpadBytes (padCfg s.csr.ctrl) out = none
  | .runGcmD =>
    c = .auth ∧ (n < 16 ∨ ∃ ct tag iv aad : Bytes, tag.length = 16 ∧ readBytes s.dmem src n = some (ct ++ tag) ∧
      readBytes s.dmem s.csr.ivPtr.toNat s.csr.ivLen.toNat = some iv ∧
      readBytes s.dmem s.csr.aadPtr.toNat s.csr.aadLen.toNat = some aad ∧
      tag ≠ gcmTag (blockT s) (gcmJ0 (gcmH (blockT s)) iv) aad ct)
  | _ => False

/-- The command ends with this code: OUT_LEN 0, the key store and DMEM unchanged (R332, R333). -/
def FailsWith (i : Instr) (s : State) (c : Code) : Prop :=
  ∃ t, exec i s = .next t ∧ Completes s t c 0 ∧ t.keys = s.keys ∧ t.dmem = s.dmem

/-- The command completes with code `c` and OUT_LEN `n`, having written `out` at DST_PTR and nothing else. -/
def StoresWith (i : Instr) (s : State) (out : Bytes) (c : Code) (n : Nat) : Prop :=
  ∃ t, exec i s = .next t ∧ Completes s t c n ∧ t.keys = s.keys ∧
    OnlyWrote s t s.csr.dstPtr.toNat out.length ∧ readBytes t.dmem s.csr.dstPtr.toNat out.length = some out

/-- The command succeeds with this result. -/
abbrev Stores (i : Instr) (s : State) (out : Bytes) (n : Nat) : Prop := StoresWith i s out .ok n

/-- The first failing check of R331's steps 2 to 7 decides the code. -/
structure ChecksRuled (i : Instr) (s : State) : Prop where
  config : configBad i s = true → FailsWith i s .config
  key : configBad i s = false → keyBad i s = true → FailsWith i s .nokey
  len : configBad i s = false → keyBad i s = false → lenBad i s = true → FailsWith i s .len
  bounds : configBad i s = false → keyBad i s = false → lenBad i s = false → ¬Fits i s → FailsWith i s .bounds
  overlap : configBad i s = false → keyBad i s = false → lenBad i s = false → Fits i s → ¬NoOverlap i s →
    FailsWith i s .overlap
  align : configBad i s = false → keyBad i s = false → lenBad i s = false → Fits i s → NoOverlap i s →
    alignBad i s = true → FailsWith i s .align

/-- Why command `i` from `s` may end in `t` with a code: the code's cause holds, and no cause of an earlier check of
R331 does; with OK, no cause at all. The last column of R321's table says which commands may raise what. -/
def CauseHolds (i : Instr) (s t : State) (c : Code) : Prop :=
  match c with
  | .ok => Passes i s ∧ ∀ d, ¬DataFails i s t d
  | .illegal => False
  | .config => configBad i s = true
  | .nokey => configBad i s = false ∧ keyBad i s = true
  | .bounds => configBad i s = false ∧ keyBad i s = false ∧ lenBad i s = false ∧ ¬Fits i s
  | .overlap => configBad i s = false ∧ keyBad i s = false ∧ lenBad i s = false ∧ Fits i s ∧ ¬NoOverlap i s
  | .align => configBad i s = false ∧ keyBad i s = false ∧ lenBad i s = false ∧ Fits i s ∧ NoOverlap i s ∧
      alignBad i s = true
  | .len => (configBad i s = false ∧ keyBad i s = false ∧ lenBad i s = true) ∨ (Passes i s ∧ DataFails i s t .len)
  | .pad => Passes i s ∧ DataFails i s t .pad
  | .auth => Passes i s ∧ DataFails i s t .auth

end Sys2Proof.Machine
end

