-- ==== Sys2Proof/Certificates/Slice0/Obligations.lean ====
section
/-! DEFINITION. The statements for the provers. Each docstring names the rule of spec/ it formalises; the words they
use (Passes, FailsWith, StoresWith, …) are in Safety.lean. -/

open Sys2Proof Sys2Proof.Machine

/-! ### Encoding and the step -/

/-- One word of each class of R91, written out from R97's table, decodes to its command; three words that R96 calls
illegal do not decode. -/
def Obligations.KnownWordsDecode : Prop :=
  decode 0x00000002 = some .loadKey ∧ decode 0x00000803 = some .blockI ∧ decode 0x00000A04 = some .runCfbD ∧
    decode 0x00000115 = some .inc32Bit ∧ decode 0x00000019 = some .ghash ∧ decode 0x00000604 = none ∧
    decode 0x00000200 = none ∧ decode 0x00001000 = none

/-- R97, R98: the 33 words, each exact; every other 32-bit word decodes to nothing; and decode gives back each
command from the word the encoder writes. -/
def Obligations.DecodeExactlyTheTable : Prop :=
  (∀ i : Instr, decode (encode i) = some i) ∧
  ∀ (w : Word) (i : Instr), decode w = some i ↔
    (w, i) ∈ [((0x00000000 : Word), Instr.nop), (0x00000001, .zeroize), (0x00000002, .loadKey),
      (0x00000003, .blockF), (0x00000803, .blockI), (0x00000004, .runEcbE), (0x00000104, .runCbcE)] ++
    [((0x00000204 : Word), Instr.runCfbE), (0x00000304, .runOfbE), (0x00000404, .runCtrE), (0x00000504, .runGcmE),
      (0x00000804, .runEcbD), (0x00000904, .runCbcD), (0x00000A04, .runCfbD), (0x00000B04, .runOfbD)] ++
    [((0x00000C04 : Word), Instr.runCtrD), (0x00000D04, .runGcmD), (0x00000010, .xorB), (0x00000110, .xorBit),
      (0x00000011, .permB), (0x00000111, .permBit), (0x00000012, .substB), (0x00000112, .substBit)] ++
    [((0x00000013 : Word), Instr.alignB), (0x00000113, .alignBit), (0x00000014, .incB), (0x00000114, .incBit),
      (0x00000015, .inc32B), (0x00000115, .inc32Bit), (0x00000018, .gfmul), (0x00000019, .ghash),
      (0x00000020, .pad), (0x00000021, .unpad)]

/-- R96 with the tables of R91 and R92, and R322: exactly the words with a nonzero high part, an unassigned OP, or an
FN that OP's class does not allow are illegal; the completion of such a word ends with ILLEGAL and changes nothing
but STATUS and OUT_LEN. -/
def Obligations.IllegalWords : Prop :=
  ∀ w : Word,
    let op := (w.extractLsb' 0 8).toNat
    let fn := (w.extractLsb' 8 4).toNat
    let illegal :=
      w.extractLsb' 12 20 ≠ 0 ∨
        (op ∉ [0x00, 0x01, 0x02, 0x03, 0x04] ∧ op ∉ [0x10, 0x11, 0x12, 0x13, 0x14, 0x15] ∧
          op ∉ [0x18, 0x19, 0x20, 0x21]) ∨
        (op = 0x04 ∧ ¬(fn ≤ 0x5 ∨ 0x8 ≤ fn ∧ fn ≤ 0xD)) ∨ (op = 0x03 ∧ fn ≠ 0x0 ∧ fn ≠ 0x8) ∨
        (op ∈ [0x10, 0x11, 0x12, 0x13, 0x14, 0x15] ∧ 1 < fn) ∨
        (op ∈ [0x00, 0x01, 0x02, 0x18, 0x19, 0x20, 0x21] ∧ fn ≠ 0x0)
    (decode w = none ↔ illegal) ∧
      (illegal → ∀ s : State, ready s = true → s.latch = w →
        ∃ t, step s = .next t ∧ Completes s t .illegal 0 ∧ t.keys = s.keys ∧ t.dmem = s.dmem ∧ t.regs = s.regs)

/-- A step runs the decoded command: when the accepted command is due (BUSY = 1, no reset, and no cycle left, or one
whose completion goes before the outside's event: log 5) and the latch decodes to i, the step is exec of i on this
very state. A command's word placed by withFetchWord is run so. -/
def Obligations.StepRunsTheLatchedCommand : Prop :=
  (∀ (s : State) (i : Instr), ready s = true → decode s.latch = some i → step s = exec i s) ∧
    (∀ s : State, (s.status.busy = true → s.rst = false → s.cyclesLeft = 0 → ready s = true) ∧
      (ready s = true → s.status.busy = true ∧ s.rst = false ∧ s.cyclesLeft ≤ 1)) ∧
    ∀ (s : State) (i : Instr), step (s.withFetchWord 32 (encode i).toNat) =
      exec i { s with latch := encode i, status := statusAccepted s.status, outLen := 0, cyclesLeft := 0,
                      rst := false, fresh := s.fresh + 1 }

/-- In every other state a step is one clock cycle: with no input pending nothing happens but the count of cycles;
otherwise the oldest input is taken off the list and happens (log 5: the model's choice of one input a cycle). -/
def Obligations.StepTakesOneInput : Prop :=
  ∀ s : State, ready s = false →
    (s.inputs = [] → step s = .next { s with cyclesLeft := s.cyclesLeft - 1 }) ∧
      ∀ (e : Event) (rest : List Event), s.inputs = e :: rest →
        step s = handle e { s with inputs := rest, cyclesLeft := s.cyclesLeft - 1 }

/-! ### Reset and power-on -/

/-- R40: what a host reads of each register after reset, the key store and the RUN registers zero, irq 0, DMEM
unwritten after power-on and unchanged by a reset in which no command runs (R361 has the other case). -/
def Obligations.ResetState : Prop :=
  let s := State.reset
  readCsr s .id = 0x55464337 ∧
    (∀ r ∈ [CsrName.ctrl, .cmd, .status, .keyPtr, .keyLen, .ivPtr, .ivLen, .aadPtr, .aadLen, .srcPtr, .srcLen,
      .auxPtr, .auxLen, .dstPtr, .param, .outLen], readCsr s r = 0) ∧
    (∀ k : Fin 16, s.keys.sk1[k] = 0 ∧ s.keys.sk2[k] = 0 ∧ s.keys.sk3[k] = 0) ∧
    s.keys.kvalid = false ∧ s.keys.kalg = 0 ∧
    s.regs.fb = 0 ∧ s.regs.h = 0 ∧ s.regs.j0 = 0 ∧ s.regs.ctr = 0 ∧ s.regs.y = 0 ∧ irq s = false ∧
    (∀ a, readByte s.dmem a = none) ∧
    ∀ u : State, u.status.busy = false → ∃ t, handle (.rst true) u = .next t ∧ t.dmem = u.dmem

/-- R360: asserting rst while no command runs leaves DMEM and the parameters; while rst is asserted a host write changes
nothing, a host read returns 0 and no command completes; and releasing it leaves every register at its reset value. -/
def Obligations.ResetHoldsTheBlock : Prop :=
  (∀ s : State, s.status.busy = false →
      ∃ t u, handle (.rst true) s = .next t ∧ t.rst = true ∧ handle (.rst false) t = .next u ∧ u.rst = false ∧
        u.csr = Csrs.reset ∧ u.outLen = 0 ∧ u.status = Status.reset ∧ u.keys = KeyStore.reset ∧
        u.regs = RunRegs.reset ∧ irq u = false ∧ u.dmem = s.dmem ∧ u.cfg = s.cfg) ∧
    ∀ (s : State) (a : Access), s.rst = true →
      ready s = false ∧ (a.we = true → handle (.access a) s = .next s) ∧
        (a.we = false → handle (.access a) s = .next { s with rdata := 0 })

/-- R361: reset while a command runs. A command whose checks pass leaves its destination range written with bytes of
which nothing is said, and every other byte as before; a command that failed a check, and an illegal word, leave DMEM
unchanged. Nothing of the command's completion happens. UNPAD's extent depends on its input, which must have values
(log 13). The bytes left are free values that count as written (log 4), and that the registers hold their reset values
as soon as rst is asserted is the model's choice (log 15: R360 gives them at deassertion). -/
def Obligations.ResetAbandonsTheCommand : Prop :=
  ∀ s : State, s.status.busy = true →
    (∀ i, decode s.latch = some i → (i = .unpad → configBad i s = false ∧ Fits i s →
          Written s ⟨s.csr.srcPtr.toNat, s.csr.srcLen.toNat⟩) →
        ∃ t, handle (.rst true) s = .next t ∧ t.csr = Csrs.reset ∧ t.outLen = 0 ∧ t.status = Status.reset ∧
          t.keys = KeyStore.reset ∧ t.regs = RunRegs.reset ∧ OnlyWrote s t (destOf i s).ptr (destOf i s).len ∧
          (Passes i s → Written t (destOf i s)) ∧ (¬Passes i s → t.dmem = s.dmem)) ∧
      (decode s.latch = none →
        ∃ t, handle (.rst true) s = .next t ∧ t.status = Status.reset ∧ t.outLen = 0 ∧ t.dmem = s.dmem)

/-- R362: power-on resets the block as R360 says and leaves every DMEM byte unwritten. -/
def Obligations.PowerOnUnwritesDmem : Prop :=
  ∀ s : State, ∃ t, handle .powerOn s = .next t ∧ t.csr = Csrs.reset ∧ t.outLen = 0 ∧ t.status = Status.reset ∧
    t.keys = KeyStore.reset ∧ t.regs = RunRegs.reset ∧ t.cfg = s.cfg ∧ ∀ a, readByte t.dmem a = none

/-! ### The host's accesses -/

/-- R60, R61, R62, R63, R32: what an access reaches. An aligned 32-bit access at a register's offset reaches it; a
naturally aligned access whose bytes lie in the DMEM window reaches those bytes; every other access reaches nothing,
and then a read returns 0 and a write changes nothing. -/
def Obligations.ApertureMap : Prop :=
  (∀ (size : Nat) (a : Access),
    let off := a.addr.toNat
    let n := 2 ^ a.size.toNat
    (∀ r, a.size = 2 → off = csrOffset r → targetOf size a = .csr r) ∧
      (a.size ≠ 3 → off % n = 0 → 0x10000 ≤ off → off + n ≤ 0x10000 + size →
        targetOf size a = .dmem (off - 0x10000) n) ∧
      (a.size = 3 ∨ off % n ≠ 0 ∨ (off < 0x100 ∧ a.size ≠ 2) ∨ (0x44 < off ∧ off < 0x10000) ∨
        0x10000 + size < off + n → targetOf size a = .nothing)) ∧
    ∀ (s : State) (a : Access), s.rst = false → targetOf s.cfg.dmemSize a = .nothing →
      (a.we = true → handle (.access a) s = .next s) ∧
        (a.we = false → handle (.access a) s = .next { s with rdata := 0 })

/-- R21, R24, R28, R29: while BUSY = 0 a host write of v to CTRL, PARAM or a pointer or length register is what the
register then reads (CTRL only bits 8:0 of v); every other register, the key store, DMEM and STATUS stay. -/
def Obligations.IdleCsrWrite : Prop :=
  ∀ (s : State) (r : CsrName) (a : Access), s.rst = false → s.status.busy = false → a.we = true →
    targetOf s.cfg.dmemSize a = .csr r → r ∉ [CsrName.id, .cmd, .status, .outLen, .dmemSize] →
    ∃ t, handle (.access a) s = .next t ∧
      readCsr t r = (if r = .ctrl then a.wdata &&& 0x1FF else a.wdata) ∧ (∀ q, q ≠ r → readCsr t q = readCsr s q) ∧
      t.status = s.status ∧ t.keys = s.keys ∧ t.regs = s.regs ∧ t.dmem = s.dmem ∧ t.cyclesLeft = s.cyclesLeft

/-- R336, with R24, R25, R28, R29 and R70: while BUSY = 1 a write to one of the registers of R336's list, or to the DMEM
window, changes nothing but sets STATUS.OVR; a write to ID, OUT_LEN, DMEM_SIZE or to nothing changes nothing at all,
busy or not; no other access sets OVR; and no step but a host write to STATUS with bit 4 set, or reset, clears it. -/
def Obligations.Overrun : Prop :=
  (∀ (s : State) (a : Access), s.rst = false → a.we = true →
    (∀ r, s.status.busy = true → targetOf s.cfg.dmemSize a = .csr r → r ∉ [CsrName.id, .status, .outLen, .dmemSize] →
        handle (.access a) s = .next { s with status := { s.status with ovr := true } }) ∧
      (∀ p n, s.status.busy = true → targetOf s.cfg.dmemSize a = .dmem p n →
        handle (.access a) s = .next { s with status := { s.status with ovr := true } }) ∧
      (∀ r, targetOf s.cfg.dmemSize a = .csr r → r ∈ [CsrName.id, .outLen, .dmemSize] →
        handle (.access a) s = .next s) ∧
      (targetOf s.cfg.dmemSize a = .nothing → handle (.access a) s = .next s)) ∧
    (∀ (s t : State) (a : Access), handle (.access a) s = .next t → t.status.ovr = true → s.status.ovr = false →
      a.we = true ∧ s.status.busy = true ∧
        ((∃ r, targetOf s.cfg.dmemSize a = .csr r ∧ r ∉ [CsrName.id, .status, .outLen, .dmemSize]) ∨
          ∃ p n, targetOf s.cfg.dmemSize a = .dmem p n)) ∧
    ∀ s t : State, s.status.ovr = true → step s = .next t →
      t.status.ovr = true ∨
        ∃ e, s.inputs.head? = some e ∧ (e = .rst true ∨ e = .powerOn ∨
          ∃ a, e = .access a ∧ a.we = true ∧ targetOf s.cfg.dmemSize a = .csr .status ∧ a.wdata.getLsbD 4 = true)

/-- R26 and the code numbers of R321: the bits a read of STATUS returns. -/
def Obligations.StatusLayout : Prop :=
  ∀ s : State,
    let w := readCsr s .status
    w.getLsbD 0 = s.status.busy ∧ w.getLsbD 1 = s.status.done ∧ w.getLsbD 2 = s.status.err ∧
      w.getLsbD 3 = s.status.authFail ∧ w.getLsbD 4 = s.status.ovr ∧ w.extractLsb' 5 3 = 0 ∧
      w.getLsbD 12 = s.keys.kvalid ∧ w.extractLsb' 13 2 = s.keys.kalg ∧ w.extractLsb' 15 17 = 0 ∧
      (w.extractLsb' 8 4).toNat =
        match s.status.errcode with
        | .ok => 0
        | .illegal => 1
        | .config => 2
        | .nokey => 3
        | .bounds => 4
        | .overlap => 5
        | .align => 6
        | .len => 7
        | .pad => 8
        | .auth => 9

/-- R27: a host write of v to STATUS clears DONE where v[1] = 1 and OVR where v[4] = 1, busy or not, and changes
nothing else; reading STATUS changes nothing but the read data. -/
def Obligations.StatusWrite : Prop :=
  ∀ (s : State) (a : Access), s.rst = false → targetOf s.cfg.dmemSize a = .csr .status →
    (a.we = true → handle (.access a) s = .next { s with
      status := { s.status with
        done := if a.wdata.getLsbD 1 then false else s.status.done
        ovr := if a.wdata.getLsbD 4 then false else s.status.ovr } }) ∧
      (a.we = false → handle (.access a) s = .next { s with rdata := readCsr s .status })

/-- R62, R65: while BUSY = 0 a write of n bytes to the DMEM window stores bits 7:0 of the data at the lowest address,
bits 15:8 at the next, and so on, and no other byte; a read of the same bytes then returns those lanes, the others
0. -/
def Obligations.DmemWindowLanes : Prop :=
  ∀ (s : State) (a b : Access) (p n : Nat), s.rst = false → s.status.busy = false → a.we = true → b.we = false →
    targetOf s.cfg.dmemSize a = .dmem p n → targetOf s.cfg.dmemSize b = .dmem p n →
    ∃ t u, handle (.access a) s = .next t ∧ OnlyWrote s t p n ∧
      (∀ k < n, readByte t.dmem (p + k) = some (a.wdata.extractLsb' (8 * k) 8)) ∧
      t.status = s.status ∧ t.csr = s.csr ∧ t.keys = s.keys ∧
      handle (.access b) t = .next u ∧ u.rdata = BitVec.ofNat 32 (a.wdata.toNat % 2 ^ (8 * n))

/-- R70, R72, R80: a read changes nothing but the read data. Of a register it returns the register; of DMEM while
BUSY = 1 it returns 0; of a DMEM byte that nothing has written it is a model fault. -/
def Obligations.ReadsHaveNoSideEffect : Prop :=
  ∀ (s : State) (a : Access), s.rst = false → a.we = false →
    (∀ t, handle (.access a) s = .next t → t = { s with rdata := t.rdata }) ∧
      (∀ r, targetOf s.cfg.dmemSize a = .csr r → handle (.access a) s = .next { s with rdata := readCsr s r }) ∧
      (∀ p n, targetOf s.cfg.dmemSize a = .dmem p n → s.status.busy = true →
        handle (.access a) s = .next { s with rdata := 0 }) ∧
      ∀ p n, targetOf s.cfg.dmemSize a = .dmem p n → s.status.busy = false → HoldsUnwritten s ⟨p, n⟩ →
        handle (.access a) s = .fault .unwrittenRead

/-- R33: no host read and no interrupt depends on a subkey: two states that differ in their subkeys alone answer every
read alike. -/
def Obligations.SubkeysUnreadable : Prop :=
  ∀ (s : State) (k1 k2 k3 : Schedule) (a : Access),
    let s' := { s with keys := { s.keys with sk1 := k1, sk2 := k2, sk3 := k3 } }
    readData s' a = readData s a ∧ irq s' = irq s

/-- R37, R38 and R338's clearing: irq is CTRL.IE ∧ STATUS.DONE as a host reads them; a completion raises it exactly
where IE = 1; accepting a command, writing 1 to DONE, clearing IE while
BUSY = 0, and reset lower it. -/
def Obligations.InterruptOutput : Prop :=
  (∀ s : State, irq s = ((readCsr s .ctrl).getLsbD 8 && (readCsr s .status).getLsbD 1)) ∧
    (∀ s t : State, ready s = true → step s = .next t → irq t = (readCsr s .ctrl).getLsbD 8) ∧
    ∀ (s t : State) (e : Event), handle e s = .next t → irq s = true →
      (∃ a, e = .access a ∧ a.we = true ∧ s.rst = false ∧ targetOf s.cfg.dmemSize a = .csr .status ∧
        a.wdata.getLsbD 1 = true) ∨
      (∃ a, e = .access a ∧ a.we = true ∧ s.rst = false ∧ targetOf s.cfg.dmemSize a = .csr .cmd ∧
        s.status.busy = false) ∨
      (∃ a, e = .access a ∧ a.we = true ∧ s.rst = false ∧ targetOf s.cfg.dmemSize a = .csr .ctrl ∧
        s.status.busy = false ∧ a.wdata.getLsbD 8 = false) ∨
      e = .rst true ∨ e = .powerOn → irq t = false

/-- R25, R334: a host write of any word to CMD while BUSY = 0 accepts it: the latch takes the word, BUSY is set, DONE,
ERR, AUTH_FAIL, ERRCODE and OUT_LEN are cleared, OVR and everything else stay, and at least one cycle passes before
the completion (R369); while BUSY = 1 a write to CMD is not accepted. -/
def Obligations.CommandAccepted : Prop :=
  ∀ (s : State) (a : Access), s.rst = false → a.we = true → targetOf s.cfg.dmemSize a = .csr .cmd →
    (s.status.busy = false → ∃ t, handle (.access a) s = .next t ∧ t.latch = a.wdata ∧ 1 ≤ t.cyclesLeft ∧ t.outLen = 0 ∧
      t.status = { busy := true, done := false, err := false, authFail := false, ovr := s.status.ovr,
                   errcode := .ok } ∧
      t.csr = s.csr ∧ t.keys = s.keys ∧ t.regs = s.regs ∧ t.dmem = s.dmem ∧ t.cfg = s.cfg ∧ t.rst = s.rst ∧
      t.inputs = s.inputs) ∧
    (s.status.busy = true → ∃ t, handle (.access a) s = .next t ∧ t.latch = s.latch ∧ t.cyclesLeft = s.cyclesLeft ∧
      t.status.busy = true)

/-- R335, R36, R68, R70: an accepted command reaches its completion within its cycles, whatever the host does short of
reset, and finds the latch, the operand registers, the key store and DMEM as they were at acceptance. The latency is a
free value (log 3), its last cycle's event may fall before or after the completion (log 5), and the snapshot is the
state itself (log 14). -/
def Obligations.RunningCommandReachesCompletion : Prop :=
  ∀ s : State, s.status.busy = true → s.rst = false →
    (∀ e ∈ s.inputs.take s.cyclesLeft, e = .cycle ∨ e = .wait ∨ ∃ a, e = .access a) →
    ∃ k t, k ≤ s.cyclesLeft ∧ s.cyclesLeft ≤ k + 1 ∧ Host.Core.run Sys2Proof.core k s = .next t ∧ ready t = true ∧
      t.latch = s.latch ∧ t.csr = s.csr ∧ t.keys = s.keys ∧ t.regs = s.regs ∧ t.dmem = s.dmem ∧ t.cfg = s.cfg

/-! ### The invariant -/

/-- The invariant holds right after reset. -/
def Obligations.ResetInv : Prop := Inv State.reset

/-- Every step keeps the invariant: a legal DMEM_SIZE, DMEM canonical and inside it, CTRL's reserved bits zero, ERR and
AUTH_FAIL as ERRCODE says, OUT_LEN 0 after an error, nothing reported while BUSY, no key material without KVALID, a
legal KALG, and the reset values while rst is asserted. -/
def Obligations.StepKeepsInv : Prop := ∀ s t : State, Inv s → step s = .next t → Inv t

/-! ### What every command does -/

/-- R28, R33, R35, R335: the frame of all 33 commands. Whenever a command completes, with any code: the parameters,
every operand register, the latch and the ports stay; OVR stays; only LOAD_KEY and ZEROIZE change the key store; only
a RUN other than ECB changes FB, H, J0, the counter or Y; and every DMEM byte outside the destination range the
command's rule lists reads as before. -/
def Obligations.CommandFrame : Prop :=
  ∀ (i : Instr) (s t : State), exec i s = .next t →
    Kept s t ∧ t.status.ovr = s.status.ovr ∧ t.cyclesLeft = 0 ∧
      (i ≠ .loadKey → i ≠ .zeroize → t.keys = s.keys) ∧ (usesRunRegs i = false → t.regs = s.regs) ∧
      OnlyWrote s t (destOf i s).ptr (destOf i s).len

/-- R332, R333: a command that ends with an error leaves DMEM and the key store unchanged and OUT_LEN 0; the one
exception is a RUN decrypt in a plain mode that ends with PAD, which may write its destination range. -/
def Obligations.FailedCommandChangesNothing : Prop :=
  ∀ (i : Instr) (s t : State), exec i s = .next t → t.status.errcode ≠ .ok →
    t.outLen = 0 ∧ t.keys = s.keys ∧ t.csr = s.csr ∧
      (t.dmem = s.dmem ∨ (t.status.errcode = .pad ∧ ∃ m, plainRun i = some (m, .decrypt)))

/-- R321 to R331, R340: the code a command ends with is the one of the earliest check that fails, by the causes of R323
to R330, those the data decide (the SUBST index, malformed padding, the tag) included; a command that ends with OK has
no cause at all; and only the commands of R321's last column end with a code. That XOR of an empty first operand still
checks its second operand's range is log 9's reading of R124. -/
def Obligations.EarliestErrorReported : Prop :=
  ∀ (i : Instr) (s t : State), exec i s = .next t →
    CauseHolds i s t t.status.errcode ∧ t.status.done = true ∧ t.status.busy = false ∧
      t.status.err = decide (t.status.errcode ≠ .ok) ∧ t.status.authFail = decide (t.status.errcode = .auth)

/-- R80, R320: no command is refused, and the one way a command does not complete is an input range that holds a byte
nothing has written, which is a model fault. A command whose checks pass and which meets such a byte faults (RUN.GCM.D
on fewer than 16 bytes ends before it reads, log 8). -/
def Obligations.OnlyUnwrittenInputStops : Prop :=
  (∀ (i : Instr) (s : State) (x : Refusal), exec i s ≠ .refused x) ∧
    (∀ (i : Instr) (s : State) (f : Fault), exec i s = .fault f →
      f = .unwrittenInput ∧ configBad i s = false ∧ keyBad i s = false ∧ lenBad i s = false ∧
        ∃ r ∈ inputsOf i s, HoldsUnwritten s r.1) ∧
    ∀ (i : Instr) (s : State), Passes i s → ¬(i = .runGcmD ∧ s.csr.srcLen.toNat < 16) →
      (∃ r ∈ inputsOf i s, HoldsUnwritten s r.1) → exec i s = .fault .unwrittenInput

/-- R34, R35, R228: no command's effect depends on FB, H, J0, the counter or Y as an earlier command left them, and no
host read shows them. -/
def Obligations.RunRegistersArePrivate : Prop :=
  (∀ (i : Instr) (s t : State) (q : RunRegs), exec i s = .next t →
      ∃ q', exec i { s with regs := q } = .next { t with regs := q' }) ∧
    (∀ (i : Instr) (s : State) (q : RunRegs) (f : Fault), exec i s = .fault f →
      exec i { s with regs := q } = .fault f) ∧
    ∀ (s : State) (q : RunRegs) (a : Access), readData { s with regs := q } a = readData s a

/-! ### Control and key commands -/

/-- R310: NOP completes with OK and changes nothing. -/
def Obligations.NopDoesNothing : Prop :=
  ∀ s : State, ∃ t, exec .nop s = .next t ∧ Completes s t .ok 0 ∧ t.keys = s.keys ∧ t.regs = s.regs ∧ t.dmem = s.dmem

/-- R311: ZEROIZE clears the three schedules, KVALID and KALG and nothing else; afterwards BLOCK and every plain RUN
with DES or TDES and no CONFIG cause end with NOKEY. -/
def Obligations.ZeroizeClearsKeys : Prop :=
  ∀ s : State, ∃ t, exec .zeroize s = .next t ∧ Completes s t .ok 0 ∧ t.dmem = s.dmem ∧ t.regs = s.regs ∧
    t.keys.kvalid = false ∧ t.keys.kalg = 0 ∧
    (∀ k : Fin 16, t.keys.sk1[k] = 0 ∧ t.keys.sk2[k] = 0 ∧ t.keys.sk3[k] = 0) ∧
    ∀ i, isBlock i = true ∨ (plainRun i).isSome = true → algOf t.csr.ctrl = .des ∨ algOf t.csr.ctrl = .tdes →
      configBad i t = false → FailsWith i t .nokey

/-- R182: LOAD_KEY. Its checks, and on a key whose bytes have values: for DES the schedule of the key aligned to 8
bytes, the other two schedules zero; for TDES the schedules of the three keys of R176. -/
def Obligations.LoadKeyBuildsSchedule : Prop :=
  ∀ s : State, ChecksRuled .loadKey s ∧
    ∀ k : Bytes, Passes .loadKey s → readBytes s.dmem s.csr.keyPtr.toNat s.csr.keyLen.toNat = some k →
      ∃ t, exec .loadKey s = .next t ∧ Completes s t .ok 0 ∧ t.dmem = s.dmem ∧ t.regs = s.regs ∧
        t.keys.kvalid = true ∧
        (s.csr.ctrl.extractLsb' 0 2 = 0 → t.keys.kalg = 0 ∧ t.keys.sk1 = schedule (alignVec k 8 0) ∧
          ∀ r : Fin 16, t.keys.sk2[r] = 0 ∧ t.keys.sk3[r] = 0) ∧
        (s.csr.ctrl.extractLsb' 0 2 = 1 → t.keys.kalg = 1 ∧
          (k.length = 16 → t.keys.sk1 = schedule (k.take 8) ∧ t.keys.sk2 = schedule (k.drop 8) ∧
            t.keys.sk3 = schedule (k.take 8)) ∧
          (k.length ≠ 16 → t.keys.sk1 = schedule ((alignVec k 24 0).take 8) ∧
            t.keys.sk2 = schedule (((alignVec k 24 0).drop 8).take 8) ∧
            t.keys.sk3 = schedule ((alignVec k 24 0).drop 16)))

/-- R183, R184 with R174, R175, R177 to R180: BLOCK.F and BLOCK.I write the forward or inverse transform of one block
that CTRL.ALG selects. -/
def Obligations.BlockTransformsOneBlock : Prop :=
  ∀ s : State, ChecksRuled .blockF s ∧ ChecksRuled .blockI s ∧
    ∀ x : Bytes, readBytes s.dmem s.csr.srcPtr.toNat s.csr.srcLen.toNat = some x →
      (Passes .blockF s →
        (s.csr.ctrl.extractLsb' 0 2 = 0 → Stores .blockF s (desE s.keys.sk1 x) 8) ∧
        (s.csr.ctrl.extractLsb' 0 2 = 1 →
          Stores .blockF s (desE s.keys.sk3 (desD s.keys.sk2 (desE s.keys.sk1 x))) 8) ∧
        (s.csr.ctrl.extractLsb' 0 2 = 2 → Stores .blockF s (bytesOf (Config.ext128 (blockOf x))) 16)) ∧
      (Passes .blockI s →
        (s.csr.ctrl.extractLsb' 0 2 = 0 → Stores .blockI s (desD s.keys.sk1 x) 8) ∧
        (s.csr.ctrl.extractLsb' 0 2 = 1 →
          Stores .blockI s (desD s.keys.sk1 (desE s.keys.sk2 (desD s.keys.sk3 x))) 8) ∧
        (s.csr.ctrl.extractLsb' 0 2 = 2 → Stores .blockI s (bytesOf (Config.ext128.symm (blockOf x))) 16))

/-- R175, R183, R184: on the machine, BLOCK.I on the block that BLOCK.F wrote gives the first block back, for DES,
TDES and EXT128 alike. -/
def Obligations.BlockInverseUndoesForward : Prop :=
  ∀ (s t : State) (x : Bytes), Passes .blockF s →
    readBytes s.dmem s.csr.srcPtr.toNat s.csr.srcLen.toNat = some x → exec .blockF s = .next t →
    Stores .blockI { t with csr := { t.csr with srcPtr := t.csr.dstPtr } } x x.length

/-! ### The DES functions -/

/-- R174, R175: encryption takes the subkeys in schedule order, decryption reversed; decryption undoes encryption on
every 8-byte block under every schedule, and encryption decryption. -/
def Obligations.DesRoundTrip : Prop :=
  ∀ (sk : Schedule) (x : Bytes), desE sk x = desBlock x sk.toList ∧ desD sk x = desBlock x sk.toList.reverse ∧
    (x.length = 8 → desD sk (desE sk x) = x ∧ desE sk (desD sk x) = x)

/-- R176, R177, R178: the two compositions; T3inv undoes T3 on every 8-byte block; with K1 = K2, and so with an 8-byte
key, whose first two keys are zero, T3 is single DES under the third key. -/
def Obligations.TripleDesComposes : Prop :=
  (∀ (k : KeyStore) (x : Bytes), tdesE k x = desE k.sk3 (desD k.sk2 (desE k.sk1 x)) ∧
      tdesD k x = desD k.sk1 (desE k.sk2 (desD k.sk3 x)) ∧
      (x.length = 8 → tdesD k (tdesE k x) = x ∧ tdesE k (tdesD k x) = x) ∧
      (x.length = 8 → k.sk1 = k.sk2 → tdesE k x = desE k.sk3 x)) ∧
    ∀ k : Bytes, k.length = 8 → tdesKeys k = (List.replicate 8 0, List.replicate 8 0, k)

/-- R170, R171: the fused 64-to-48-bit permutation of each round gives the textbook schedule's subkeys. -/
def Obligations.FusedScheduleAgrees : Prop :=
  ∀ (k : Bytes) (r : Fin 16), k.length = 8 → (schedule k)[r] = fusedKey k r.val

/-- R172: the least significant bit of a key byte affects no subkey. -/
def Obligations.ParityBitsIgnored : Prop :=
  ∀ k k' : Bytes, k.length = 8 → k'.length = 8 →
    (∀ j < 8, (k.getD j 0) >>> 1 = (k'.getD j 0) >>> 1) → schedule k = schedule k'

/-! ### Vector commands -/

/-- R123, R124, R125: XOR has the length of A, with B repeated cyclically; in bit form the unused low bits of the last
byte are written 0. That an empty A still has B's range checked is log 9's reading of R124. -/
def Obligations.XorCyclesSecondOperand : Prop :=
  ∀ s : State, ChecksRuled .xorB s ∧ ChecksRuled .xorBit s ∧
    let n := s.csr.srcLen.toNat
    let m := s.csr.auxLen.toNat
    (∀ a b : Bytes, Passes .xorB s → readBytes s.dmem s.csr.srcPtr.toNat n = some a →
      readBytes s.dmem s.csr.auxPtr.toNat m = some b →
      ∃ out : Bytes, out.length = n ∧ (∀ i < n, out.getD i 0 = a.getD i 0 ^^^ b.getD (i % m) 0) ∧
        Stores .xorB s out n) ∧
      ∀ a b : Bytes, Passes .xorBit s → readBytes s.dmem s.csr.srcPtr.toNat (bitBytes n) = some a →
        readBytes s.dmem s.csr.auxPtr.toNat (bitBytes m) = some b →
        ∃ out : Bytes, out.length = bitBytes n ∧
          (∀ i < 8 * bitBytes n, vecBit out i =
            if i < n then Bool.xor (vecBit a i) (vecBit b (i % m)) else false) ∧
          Stores .xorBit s out n

/-- R126, R127, R128: PERM picks the element each 16-bit big-endian index names, the zero element where it is out of
range. -/
def Obligations.PermGathersByIndex : Prop :=
  ∀ s : State, ChecksRuled .permB s ∧ ChecksRuled .permBit s ∧
    let n := s.csr.srcLen.toNat
    let m := s.csr.auxLen.toNat
    ∀ ix : Bytes, readBytes s.dmem s.csr.auxPtr.toNat (2 * m) = some ix →
      (∀ v : Bytes, Passes .permB s → readBytes s.dmem s.csr.srcPtr.toNat n = some v →
        ∃ out : Bytes, out.length = m ∧
          (∀ i < m, out.getD i 0 = if entry16 ix i < n then v.getD (entry16 ix i) 0 else 0) ∧
          Stores .permB s out m) ∧
      ∀ v : Bytes, Passes .permBit s → readBytes s.dmem s.csr.srcPtr.toNat (bitBytes n) = some v →
        ∃ out : Bytes, out.length = bitBytes m ∧
          (∀ i < 8 * bitBytes m, vecBit out i =
            if i < m ∧ entry16 ix i < n then vecBit v (entry16 ix i) else false) ∧
          Stores .permBit s out m

/-- R129, R130, R131: SUBST reads the operand as a big-endian index and writes that row of the table, W bytes or the
low W bits of the row's byte; an index outside the table is LEN. -/
def Obligations.SubstPicksTableRow : Prop :=
  ∀ s : State, ChecksRuled .substB s ∧ ChecksRuled .substBit s ∧
    let n := s.csr.srcLen.toNat
    let m := s.csr.auxLen.toNat
    let w := (s.csr.param.extractLsb' 0 4).toNat
    (∀ v tab : Bytes, Passes .substB s → readBytes s.dmem s.csr.srcPtr.toNat n = some v →
      readBytes s.dmem s.csr.auxPtr.toNat (m * w) = some tab →
      (m ≤ beInt v → FailsWith .substB s .len) ∧
        (beInt v < m → ∃ out : Bytes, out.length = w ∧ (∀ j < w, out.getD j 0 = tab.getD (beInt v * w + j) 0) ∧
          Stores .substB s out w)) ∧
      ∀ v tab : Bytes, Passes .substBit s → readBytes s.dmem s.csr.srcPtr.toNat (bitBytes n) = some v →
        readBytes s.dmem s.csr.auxPtr.toNat m = some tab →
        (m ≤ vecInt v n → FailsWith .substBit s .len) ∧
          (vecInt v n < m → ∃ out : Bytes, out.length = 1 ∧
            (∀ j < 8, vecBit out j = if j < w then (tab.getD (vecInt v n) 0).getLsbD (w - 1 - j) else false) ∧
            Stores .substBit s out w)

/-- R132, R133, R134: ALIGN keeps the last N elements, or fills on the left. -/
def Obligations.AlignCutsOrFills : Prop :=
  ∀ s : State, ChecksRuled .alignB s ∧ ChecksRuled .alignBit s ∧
    let n := s.csr.srcLen.toNat
    let k := (s.csr.param.extractLsb' 0 16).toNat
    (∀ v : Bytes, Passes .alignB s → readBytes s.dmem s.csr.srcPtr.toNat n = some v →
      ∃ out : Bytes, out.length = k ∧
        (∀ i < k, out.getD i 0 =
          if k ≤ n then v.getD (n - k + i) 0
          else if i < k - n then s.csr.param.extractLsb' 16 8 else v.getD (i - (k - n)) 0) ∧
        Stores .alignB s out k) ∧
      ∀ v : Bytes, Passes .alignBit s → readBytes s.dmem s.csr.srcPtr.toNat (bitBytes n) = some v →
        ∃ out : Bytes, out.length = bitBytes k ∧
          (∀ i < 8 * bitBytes k, vecBit out i =
            if k ≤ i then false
            else if k ≤ n then vecBit v (n - k + i)
            else if i < k - n then s.csr.param.getLsbD 16 else vecBit v (i - (k - n))) ∧
          Stores .alignBit s out k

/-- R135, R136, R137: INC adds one to the big-endian integer the vector is, modulo what its width holds. -/
def Obligations.IncAddsOne : Prop :=
  ∀ s : State, ChecksRuled .incB s ∧ ChecksRuled .incBit s ∧
    let n := s.csr.srcLen.toNat
    (∀ v : Bytes, Passes .incB s → readBytes s.dmem s.csr.srcPtr.toNat n = some v →
      ∃ out : Bytes, out.length = n ∧ beInt out = (beInt v + 1) % 2 ^ (8 * n) ∧ Stores .incB s out n) ∧
      ∀ v : Bytes, Passes .incBit s → readBytes s.dmem s.csr.srcPtr.toNat (bitBytes n) = some v →
        ∃ out : Bytes, out.length = bitBytes n ∧ vecInt out n = (vecInt v n + 1) % 2 ^ n ∧
          (∀ i < 8 * bitBytes n, n ≤ i → vecBit out i = false) ∧ Stores .incBit s out n

/-- R138, R139, R140: INC32 increments the last 32 bits, or the whole of a shorter vector, and leaves the elements
before them. -/
def Obligations.Inc32AddsToLastWord : Prop :=
  ∀ s : State, ChecksRuled .inc32B s ∧ ChecksRuled .inc32Bit s ∧
    let n := s.csr.srcLen.toNat
    (∀ v : Bytes, Passes .inc32B s → readBytes s.dmem s.csr.srcPtr.toNat n = some v →
      ∃ out : Bytes, out.length = n ∧ out.take (n - 4) = v.take (n - 4) ∧
        beInt (out.drop (n - 4)) = (beInt (v.drop (n - 4)) + 1) % 2 ^ (8 * min n 4) ∧ Stores .inc32B s out n) ∧
      ∀ v : Bytes, Passes .inc32Bit s → readBytes s.dmem s.csr.srcPtr.toNat (bitBytes n) = some v →
        ∃ out : Bytes, out.length = bitBytes n ∧ (∀ i < n - 32, vecBit out i = vecBit v i) ∧
          (vecInt out n) % 2 ^ (min n 32) = (vecInt v n + 1) % 2 ^ (min n 32) ∧
          (∀ i < 8 * bitBytes n, n ≤ i → vecBit out i = false) ∧ Stores .inc32Bit s out n

/-! ### The plain modes -/

/-- R210 to R217, R219, R221, R223, R225: a RUN encrypt writes the padded message's blocks, each by its mode's formula
from the block transform T, the seed (the IV aligned to a block) and the blocks before it. -/
def Obligations.RunEncrypt : Prop :=
  ∀ s : State,
    let b := blockSize (algOf s.csr.ctrl)
    let t := blockT s
    (∀ i m, plainRun i = some (m, .encrypt) → ChecksRuled i s) ∧
    ∀ p : Bytes, readBytes s.dmem s.csr.srcPtr.toNat s.csr.srcLen.toNat = some p →
      let msg := padBytes (padCfg s.csr.ctrl) p
      (Passes .runEcbE s → ∃ out : Bytes, out.length = msg.length ∧ Stores .runEcbE s out out.length ∧
        ∀ j, j * b < msg.length → nthBlock b out j = t (nthBlock b msg j)) ∧
      ∀ iv : Bytes, readBytes s.dmem s.csr.ivPtr.toNat s.csr.ivLen.toNat = some iv →
        let seed := alignVec iv b 0
        (Passes .runCbcE s → ∃ out : Bytes, out.length = msg.length ∧ Stores .runCbcE s out out.length ∧
          ∀ j, j * b < msg.length → nthBlock b out j =
            t (xorBytes (nthBlock b msg j) (if j = 0 then seed else nthBlock b out (j - 1)))) ∧
        (Passes .runCfbE s → ∃ out : Bytes, out.length = msg.length ∧ Stores .runCfbE s out out.length ∧
          ∀ j, j * b < msg.length → nthBlock b out j =
            xorBytes (nthBlock b msg j) (t (if j = 0 then seed else nthBlock b out (j - 1)))) ∧
        (Passes .runOfbE s → ∃ out : Bytes, out.length = msg.length ∧ Stores .runOfbE s out out.length ∧
          ∀ j, j * b < msg.length → nthBlock b out j = xorBytes (nthBlock b msg j) (t^[j + 1] seed)) ∧
        (Passes .runCtrE s → ∃ out : Bytes, out.length = msg.length ∧ Stores .runCtrE s out out.length ∧
          ∀ j, j * b < msg.length → nthBlock b out j =
            xorBytes (nthBlock b msg j) (t ((inc32Vec byteKind)^[j] seed)))

/-- R181, R210, R215, R216, R218, R220, R222, R224, R226, R332: a RUN decrypt writes every decrypted block, CFB, OFB
and CTR by the forward transform; OUT_LEN is the unpadded length, and a padding that is malformed ends the command
with PAD, the stream written all the same. -/
def Obligations.RunDecrypt : Prop :=
  ∀ s : State,
    let b := blockSize (algOf s.csr.ctrl)
    let t := blockT s
    (∀ i m, plainRun i = some (m, .decrypt) → ChecksRuled i s) ∧
    ∀ c : Bytes, readBytes s.dmem s.csr.srcPtr.toNat s.csr.srcLen.toNat = some c →
      let ends := fun (i : Instr) (out : Bytes) => out.length = c.length ∧
        match unpadBytes (padCfg s.csr.ctrl) out with
        | some r => Stores i s out r.length
        | none => StoresWith i s out .pad 0
      (Passes .runEcbD s → ∃ out : Bytes, ends .runEcbD out ∧
        ∀ j, j * b < c.length → nthBlock b out j = blockTinv s (nthBlock b c j)) ∧
      ∀ iv : Bytes, readBytes s.dmem s.csr.ivPtr.toNat s.csr.ivLen.toNat = some iv →
        let seed := alignVec iv b 0
        (Passes .runCbcD s → ∃ out : Bytes, ends .runCbcD out ∧
          ∀ j, j * b < c.length → nthBlock b out j =
            xorBytes (blockTinv s (nthBlock b c j)) (if j = 0 then seed else nthBlock b c (j - 1))) ∧
        (Passes .runCfbD s → ∃ out : Bytes, ends .runCfbD out ∧
          ∀ j, j * b < c.length → nthBlock b out j =
            xorBytes (nthBlock b c j) (t (if j = 0 then seed else nthBlock b c (j - 1)))) ∧
        (Passes .runOfbD s → ∃ out : Bytes, ends .runOfbD out ∧
          ∀ j, j * b < c.length → nthBlock b out j = xorBytes (nthBlock b c j) (t^[j + 1] seed)) ∧
        (Passes .runCtrD s → ∃ out : Bytes, ends .runCtrD out ∧
          ∀ j, j * b < c.length → nthBlock b out j =
            xorBytes (nthBlock b c j) (t ((inc32Vec byteKind)^[j] seed)))

/-- R290 and R215: on the machine, a RUN decrypt of what a RUN encrypt wrote, in the same mode with the same key, IV
and CTRL, writes the padded message back, for all five modes; its OUT_LEN is that of the unpadded message. -/
def Obligations.RunDecryptUndoesEncrypt : Prop :=
  ∀ (m : Mode) (e d : Instr) (s t : State) (p r : Bytes), plainRun e = some (m, .encrypt) →
    plainRun d = some (m, .decrypt) → Passes e s →
    readBytes s.dmem s.csr.srcPtr.toNat s.csr.srcLen.toNat = some p → exec e s = .next t →
    unpadBytes (padCfg s.csr.ctrl) (padBytes (padCfg s.csr.ctrl) p) = some r →
    s.cfg.dmemSize < 2 ^ 32 →
    Stores d { t with csr := { t.csr with srcPtr := t.csr.dstPtr, srcLen := t.outLen } }
      (padBytes (padCfg s.csr.ctrl) p) r.length

/-! ### GCM -/

/-- R251: ⊙ is commutative and associative, distributes over ⊕, has 80 00 … 00 as its identity, and x^127 ⊙ x is the
reduction constant E1 00 … 00. -/
def Obligations.FieldMultiplication : Prop :=
  (∀ x y : Block128, gfMul x y = gfMul y x) ∧
    (∀ x y z : Block128, gfMul (gfMul x y) z = gfMul x (gfMul y z)) ∧
    (∀ x y z : Block128, gfMul x (y ^^^ z) = gfMul x y ^^^ gfMul x z) ∧
    (∀ x : Block128, gfMul x 0x80000000000000000000000000000000 = x) ∧
    (∀ x : Block128, gfMul x 0x40000000000000000000000000000000 =
      if x.getLsbD 0 then (x >>> 1) ^^^ 0xE1000000000000000000000000000000 else x >>> 1)

/-- R259: GFMUL writes the field product of its two operands, which may be the same range. -/
def Obligations.GfmulStoresProduct : Prop :=
  ∀ s : State, ChecksRuled .gfmul s ∧
    ∀ x y : Bytes, Passes .gfmul s → readBytes s.dmem s.csr.srcPtr.toNat 16 = some x →
      readBytes s.dmem s.csr.auxPtr.toNat 16 = some y →
      Stores .gfmul s (bytesOf (gfMul (blockOf x) (blockOf y))) 16

/-- R252, R260: GHASH starts from 0 and folds each 16-byte block of the zero-padded data in by ⊕ and ⊙. -/
def Obligations.GhashFoldsBlocks : Prop :=
  ∀ s : State, ChecksRuled .ghash s ∧
    ∀ x h : Bytes, Passes .ghash s → readBytes s.dmem s.csr.srcPtr.toNat s.csr.srcLen.toNat = some x →
      readBytes s.dmem s.csr.auxPtr.toNat 16 = some h →
      let z := x ++ List.replicate ((16 - x.length % 16) % 16) 0
      ∃ y : Nat → Block128, y 0 = 0 ∧
        (∀ j, y (j + 1) = gfMul (y j ^^^ blockOf (nthBlock 16 z j)) (blockOf h)) ∧
        Stores .ghash s (bytesOf (y (z.length / 16))) 16

/-- R253 to R257: RUN.GCM.E writes the counter-mode ciphertext, which starts from inc32(J0), and then the 16-byte tag
GHASH(A, C, lengths) ⊕ T(J0). -/
def Obligations.GcmEncrypt : Prop :=
  ∀ s : State, ChecksRuled .runGcmE s ∧
    ∀ p iv aad : Bytes, Passes .runGcmE s →
      readBytes s.dmem s.csr.srcPtr.toNat s.csr.srcLen.toNat = some p →
      readBytes s.dmem s.csr.ivPtr.toNat s.csr.ivLen.toNat = some iv →
      readBytes s.dmem s.csr.aadPtr.toNat s.csr.aadLen.toNat = some aad →
      let t := fun x => bytesOf (Config.ext128 (blockOf x))
      let h := Config.ext128 0
      let j0 := if iv.length = 12 then iv ++ [0, 0, 0, 1] else
        bytesOf (ghashBytes h (zpad iv ++ List.replicate 8 0 ++ beBytes 8 (8 * iv.length)))
      ∃ c : Bytes, c.length = p.length ∧
        (∀ j, j * 16 < p.length → nthBlock 16 c j =
          xorBytes (nthBlock 16 p j) (t ((inc32Vec byteKind)^[j + 1] j0))) ∧
        Stores .runGcmE s (c ++ bytesOf (ghashBytes h (zpad aad ++ zpad c ++ beBytes 8 (8 * aad.length) ++
          beBytes 8 (8 * c.length)) ^^^ blockOf (t j0))) (p.length + 16)

/-- R258, R261, R330: RUN.GCM.D verifies before release. Fewer than 16 bytes, or a tag that differs from the one
recomputed in any bit, end with AUTH and nothing written; the right tag gives the counter-mode plaintext. -/
def Obligations.GcmDecrypt : Prop :=
  ∀ s : State, ChecksRuled .runGcmD s ∧
    (Passes .runGcmD s → s.csr.srcLen.toNat < 16 → FailsWith .runGcmD s .auth) ∧
    ∀ c tag iv aad : Bytes, Passes .runGcmD s → tag.length = 16 →
      readBytes s.dmem s.csr.srcPtr.toNat s.csr.srcLen.toNat = some (c ++ tag) →
      readBytes s.dmem s.csr.ivPtr.toNat s.csr.ivLen.toNat = some iv →
      readBytes s.dmem s.csr.aadPtr.toNat s.csr.aadLen.toNat = some aad →
      let t := fun x => bytesOf (Config.ext128 (blockOf x))
      let h := Config.ext128 0
      let j0 := if iv.length = 12 then iv ++ [0, 0, 0, 1] else
        bytesOf (ghashBytes h (zpad iv ++ List.replicate 8 0 ++ beBytes 8 (8 * iv.length)))
      let good := bytesOf (ghashBytes h (zpad aad ++ zpad c ++ beBytes 8 (8 * aad.length) ++
        beBytes 8 (8 * c.length)) ^^^ blockOf (t j0))
      (tag ≠ good → FailsWith .runGcmD s .auth) ∧
        (tag = good → ∃ p : Bytes, p.length = c.length ∧
          (∀ j, j * 16 < c.length → nthBlock 16 p j =
            xorBytes (nthBlock 16 c j) (t ((inc32Vec byteKind)^[j + 1] j0))) ∧
          Stores .runGcmD s p p.length)

/-- R257, R258, R261: on the machine, RUN.GCM.D accepts what RUN.GCM.E wrote with the same IV and AAD and gives the
message back; it accepts no input that differs from it in one byte of the tag. -/
def Obligations.GcmDecryptUndoesEncrypt : Prop :=
  ∀ (s t : State) (p iv aad : Bytes), Passes .runGcmE s →
    readBytes s.dmem s.csr.srcPtr.toNat s.csr.srcLen.toNat = some p →
    readBytes s.dmem s.csr.ivPtr.toNat s.csr.ivLen.toNat = some iv →
    readBytes s.dmem s.csr.aadPtr.toNat s.csr.aadLen.toNat = some aad → s.cfg.dmemSize < 2 ^ 32 →
    exec .runGcmE s = .next t →
    let s' := { t with csr := { t.csr with srcPtr := t.csr.dstPtr, srcLen := t.outLen } }
    Stores .runGcmD s' p p.length ∧
      ∀ (u : State) (j : Nat) (x : Byte), j < 16 → x ≠ 0 → u.csr = s'.csr → u.cfg = s'.cfg →
        (∀ a, readByte u.dmem a = if a = t.csr.dstPtr.toNat + p.length + j
          then (readByte s'.dmem a).map (· ^^^ x) else readByte s'.dmem a) →
        FailsWith .runGcmD u .auth

/-! ### Padding -/

/-- R280 to R282, R284, R286, R288, R331: PAD, its checks in its own order with the source read between them (R80), and
what each scheme appends: nothing; k bytes of value k with k = B − n mod B; zeros to alignment; or 80, the least zeros
that leave room for the field, and the bit length in the field of L bytes, in either byte order. -/
def Obligations.PadAppendsScheme : Prop :=
  ∀ s : State,
    (configBad .pad s = true → FailsWith .pad s .config) ∧
    let src : Range := ⟨s.csr.srcPtr.toNat, s.csr.srcLen.toNat⟩
    (configBad .pad s = false → ¬FitsIn s.cfg.dmemSize src → FailsWith .pad s .bounds) ∧
    (configBad .pad s = false → FitsIn s.cfg.dmemSize src → HoldsUnwritten s src →
      exec .pad s = .fault .unwrittenInput) ∧
    ∀ m : Bytes, configBad .pad s = false → FitsIn s.cfg.dmemSize src →
      readBytes s.dmem s.csr.srcPtr.toNat s.csr.srcLen.toNat = some m →
      let b := if s.csr.ctrl.extractLsb' 0 2 = 2 then 16 else 8
      let l := 2 ^ (s.csr.ctrl.extractLsb' 4 3).toNat
      let n := m.length
      ∃ tail : Bytes,
        (s.csr.ctrl.extractLsb' 2 2 = 0 → tail = []) ∧
        (s.csr.ctrl.extractLsb' 2 2 = 1 → tail = List.replicate (b - n % b) (BitVec.ofNat 8 (b - n % b))) ∧
        (s.csr.ctrl.extractLsb' 2 2 = 2 → tail = List.replicate ((b - n % b) % b) 0) ∧
        (s.csr.ctrl.extractLsb' 2 2 = 3 → ∃ (z : Nat) (field : Bytes),
          tail = 0x80 :: (List.replicate z 0 ++ field) ∧ z < b ∧ field.length = l ∧ (n + tail.length) % b = 0 ∧
            beInt (if s.csr.ctrl.getLsbD 7 then field.reverse else field) = (8 * n) % 2 ^ (8 * l)) ∧
        let d : Range := ⟨s.csr.dstPtr.toNat, n + tail.length⟩
        (¬FitsIn s.cfg.dmemSize d → FailsWith .pad s .bounds) ∧
          (FitsIn s.cfg.dmemSize d → ¬MayWrite d [(src, .inPlace)] → FailsWith .pad s .overlap) ∧
          (FitsIn s.cfg.dmemSize d → MayWrite d [(src, .inPlace)] → Stores .pad s (m ++ tail) (n + tail.length))

/-- R283, R285, R287, R289, R331: UNPAD, its checks in order with the source read between them (R80), and what each
scheme strips. -/
def Obligations.UnpadStripsScheme : Prop :=
  ∀ s : State,
    (configBad .unpad s = true → FailsWith .unpad s .config) ∧
    let src : Range := ⟨s.csr.srcPtr.toNat, s.csr.srcLen.toNat⟩
    (configBad .unpad s = false → ¬FitsIn s.cfg.dmemSize src → FailsWith .unpad s .bounds) ∧
    (configBad .unpad s = false → FitsIn s.cfg.dmemSize src → HoldsUnwritten s src →
      exec .unpad s = .fault .unwrittenInput) ∧
    ∀ m : Bytes, configBad .unpad s = false → FitsIn s.cfg.dmemSize src →
      readBytes s.dmem s.csr.srcPtr.toNat s.csr.srcLen.toNat = some m →
      let n := m.length
      let k := (m.getD (n - 1) 0).toNat
      let l := 2 ^ (s.csr.ctrl.extractLsb' 4 3).toNat
      let field := m.drop (n - l)
      let v := beInt (if s.csr.ctrl.getLsbD 7 then field.reverse else field) / 8
      let gives := fun u : Bytes => let d : Range := ⟨s.csr.dstPtr.toNat, u.length⟩
        (¬FitsIn s.cfg.dmemSize d → FailsWith .unpad s .bounds) ∧
          (FitsIn s.cfg.dmemSize d → ¬MayWrite d [(src, .inPlace)] → FailsWith .unpad s .overlap) ∧
          (FitsIn s.cfg.dmemSize d → MayWrite d [(src, .inPlace)] → Stores .unpad s u u.length)
      (s.csr.ctrl.extractLsb' 2 2 = 0 → gives m) ∧
      (s.csr.ctrl.extractLsb' 2 2 = 1 →
        (n = 0 ∨ n < k → FailsWith .unpad s .pad) ∧ (0 < n → k ≤ n → gives (m.take (n - k)))) ∧
      (s.csr.ctrl.extractLsb' 2 2 = 2 → ∃ j ≤ n, gives (m.take j) ∧ (∀ i < n, j ≤ i → m.getD i 0 = 0) ∧
        (0 < j → m.getD (j - 1) 0 ≠ 0)) ∧
      (s.csr.ctrl.extractLsb' 2 2 = 3 →
        (n < l + 1 ∨ n - l - 1 < v → FailsWith .unpad s .pad) ∧ (l + 1 ≤ n → v ≤ n - l - 1 → gives (m.take v)))

/-- R290: unpad undoes pad: exactly for PKCS7 and NONE, for Bit-padding when the bit length fits the field, and up to
trailing zeros for ZERO. -/
def Obligations.UnpadUndoesPad : Prop :=
  ∀ (ctrl : Word) (m : Bytes), padConfigOk ctrl = true →
    (schemeOf ctrl = .none ∨ schemeOf ctrl = .pkcs7 ∨ (schemeOf ctrl = .bit ∧ 8 * m.length < 2 ^ (8 * fieldLen ctrl)) →
      unpadBytes (padCfg ctrl) (padBytes (padCfg ctrl) m) = some m) ∧
    (schemeOf ctrl = .zero → ∃ u z, m = u ++ List.replicate z 0 ∧ u.getLast? ≠ some 0 ∧
      unpadBytes (padCfg ctrl) (padBytes (padCfg ctrl) m) = some u)

/-! ### Host programs -/

/-- R340: the host access that falls in a command's last clock cycle is before the completion, and then it sees BUSY = 1
and the completion is due next, or after it, and then the completion leaves it to come and it sees the completed
state. Which of the two is a free value (log 5). -/
def Obligations.AccessAtCompletionBeforeOrAfter : Prop :=
  ∀ (s : State) (a : Access) (rest : List Event), s.status.busy = true → s.rst = false → s.cyclesLeft = 1 →
    s.inputs = .access a :: rest →
    (∃ t, step s = .next t ∧ step s = handle (.access a) { s with inputs := rest, cyclesLeft := 0 } ∧
        t.status.busy = true ∧ ready t = true ∧ t.inputs = rest ∧ t.latch = s.latch ∧ t.csr = s.csr ∧
        t.dmem = s.dmem) ∨
      (step s = completeLatched s ∧
        ∀ t, step s = .next t → t.status.busy = false ∧ t.status.done = true ∧ t.inputs = .access a :: rest)

/-- R102, R103: WAIT reads STATUS again and again until bit 0 of the value read is 0. While no command runs one read ends
it. While a command runs it stays the oldest input through every state until the command has completed, and the read
that ends it sees BUSY = 0 and DONE = 1; the one way it does not end is the command's model fault (R80). -/
def Obligations.WaitEndsAfterTheCommand : Prop :=
  ∀ (s : State) (rest : List Event), s.rst = false → s.inputs = .wait :: rest →
    (s.status.busy = false → step s =
      .next { s with inputs := rest, rdata := readCsr s .status, cyclesLeft := s.cyclesLeft - 1 }) ∧
    (s.status.busy = true → ∃ k,
      (∀ j < k, ∃ u, Host.Core.run Sys2Proof.core j s = .next u ∧ u.inputs = .wait :: rest) ∧
        (Host.Core.run Sys2Proof.core k s = .fault Fault.unwrittenInput ∨
          ∃ t, Host.Core.run Sys2Proof.core k s = .next t ∧ t.inputs = rest ∧ t.status.busy = false ∧
            t.status.done = true ∧ t.rdata = readCsr t .status))

/-- R102: WRM, byte by byte or by words (log 19), stores its bytes at its address and nothing else, while no command
runs. -/
def Obligations.WriteMemoryPseudoStoresBytes : Prop :=
  ∀ (s : State) (a : Nat) (v : Bytes) (words : Bool) (rest : List Event), s.rst = false → s.status.busy = false →
    s.cfg.dmemSize ≤ 65536 → a + v.length ≤ s.cfg.dmemSize → s.inputs = hostProgram [.wrm a v words] ++ rest →
    ∃ k t, Host.Core.run Sys2Proof.core k s = .next t ∧ t.inputs = rest ∧ readBytes t.dmem a v.length = some v ∧
      OnlyWrote s t a v.length ∧ t.status = s.status ∧ t.csr = s.csr ∧ t.keys = s.keys ∧ t.regs = s.regs
end

