-- ==== Sys2Proof/Laws/State.lean ====
section
/-! SUPPORT. One lemma per field for each update of the state, so that no proof unfolds a record update. -/

namespace Sys2Proof.Machine

section complete
variable (e : Effect) (s : State)

@[simp] theorem complete_cfg : (complete e s).cfg = s.cfg := rfl
@[simp] theorem complete_csr : (complete e s).csr = s.csr := rfl
@[simp] theorem complete_outLen :
    (complete e s).outLen = if e.code = .ok then BitVec.ofNat 32 e.outLen else 0 := rfl
@[simp] theorem complete_status : (complete e s).status = statusCompleted s.status e.code := rfl
@[simp] theorem complete_keys : (complete e s).keys = e.keys.getD s.keys := rfl
@[simp] theorem complete_regs : (complete e s).regs = e.regs.getD s.regs := rfl
@[simp] theorem complete_latch : (complete e s).latch = s.latch := rfl
@[simp] theorem complete_cyclesLeft : (complete e s).cyclesLeft = 0 := rfl
@[simp] theorem complete_dmem : (complete e s).dmem = writeBytes s.dmem e.dst e.staged := rfl
@[simp] theorem complete_rst : (complete e s).rst = s.rst := rfl
@[simp] theorem complete_rdata : (complete e s).rdata = s.rdata := rfl
@[simp] theorem complete_inputs : (complete e s).inputs = s.inputs := rfl
@[simp] theorem complete_fresh : (complete e s).fresh = s.fresh := rfl

end complete

section accept
variable (w : Word) (s : State)

@[simp] theorem accept_cfg : (accept w s).cfg = s.cfg := rfl
@[simp] theorem accept_csr : (accept w s).csr = s.csr := rfl
@[simp] theorem accept_outLen : (accept w s).outLen = 0 := rfl
@[simp] theorem accept_status : (accept w s).status = statusAccepted s.status := rfl
@[simp] theorem accept_keys : (accept w s).keys = s.keys := rfl
@[simp] theorem accept_regs : (accept w s).regs = s.regs := rfl
@[simp] theorem accept_latch : (accept w s).latch = w := rfl
@[simp] theorem accept_dmem : (accept w s).dmem = s.dmem := rfl
@[simp] theorem accept_rst : (accept w s).rst = s.rst := rfl
@[simp] theorem accept_rdata : (accept w s).rdata = s.rdata := rfl
@[simp] theorem accept_inputs : (accept w s).inputs = s.inputs := rfl
@[simp] theorem accept_fresh : (accept w s).fresh = s.fresh + 1 := rfl
theorem accept_cyclesLeft_pos : 1 ≤ (accept w s).cyclesLeft := Nat.le_add_left 1 _

end accept

section tick
variable (s : State)

@[simp] theorem tick_cfg : (tick s).cfg = s.cfg := rfl
@[simp] theorem tick_csr : (tick s).csr = s.csr := rfl
@[simp] theorem tick_outLen : (tick s).outLen = s.outLen := rfl
@[simp] theorem tick_status : (tick s).status = s.status := rfl
@[simp] theorem tick_keys : (tick s).keys = s.keys := rfl
@[simp] theorem tick_regs : (tick s).regs = s.regs := rfl
@[simp] theorem tick_latch : (tick s).latch = s.latch := rfl
@[simp] theorem tick_cyclesLeft : (tick s).cyclesLeft = s.cyclesLeft - 1 := rfl
@[simp] theorem tick_dmem : (tick s).dmem = s.dmem := rfl
@[simp] theorem tick_rst : (tick s).rst = s.rst := rfl
@[simp] theorem tick_rdata : (tick s).rdata = s.rdata := rfl
@[simp] theorem tick_inputs : (tick s).inputs = s.inputs := rfl
@[simp] theorem tick_fresh : (tick s).fresh = s.fresh := rfl

end tick

section overrun
variable (s : State)

@[simp] theorem overrun_cfg : (overrun s).cfg = s.cfg := rfl
@[simp] theorem overrun_csr : (overrun s).csr = s.csr := rfl
@[simp] theorem overrun_outLen : (overrun s).outLen = s.outLen := rfl
@[simp] theorem overrun_busy : (overrun s).status.busy = s.status.busy := rfl
@[simp] theorem overrun_ovr : (overrun s).status.ovr = true := rfl
@[simp] theorem overrun_keys : (overrun s).keys = s.keys := rfl
@[simp] theorem overrun_regs : (overrun s).regs = s.regs := rfl
@[simp] theorem overrun_latch : (overrun s).latch = s.latch := rfl
@[simp] theorem overrun_cyclesLeft : (overrun s).cyclesLeft = s.cyclesLeft := rfl
@[simp] theorem overrun_dmem : (overrun s).dmem = s.dmem := rfl
@[simp] theorem overrun_rst : (overrun s).rst = s.rst := rfl

end overrun

section resetTo
variable (l : Bool) (m : Memory) (s : State)

@[simp] theorem resetTo_cfg : (resetTo l m s).cfg = s.cfg := rfl
@[simp] theorem resetTo_csr : (resetTo l m s).csr = Csrs.reset := rfl
@[simp] theorem resetTo_outLen : (resetTo l m s).outLen = 0 := rfl
@[simp] theorem resetTo_status : (resetTo l m s).status = Status.reset := rfl
@[simp] theorem resetTo_keys : (resetTo l m s).keys = KeyStore.reset := rfl
@[simp] theorem resetTo_regs : (resetTo l m s).regs = RunRegs.reset := rfl
@[simp] theorem resetTo_cyclesLeft : (resetTo l m s).cyclesLeft = 0 := rfl
@[simp] theorem resetTo_dmem : (resetTo l m s).dmem = m := rfl
@[simp] theorem resetTo_rst : (resetTo l m s).rst = l := rfl
@[simp] theorem resetTo_inputs : (resetTo l m s).inputs = s.inputs := rfl

end resetTo

section effects
variable (s : State) (out : Bytes) (n : Nat) (c : Code)

@[simp] theorem failure_code : (failure c).code = c := rfl
@[simp] theorem failure_staged : (failure c).staged = [] := rfl
@[simp] theorem failure_keys : (failure c).keys = none := rfl
@[simp] theorem failure_regs : (failure c).regs = none := rfl
@[simp] theorem failure_outLen : (failure c).outLen = 0 := rfl
@[simp] theorem success_code : success.code = .ok := rfl
@[simp] theorem success_staged : success.staged = [] := rfl
@[simp] theorem success_keys : success.keys = none := rfl
@[simp] theorem success_regs : success.regs = none := rfl
@[simp] theorem success_outLen : success.outLen = 0 := rfl
@[simp] theorem result_code : (result s out n).code = .ok := rfl
@[simp] theorem result_staged : (result s out n).staged = out := rfl
@[simp] theorem result_dst : (result s out n).dst = s.csr.dstPtr.toNat := rfl
@[simp] theorem result_outLen : (result s out n).outLen = n := rfl
@[simp] theorem result_keys : (result s out n).keys = none := rfl
@[simp] theorem result_regs : (result s out n).regs = none := rfl

end effects

end Sys2Proof.Machine
end

