-- ==== Sys2Proof/Laws/Memory.lean ====
section
/-! SUPPORT. DMEM: a read after a write, what a write leaves alone, and that every memory operation keeps the
canonical form and stays inside DMEM. -/

namespace Sys2Proof.Machine

@[simp] theorem readByte_nil (a : Nat) : readByte [] a = none := rfl

theorem readByte_writeByte (m : Memory) (a : Nat) (b : Byte) (x : Nat) :
    readByte (writeByte m a b) x = if x = a then some b else readByte m x := by
  induction m with
  | nil => simp only [writeByte, readByte, eq_comm]
  | cons c rest ih =>
    obtain ⟨k, v⟩ := c
    simp only [writeByte]
    split
    · simp only [readByte, eq_comm]
    · split
      · subst_vars
        simp only [readByte]
        grind
      · simp only [readByte, ih]
        grind

@[simp] theorem readByte_writeByte_same (m : Memory) (a : Nat) (b : Byte) :
    readByte (writeByte m a b) a = some b := by simp [readByte_writeByte]

theorem readByte_writeByte_other (m : Memory) {a x : Nat} (b : Byte) (h : x ≠ a) :
    readByte (writeByte m a b) x = readByte m x := by simp [readByte_writeByte, h]

theorem readByte_writeBytes (m : Memory) (p : Nat) (v : Bytes) (x : Nat) :
    readByte (writeBytes m p v) x =
      if h : p ≤ x ∧ x - p < v.length then some (v[x - p]'h.2) else readByte m x := by
  induction v generalizing m p with
  | nil => simp [writeBytes]
  | cons b bs ih =>
    simp only [writeBytes, ih, readByte_writeByte, List.length_cons]
    by_cases hx : x = p
    · subst hx
      simp
    · by_cases hp : p ≤ x
      · obtain ⟨d, rfl⟩ : ∃ d, x = p + 1 + d := ⟨x - (p + 1), by omega⟩
        have e1 : p + 1 + d - (p + 1) = d := by omega
        have e2 : p + 1 + d - p = d + 1 := by omega
        simp only [e1, e2, hx, List.getElem_cons_succ]
        by_cases hd : d < bs.length
        · simp [hd, show p ≤ p + 1 + d by omega]
        · simp [hd]
      · simp [hp, hx, show ¬ p + 1 ≤ x by omega]

/-- A written byte reads back. -/
theorem readByte_writeBytes_inside (m : Memory) (p : Nat) (v : Bytes) (i : Nat) (h : i < v.length) :
    readByte (writeBytes m p v) (p + i) = some v[i] := by
  rw [readByte_writeBytes, dif_pos ⟨by omega, by simpa using h⟩]
  simp

/-- A byte outside the written ones reads as before. -/
theorem readByte_writeBytes_outside (m : Memory) (p : Nat) (v : Bytes) (x : Nat)
    (h : ¬(p ≤ x ∧ x < p + v.length)) : readByte (writeBytes m p v) x = readByte m x := by
  rw [readByte_writeBytes, dif_neg]
  omega

theorem readBytes_eq_some {m : Memory} {p n : Nat} {v : Bytes} :
    readBytes m p n = some v ↔ v.length = n ∧ ∀ i (h : i < v.length), readByte m (p + i) = some v[i] := by
  induction n generalizing p v with
  | zero =>
    simp only [readBytes, Option.some.injEq, List.length_eq_zero_iff]
    constructor
    · rintro rfl; simp
    · rintro ⟨rfl, -⟩; rfl
  | succ n ih =>
    simp only [readBytes]
    constructor
    · intro h
      split at h
      · rename_i b bs hb hbs
        cases h
        obtain ⟨hl, hv⟩ := ih.mp hbs
        refine ⟨by simp [hl], fun i hi => ?_⟩
        cases i with
        | zero => simpa using hb
        | succ i => simpa [Nat.add_assoc, Nat.add_comm 1 i] using hv i (by simpa using hi)
      · cases h
    · rintro ⟨hl, hv⟩
      match v, hl with
      | b :: bs, hl =>
        have h0 : readByte m p = some b := hv 0 (by simp)
        have h1 : readBytes m (p + 1) n = some bs := by
          refine ih.mpr ⟨by simpa using hl, fun i hi => ?_⟩
          rw [show p + 1 + i = p + (i + 1) by omega]
          exact hv (i + 1) (by simpa using hi)
        simp [h0, h1]

theorem readBytes_length {m : Memory} {p n : Nat} {v : Bytes} (h : readBytes m p n = some v) : v.length = n :=
  (readBytes_eq_some.mp h).1

theorem readBytes_isSome_iff {m : Memory} {p n : Nat} :
    (readBytes m p n).isSome = true ↔ ∀ i < n, (readByte m (p + i)).isSome = true := by
  induction n generalizing p with
  | zero => simp [readBytes]
  | succ n ih =>
    have key : (readBytes m p (n + 1)).isSome = true ↔
        (readByte m p).isSome = true ∧ (readBytes m (p + 1) n).isSome = true := by
      simp only [readBytes]
      cases readByte m p <;> cases readBytes m (p + 1) n <;> simp
    rw [key, ih]
    constructor
    · rintro ⟨h0, h1⟩ i hi
      cases i with
      | zero => simpa using h0
      | succ i => simpa [Nat.add_assoc, Nat.add_comm 1 i] using h1 i (by omega)
    · intro h
      exact ⟨by simpa using h 0 (by omega), fun i hi => by
        simpa [Nat.add_assoc, Nat.add_comm 1 i] using h (i + 1) (by omega)⟩

/-- What was written reads back as one vector. -/
theorem readBytes_writeBytes_same (m : Memory) (p : Nat) (v : Bytes) :
    readBytes (writeBytes m p v) p v.length = some v :=
  readBytes_eq_some.mpr ⟨rfl, fun i h => readByte_writeBytes_inside m p v i h⟩

/-! ### Canonical form -/

theorem writeByte_keys {m : Memory} {a : Nat} {b : Byte} {c : Host.Cell} (h : c ∈ writeByte m a b) :
    c.1 = a ∨ c ∈ m := by
  induction m with
  | nil => simp_all [writeByte]
  | cons d rest ih =>
    obtain ⟨k, v⟩ := d
    simp only [writeByte] at h
    grind

/-- Writing a byte keeps the canonical form. -/
theorem writeByte_wf {m : Memory} (h : Memory.wf m) (a : Nat) (b : Byte) : Memory.wf (writeByte m a b) := by
  induction m with
  | nil => simp [writeByte, Memory.wf]
  | cons d rest ih =>
    obtain ⟨k, v⟩ := d
    have hr := ih (List.Pairwise.of_cons h)
    have hk : ∀ c ∈ rest, k < c.1 := fun c hc => List.rel_of_pairwise_cons h hc
    simp only [writeByte]
    split
    · refine List.Pairwise.cons (fun c hc => ?_) h
      rcases List.mem_cons.mp hc with rfl | hc
      · assumption
      · exact lt_trans (by assumption) (hk c hc)
    · split
      · subst_vars
        exact List.Pairwise.cons hk (List.Pairwise.of_cons h)
      · refine List.Pairwise.cons (fun c hc => ?_) hr
        rcases writeByte_keys hc with hc | hc
        · simp only; omega
        · exact hk c hc

/-- Writing bytes keeps the canonical form. -/
theorem writeBytes_wf {m : Memory} (h : Memory.wf m) (p : Nat) (v : Bytes) : Memory.wf (writeBytes m p v) := by
  induction v generalizing m p with
  | nil => exact h
  | cons b bs ih => exact ih (writeByte_wf h p b) (p + 1)

/-- Writing bytes in bounds stays inside DMEM. -/
theorem writeBytes_inside {m : Memory} {size : Nat} (h : Memory.inside m size) {p : Nat} {v : Bytes}
    (hb : v.length = 0 ∨ p + v.length ≤ size) : Memory.inside (writeBytes m p v) size := by
  induction v generalizing m p with
  | nil => exact h
  | cons b bs ih =>
    simp only [List.length_cons] at hb
    refine ih (m := writeByte m p b) (p := p + 1) (fun c hc => ?_) (by omega)
    rcases writeByte_keys hc with hc | hc
    · omega
    · exact h c hc

theorem reset_memory_wf : Memory.wf State.reset.dmem := List.Pairwise.nil

end Sys2Proof.Machine
end

