-- ==== Sys2Proof/Laws/Bus.lean ====
section
/-! SUPPORT. What a host access, a turn of WAIT's loop and a due completion can do, said once. -/

namespace Sys2Proof.Machine

@[simp] theorem targetOf_statusRead (size : Nat) : targetOf size statusRead = .csr .status := rfl

theorem statusWord_busy (st : Status) (k : KeyStore) : (statusWord st k).getLsbD 0 = st.busy := by
  simp only [statusWord, BitVec.getLsbD_append]
  simp

/-- A turn of WAIT's loop: STATUS is read, and WAIT stays exactly while BUSY = 1 (R102). -/
theorem waitTurn_eq {s : State} (hr : s.rst = false) :
    waitTurn s = .next (if s.status.busy
      then { s with rdata := readCsr s .status, inputs := .wait :: s.inputs }
      else { s with rdata := readCsr s .status }) := by
  have hv : readData s statusRead = .ok (readCsr s .status) := by simp [readData, hr]
  have h : (readCsr s .status).getLsbD 0 = s.status.busy := statusWord_busy _ _
  have ha : hostAccess statusRead s = .next { s with rdata := readCsr s .status } := by
    simp only [hostAccess, hv]
    rfl
  simp only [waitTurn, ha, h]

/-- What a host access leaves alone while a command runs: all that the command reads, and BUSY (R336, R70). -/
structure SnapshotKept (s t : State) : Prop where
  latch : t.latch = s.latch
  csr : t.csr = s.csr
  keys : t.keys = s.keys
  regs : t.regs = s.regs
  dmem : t.dmem = s.dmem
  cfg : t.cfg = s.cfg
  rst : t.rst = s.rst
  busy : t.status.busy = s.status.busy
  cyclesLeft : t.cyclesLeft = s.cyclesLeft

/-- While a command runs every host access answers a next state that keeps the command's snapshot and the inputs. -/
theorem hostAccess_busy {s : State} (hb : s.status.busy = true) (hr : s.rst = false) (a : Access) :
    ∃ t, hostAccess a s = .next t ∧ SnapshotKept s t ∧ t.inputs = s.inputs := by
  have kept {t : State} (h : t = { s with status := t.status, rdata := t.rdata }) (h2 : t.status.busy = s.status.busy) :
      SnapshotKept s t ∧ t.inputs = s.inputs := by
    rw [h]
    exact ⟨⟨rfl, rfl, rfl, rfl, rfl, rfl, rfl, h2, rfl⟩, rfl⟩
  unfold hostAccess
  split
  · refine ⟨_, rfl, ?_⟩
    unfold writeData
    split
    · next h =>
      rw [hr] at h
      cases h
    · split
      · rename_i r _
        cases r <;> exact kept (by simp [writeCsr, unlessBusy, hb, overrun, statusWrite])
          (by simp [writeCsr, unlessBusy, hb, overrun, statusWrite])
      · exact kept (by simp [unlessBusy, hb, overrun]) (by simp [unlessBusy, hb, overrun])
      · exact kept rfl rfl
  · have : ∃ v, readData s a = .ok v := by
      simp only [readData, hr, hb]
      split
      · next h => cases h
      · split <;> exact ⟨_, rfl⟩
    obtain ⟨v, hv⟩ := this
    rw [hv]
    exact ⟨_, rfl, kept rfl rfl⟩

/-- A command that is due is running, outside reset, with at most its last cycle left. -/
theorem ready_running {s : State} (h : ready s = true) :
    s.status.busy = true ∧ s.rst = false ∧ s.cyclesLeft ≤ 1 := by
  simp only [ready, Bool.and_eq_true, Bool.or_eq_true, Bool.not_eq_true', decide_eq_true_eq] at h
  obtain ⟨⟨hb, hr⟩, hc⟩ := h
  exact ⟨hb, hr, by omega⟩

/-- A running command with no cycle left is due. -/
theorem ready_of_elapsed {s : State} (hb : s.status.busy = true) (hr : s.rst = false) (hc : s.cyclesLeft = 0) :
    ready s = true := by
  simp [ready, hb, hr, hc]

/-- A clock cycle of a running command, in which the outside does nothing, waits or makes an access: the snapshot and
BUSY stay, one cycle is counted, and the oldest input goes, unless it is WAIT, which stays. -/
theorem step_running {s : State} (hn : ready s = false) (hb : s.status.busy = true) (hr : s.rst = false)
    (hi : ∀ e ∈ s.inputs.head?, e = .cycle ∨ e = .wait ∨ ∃ a, e = .access a) :
    ∃ t, step s = .next t ∧ SnapshotKept (tick s) t ∧
      t.inputs = if s.inputs.head? = some .wait then s.inputs else s.inputs.tail := by
  have hs : step s = clockCycle s := by simp [step, hn]
  rw [hs]
  unfold clockCycle
  match hx : s.inputs with
  | [] => exact ⟨tick s, rfl, ⟨rfl, rfl, rfl, rfl, rfl, rfl, rfl, rfl, rfl⟩, by simp [hx]⟩
  | e :: rest =>
    obtain rfl | rfl | ⟨a, rfl⟩ := hi e (by simp [hx])
    · exact ⟨_, rfl, ⟨rfl, rfl, rfl, rfl, rfl, rfl, rfl, rfl, rfl⟩, rfl⟩
    · refine ⟨_, waitTurn_eq hr, ?_⟩
      simp only [tick_status, hb, if_true]
      exact ⟨⟨rfl, rfl, rfl, rfl, rfl, rfl, rfl, rfl, rfl⟩, rfl⟩
    · obtain ⟨t, ht, hk, hin⟩ := hostAccess_busy (s := tick { s with inputs := rest }) hb hr a
      exact ⟨t, ht, ⟨hk.latch, hk.csr, hk.keys, hk.regs, hk.dmem, hk.cfg, hk.rst, hk.busy, hk.cyclesLeft⟩, hin⟩

/-- A run of one step more. -/
theorem run_succ {k : Nat} {s t : State} (h : step s = .next t) :
    Host.Core.run Sys2Proof.core (k + 1) s = Host.Core.run Sys2Proof.core k t := by
  simp only [Host.Core.run, show Sys2Proof.core.step s = _ from h]

/-- A run that stops at its first step. -/
theorem run_succ_fault {k : Nat} {s : State} {f : Fault} (h : step s = .fault f) :
    Host.Core.run Sys2Proof.core (k + 1) s = .fault f := by
  simp only [Host.Core.run, show Sys2Proof.core.step s = _ from h]

end Sys2Proof.Machine
end

