-- ==== Sys2Proof/Laws/Vectors.lean ====
section
/-! SUPPORT. The vector functions: lengths, elements, and that packing and unpacking a vector agree. -/

namespace Sys2Proof.Machine

/-! ### Digits -/

@[simp] theorem beDigits_length (base n x : Nat) : (beDigits base n x).length = n := by
  induction n generalizing x with
  | zero => rfl
  | succ n ih => simp [beDigits, ih]

theorem beNat_append_singleton (base : Nat) (ds : List Nat) (d : Nat) :
    beNat base (ds ++ [d]) = beNat base ds * base + d := by simp [beNat]

/-- The digits of a number make the number up again, modulo what they can hold. -/
theorem beNat_beDigits (base n x : Nat) : beNat base (beDigits base n x) = x % base ^ n := by
  induction n generalizing x with
  | zero => simp [beDigits, beNat, Nat.mod_one]
  | succ n ih =>
    rw [beDigits, beNat_append_singleton, ih, Nat.pow_succ', Nat.mod_mul]
    ring

theorem beNat_lt {base : Nat} {ds : List Nat} (h : ∀ d ∈ ds, d < base) : beNat base ds < base ^ ds.length := by
  induction ds using List.reverseRecOn with
  | nil => simp [beNat]
  | append_singleton ds d ih =>
    have hd : d < base := h d (by simp)
    have hi := ih fun x hx => h x (by simp [hx])
    rw [beNat_append_singleton, List.length_append, List.length_singleton, Nat.pow_succ]
    calc beNat base ds * base + d < beNat base ds * base + base := by omega
      _ = (beNat base ds + 1) * base := by ring
      _ ≤ base ^ ds.length * base := Nat.mul_le_mul_right _ hi

/-- A number's digits are its digits: writing out the value of digits gives them back. -/
theorem beDigits_beNat {base : Nat} {ds : List Nat} (h : ∀ d ∈ ds, d < base) :
    beDigits base ds.length (beNat base ds) = ds := by
  induction ds using List.reverseRecOn with
  | nil => rfl
  | append_singleton ds d ih =>
    have hd : d < base := h d (by simp)
    have hi := ih fun x hx => h x (by simp [hx])
    rw [List.length_append, List.length_singleton, beDigits, beNat_append_singleton]
    have e1 : (beNat base ds * base + d) / base = beNat base ds := by
      rw [Nat.mul_comm, Nat.mul_add_div (by omega), Nat.div_eq_of_lt hd, Nat.add_zero]
    have e2 : (beNat base ds * base + d) % base = d := by
      rw [Nat.mul_comm, Nat.mul_add_mod, Nat.mod_eq_of_lt hd]
    rw [e1, e2, hi]

@[simp] theorem beBytes_length (n x : Nat) : (beBytes n x).length = n := by simp [beBytes]

@[simp] theorem leBytes_length (n x : Nat) : (leBytes n x).length = n := by simp [leBytes]

@[simp] theorem bytesOf_length (b : Block128) : (bytesOf b).length = 16 := by simp [bytesOf]

theorem beInt_lt (v : Bytes) : beInt v < 256 ^ v.length := by
  have := beNat_lt (base := 256) (ds := v.map BitVec.toNat) (by simp only [List.mem_map]; rintro _ ⟨b, -, rfl⟩; exact b.isLt)
  simpa [beInt] using this

theorem beDigits_lt {base : Nat} (hb : 0 < base) (n x : Nat) : ∀ d ∈ beDigits base n x, d < base := by
  induction n generalizing x with
  | zero => simp [beDigits]
  | succ n ih =>
    simp only [beDigits, List.mem_append, List.mem_singleton]
    rintro d (hd | rfl)
    · exact ih _ d hd
    · exact Nat.mod_lt _ hb

/-- Digits pass unchanged through a conversion that is the identity below the base. -/
theorem map_map_of_lt {α : Type} {base : Nat} {f : Nat → α} {g : α → Nat} (hfg : ∀ d < base, g (f d) = d)
    {ds : List Nat} (h : ∀ d ∈ ds, d < base) : (ds.map f).map g = ds := by
  rw [List.map_map]
  conv_rhs => rw [← List.map_id ds]
  exact List.map_congr_left fun d hd => hfg d (h d hd)

theorem beInt_beBytes (n x : Nat) : beInt (beBytes n x) = x % 256 ^ n := by
  rw [beInt, beBytes, map_map_of_lt (base := 256) (fun d hd => ?_) (beDigits_lt (by omega) n x), beNat_beDigits]
  simp [Nat.mod_eq_of_lt hd]

theorem beBytes_beInt (v : Bytes) : beBytes v.length (beInt v) = v := by
  have h : ∀ d ∈ v.map BitVec.toNat, d < 256 := by
    simp only [List.mem_map]
    rintro _ ⟨b, -, rfl⟩
    exact b.isLt
  have := beDigits_beNat h
  rw [List.length_map] at this
  rw [beBytes, beInt, this, List.map_map]
  conv_rhs => rw [← List.map_id v]
  exact List.map_congr_left fun b _ => by simp

/-- A block's bytes make the block up again. -/
@[simp] theorem blockOf_bytesOf (b : Block128) : blockOf (bytesOf b) = b := by
  rw [blockOf, bytesOf, beInt_beBytes]
  apply BitVec.eq_of_toNat_eq
  have := b.isLt
  simp only [BitVec.toNat_ofNat]
  omega

/-- Sixteen bytes are their block's bytes. -/
theorem bytesOf_blockOf {v : Bytes} (h : v.length = 16) : bytesOf (blockOf v) = v := by
  have hlt := beInt_lt v
  rw [h] at hlt
  have : (blockOf v).toNat = beInt v := by
    rw [blockOf, BitVec.toNat_ofNat, Nat.mod_eq_of_lt]
    exact hlt
  rw [bytesOf, this, ← h, beBytes_beInt]

/-! ### Pieces -/

theorem chunksUpTo_length_le {α : Type} {n : Nat} (hn : 0 < n) (k : Nat) (v : List α) (h : v.length ≤ k) :
    (chunksUpTo n k v).length = (v.length + n - 1) / n := by
  induction k generalizing v with
  | zero =>
    obtain rfl := List.length_eq_zero_iff.mp (Nat.le_zero.mp h)
    simp [chunksUpTo, Nat.div_eq_of_lt (show n - 1 < n by omega)]
  | succ k ih =>
    match v with
    | [] => simp [chunksUpTo, Nat.div_eq_of_lt (show n - 1 < n by omega)]
    | x :: xs =>
      rw [chunksUpTo, List.length_cons, ih _ (by simp at h ⊢; omega), List.length_drop]
      simp only [List.length_cons]
      by_cases hle : n ≤ xs.length + 1
      · rw [show xs.length + 1 + n - 1 = (xs.length + 1 - n + n - 1) + n by omega, Nat.add_div_right _ hn]
      · rw [show xs.length + 1 - n = 0 by omega, Nat.zero_add, Nat.div_eq_of_lt (by omega : n - 1 < n)]
        rw [show xs.length + 1 + n - 1 = xs.length + n by omega, Nat.add_div_right _ hn,
          Nat.div_eq_of_lt (by omega)]

/-- The pieces are many enough to hold every element. -/
theorem chunks_length {α : Type} {n : Nat} (hn : 0 < n) (v : List α) :
    (chunks n v).length = (v.length + n - 1) / n := chunksUpTo_length_le hn _ _ le_rfl

theorem chunksUpTo_flatten {α : Type} {n : Nat} (hn : 0 < n) (k : Nat) (v : List α) (h : v.length ≤ k) :
    (chunksUpTo n k v).flatten = v := by
  induction k generalizing v with
  | zero =>
    obtain rfl := List.length_eq_zero_iff.mp (Nat.le_zero.mp h)
    rfl
  | succ k ih =>
    match v with
    | [] => rfl
    | x :: xs =>
      rw [chunksUpTo, List.flatten_cons, ih _ (by simp at h ⊢; omega), List.take_append_drop]

/-- The pieces in a row are the vector. -/
theorem chunks_flatten {α : Type} {n : Nat} (hn : 0 < n) (v : List α) : (chunks n v).flatten = v :=
  chunksUpTo_flatten hn _ _ le_rfl

theorem chunksUpTo_getElem? {α : Type} {n : Nat} (hn : 0 < n) (k : Nat) (v : List α) (h : v.length ≤ k) (i : Nat) :
    (chunksUpTo n k v)[i]? = if i * n < v.length then some ((v.drop (i * n)).take n) else none := by
  induction k generalizing v i with
  | zero =>
    obtain rfl := List.length_eq_zero_iff.mp (Nat.le_zero.mp h)
    simp [chunksUpTo]
  | succ k ih =>
    match v with
    | [] => simp [chunksUpTo]
    | x :: xs =>
      rw [chunksUpTo]
      cases i with
      | zero => simp
      | succ i =>
        rw [List.getElem?_cons_succ, ih _ (by simp at h ⊢; omega), List.length_drop, List.drop_drop]
        rw [show (i + 1) * n = n + i * n by ring]
        congr 1
        simp only [eq_iff_iff]
        omega

/-- Piece `i` is the `n` elements from `i * n`. -/
theorem chunks_getElem? {α : Type} {n : Nat} (hn : 0 < n) (v : List α) (i : Nat) :
    (chunks n v)[i]? = if i * n < v.length then some ((v.drop (i * n)).take n) else none :=
  chunksUpTo_getElem? hn _ _ le_rfl i

/-- A vector of whole blocks has whole pieces. -/
theorem length_of_mem_chunks {α : Type} {n : Nat} (hn : 0 < n) {v c : List α} (hv : v.length % n = 0)
    (hc : c ∈ chunks n v) : c.length = n := by
  obtain ⟨i, hi⟩ := List.mem_iff_getElem?.mp hc
  rw [chunks_getElem? hn] at hi
  split at hi
  · cases hi
    obtain ⟨q, hq⟩ := Nat.dvd_of_mod_eq_zero hv
    rename_i h
    rw [hq] at h
    have hiq : i < q := by
      rw [Nat.mul_comm] at h
      exact lt_of_mul_lt_mul_left h (Nat.zero_le n)
    have : (i + 1) * n ≤ v.length := by
      rw [hq, Nat.mul_comm n q]
      exact Nat.mul_le_mul_right n hiq
    rw [List.length_take, List.length_drop]
    have : (i + 1) * n = i * n + n := by ring
    omega
  · cases hi

/-- No piece is longer than `n`. -/
theorem length_le_of_mem_chunks {α : Type} {n : Nat} (hn : 0 < n) {v c : List α} (hc : c ∈ chunks n v) :
    c.length ≤ n := by
  obtain ⟨i, hi⟩ := List.mem_iff_getElem?.mp hc
  rw [chunks_getElem? hn] at hi
  split at hi
  · cases hi
    simp
  · cases hi

/-! ### Bits and bytes -/

@[simp] theorem bitsOfByte_length (b : Byte) : (bitsOfByte b).length = 8 := by simp [bitsOfByte]

theorem bitsOfByte_getElem? (b : Byte) {i : Nat} (h : i < 8) : (bitsOfByte b)[i]? = some (b.getMsbD i) := by
  simp [bitsOfByte, h]

@[simp] theorem bits_length (v : Bytes) : (bits v).length = 8 * v.length := by
  induction v with
  | nil => rfl
  | cons b bs ih => simp only [bits, List.flatMap_cons, List.length_append, bitsOfByte_length] at ih ⊢; simp [ih]; omega

/-- Element i of bits(v) is bit 7 − i mod 8 of byte i div 8 (R9). -/
theorem bits_getElem? (v : Bytes) (i : Nat) : (bits v)[i]? = (v[i / 8]?).map fun b => b.getMsbD (i % 8) := by
  induction v generalizing i with
  | nil => simp [bits]
  | cons b bs ih =>
    rw [bits, List.flatMap_cons]
    by_cases h : i < 8
    · rw [List.getElem?_append_left (by simpa using h), bitsOfByte_getElem? b h]
      simp [Nat.div_eq_of_lt h, Nat.mod_eq_of_lt h]
    · rw [List.getElem?_append_right (by simpa using h), bitsOfByte_length]
      have := ih (i - 8)
      rw [bits] at this
      rw [this, show i / 8 = (i - 8) / 8 + 1 by omega, List.getElem?_cons_succ, show (i - 8) % 8 = i % 8 by omega]

theorem beDigits_two_of_byte (b : Byte) : beDigits 2 8 b.toNat = (bitsOfByte b).map Bool.toNat := by
  revert b
  decide +kernel

theorem beNat_bits_eight : ∀ b : Byte, BitVec.ofNat 8 (beNat 2 ((bitsOfByte b).map Bool.toNat)) = b := by
  decide +kernel

/-- A full byte's bits make the byte up again. -/
@[simp] theorem byteOfBits_bitsOfByte (b : Byte) : byteOfBits (bitsOfByte b) = b := by
  simpa [byteOfBits] using beNat_bits_eight b

theorem bitsOfByte_byteOfBits_full : ∀ a b c d e f g h : Bool,
    bitsOfByte (byteOfBits [a, b, c, d, e, f, g, h]) = [a, b, c, d, e, f, g, h] := by decide +kernel

theorem byteOfBits_pad (v : Bits) (h : v.length ≤ 8) :
    byteOfBits (v ++ List.replicate (8 - v.length) false) = byteOfBits v := by
  simp [byteOfBits, h]

/-- The bits of a packed byte: the given bits, then zeros. -/
theorem bitsOfByte_byteOfBits (v : Bits) (h : v.length ≤ 8) :
    bitsOfByte (byteOfBits v) = v ++ List.replicate (8 - v.length) false := by
  rw [← byteOfBits_pad v h]
  have hl : (v ++ List.replicate (8 - v.length) false).length = 8 := by simp; omega
  generalize v ++ List.replicate (8 - v.length) false = w at hl
  match w, hl with
  | [a, b, c, d, e, f, g, i], _ => exact bitsOfByte_byteOfBits_full a b c d e f g i

theorem bytes_length (v : Bits) : (bytes v).length = (v.length + 7) / 8 := by
  rw [bytes, List.length_map, chunks_length (by omega)]
  omega

theorem bytes_getElem? (v : Bits) (i : Nat) :
    (bytes v)[i]? = if i * 8 < v.length then some (byteOfBits ((v.drop (i * 8)).take 8)) else none := by
  rw [bytes, List.getElem?_map, chunks_getElem? (by omega)]
  split <;> rfl

/-- Bit i of the packed bytes: element i, and 0 beyond the vector (R9, R66). -/
theorem bits_bytes_getElem? (v : Bits) (i : Nat) (h : i < 8 * ((v.length + 7) / 8)) :
    (bits (bytes v))[i]? = some (v.getD i false) := by
  rw [bits_getElem?, bytes_getElem?, if_pos (by omega), Option.map_some]
  congr 1
  have hl : ((v.drop (i / 8 * 8)).take 8).length ≤ 8 := by simp
  have h8 : i % 8 < 8 := Nat.mod_lt _ (by omega)
  have key := bitsOfByte_getElem? (byteOfBits ((v.drop (i / 8 * 8)).take 8)) h8
  rw [bitsOfByte_byteOfBits _ hl] at key
  rw [List.getD_eq_getElem?_getD]
  by_cases hi : i < v.length
  · rw [List.getElem?_append_left (by simp; omega)] at key
    rw [List.getElem?_take, if_pos h8, List.getElem?_drop, show i / 8 * 8 + i % 8 = i by omega] at key
    simp [key]
  · rw [List.getElem?_append_right (by simp; omega)] at key
    rw [List.getElem?_replicate] at key
    split at key
    · rw [List.getElem?_eq_none (by omega)]
      simpa using key.symm
    · cases key

/-- Unpacking a packed vector gives it back. -/
theorem take_bits_bytes (v : Bits) : (bits (bytes v)).take v.length = v := by
  refine List.ext_getElem? fun i => ?_
  rw [List.getElem?_take]
  split
  · rename_i h
    rw [bits_bytes_getElem? v i (by omega), List.getD_eq_getElem?_getD, List.getElem?_eq_getElem h]
    rfl
  · rw [List.getElem?_eq_none (by omega)]

/-- bytes is the inverse of bits. -/
@[simp] theorem bytes_bits (v : Bytes) : bytes (bits v) = v := by
  have hl : (bytes (bits v)).length = v.length := by rw [bytes_length, bits_length]; omega
  refine List.ext_getElem? fun i => ?_
  rw [bytes_getElem?, bits_length]
  by_cases h : i < v.length
  · rw [if_pos (by omega), List.getElem?_eq_getElem h]
    congr 1
    rw [← byteOfBits_bitsOfByte v[i]]
    congr 1
    refine List.ext_getElem? fun j => ?_
    rw [List.getElem?_take]
    split
    · rename_i hj
      rw [List.getElem?_drop, bits_getElem?, show (i * 8 + j) / 8 = i by omega, List.getElem?_eq_getElem h,
        show (i * 8 + j) % 8 = j by omega, bitsOfByte_getElem? _ hj]
      rfl
    · rw [List.getElem?_eq_none]
      simp
      omega
  · rw [if_neg (by omega), List.getElem?_eq_none (by omega)]

/-! ### Element kinds -/

/-- What packing and unpacking do, for either kind. -/
structure LawfulKind {α : Type} (k : Kind α) : Prop where
  pack_length : ∀ v : List α, (k.pack v).length = k.nb v.length
  unpack_length : ∀ n (v : Bytes), v.length = k.nb n → (k.unpack n v).length = n
  unpack_pack : ∀ v : List α, k.unpack v.length (k.pack v) = v

theorem byteKind_lawful : LawfulKind byteKind where
  pack_length _ := rfl
  unpack_length n v h := by simp only [byteKind] at h ⊢; simp [h]
  unpack_pack v := by simp [byteKind]

theorem bitKind_lawful : LawfulKind bitKind where
  pack_length v := bytes_length v
  unpack_length n v h := by
    simp only [bitKind] at h ⊢
    simp [h]
    omega
  unpack_pack v := take_bits_bytes v

/-! ### The container operations -/

@[simp] theorem xorVec_length {α : Type} (k : Kind α) (a b : List α) : (xorVec k a b).length = a.length := by
  simp [xorVec]

theorem xorVec_getElem? {α : Type} (k : Kind α) (a b : List α) (i : Nat) :
    (xorVec k a b)[i]? = (a[i]?).map fun x => k.xorElem x (b.getD (i % b.length) k.zero) := by
  simp [xorVec, List.getElem?_zipIdx]
  cases a[i]? <;> simp

@[simp] theorem xorBytes_length (a b : Bytes) : (xorBytes a b).length = a.length := xorVec_length _ _ _

@[simp] theorem xorBits_length (a b : Bits) : (xorBits a b).length = a.length := xorVec_length _ _ _

/-- Applying the same operand twice gives the first operand back. -/
theorem xorVec_xorVec {α : Type} (k : Kind α) (hk : ∀ x y, k.xorElem (k.xorElem x y) y = x) (a b : List α) :
    xorVec k (xorVec k a b) b = a := by
  refine List.ext_getElem? fun i => ?_
  rw [xorVec_getElem?, xorVec_getElem?]
  cases a[i]? with
  | none => rfl
  | some x => simp [hk]

@[simp] theorem xorBytes_xorBytes (a b : Bytes) : xorBytes (xorBytes a b) b = a :=
  xorVec_xorVec byteKind (fun x y => by simp [byteKind]) a b

@[simp] theorem xorBits_xorBits (a b : Bits) : xorBits (xorBits a b) b = a :=
  xorVec_xorVec bitKind (fun x y => by simp [bitKind]) a b

@[simp] theorem permVec_length {α : Type} (z : α) (v : List α) (ix : List Nat) : (permVec z v ix).length = ix.length := by
  simp [permVec]

@[simp] theorem alignVec_length {α : Type} (v : List α) (n : Nat) (f : α) : (alignVec v n f).length = n := by
  unfold alignVec
  split
  · simp; omega
  · simp; omega

@[simp] theorem incVec_length {α : Type} (k : Kind α) (v : List α) : (incVec k v).length = v.length := by
  simp [incVec]

@[simp] theorem inc32Vec_length {α : Type} (k : Kind α) (v : List α) : (inc32Vec k v).length = v.length := by
  simp only [inc32Vec, List.length_append, List.length_take, incVec_length, List.length_drop]
  omega

@[simp] theorem beBits_length (n x : Nat) : (beBits n x).length = n := by simp [beBits]

end Sys2Proof.Machine
end

