-- ==== Sys2Proof/Laws/Ops.lean ====
section
/-! SUPPORT. What each shared operation of a command can do, said once: the checks, the reads, and the ways a
command ends. -/

namespace Sys2Proof.Machine

/-! ### Checks -/

@[simp] theorem check_true (c : Code) : check true c = .ok () := rfl

@[simp] theorem check_false (c : Code) : check false c = .error (.code c) := rfl

theorem check_eq_ok {b : Bool} {c : Code} {u : Unit} : check b c = .ok u ↔ b = true := by
  cases b <;> simp [check]

theorem check_eq_error {b : Bool} {c : Code} {e : Stop} : check b c = .error e ↔ b = false ∧ e = .code c := by
  cases b <;> simp [check, eq_comm]

/-- A computation after a step that may stop: what its success means. -/
theorem bind_eq_ok {α β : Type} {x : Except Stop α} {f : α → Except Stop β} {b : β} :
    (x >>= f) = .ok b ↔ ∃ a, x = .ok a ∧ f a = .ok b := by
  cases x <;> simp [bind, Except.bind]

/-- What its stop means. -/
theorem bind_eq_error {α β : Type} {x : Except Stop α} {f : α → Except Stop β} {e : Stop} :
    (x >>= f) = .error e ↔ x = .error e ∨ ∃ a, x = .ok a ∧ f a = .error e := by
  cases x <;> simp [bind, Except.bind]

@[simp] theorem ok_bind {α β : Type} (a : α) (f : α → Except Stop β) : ((.ok a : Except Stop α) >>= f) = f a := rfl

@[simp] theorem error_bind {α β : Type} (e : Stop) (f : α → Except Stop β) :
    ((.error e : Except Stop α) >>= f) = .error e := rfl

@[simp] theorem pure_eq_ok {α : Type} (a : α) : (pure a : Except Stop α) = .ok a := rfl

theorem inBounds_iff {size : Nat} {r : Range} : inBounds size r = true ↔ FitsIn size r := by
  simp [inBounds, FitsIn]

theorem meets_iff {a b : Range} : meets a b = true ↔ Meets a b := by
  simp [meets, Meets, and_assoc]

theorem conflicts_iff {d : Range} {i : Range × Mark} :
    conflicts d i = true ↔ Meets d i.1 ∧ ¬(i.2 = .inPlace ∧ d.ptr = i.1.ptr) := by
  obtain ⟨r, m⟩ := i
  cases m <;> simp [conflicts, meets_iff]

theorem checkBounds_eq_ok {s : State} {rs : List Range} {u : Unit} :
    checkBounds s rs = .ok u ↔ ∀ r ∈ rs, FitsIn s.cfg.dmemSize r := by
  simp [checkBounds, check_eq_ok, inBounds_iff]

theorem checkOverlap_eq_ok {d : Range} {ins : List (Range × Mark)} {u : Unit} :
    checkOverlap d ins = .ok u ↔ MayWrite d ins := by
  simp only [checkOverlap, check_eq_ok, Bool.not_eq_true', List.any_eq_false, conflicts_iff, MayWrite]
  grind

/-- BOUNDS and OVERLAP pass exactly when the command's ranges are right; the destination is answered. -/
theorem checkRanges_eq_ok {s : State} {d r : Range} {ins : List (Range × Mark)} :
    checkRanges s d ins = .ok r ↔ r = d ∧ RangesOk s d ins := by
  simp only [checkRanges, bind_eq_ok, checkBounds_eq_ok, checkOverlap_eq_ok, pure_eq_ok, Except.ok.injEq,
    List.mem_cons, List.mem_map, RangesOk, AllFit]
  grind

/-- BOUNDS is raised exactly when some range is out of bounds (R67, R325). -/
theorem checkRanges_eq_bounds {s : State} {d : Range} {ins : List (Range × Mark)} :
    checkRanges s d ins = .error (.code .bounds) ↔ ¬AllFit s d ins := by
  by_cases h : checkBounds s (d :: ins.map Prod.fst) = .ok ()
  · have h' := checkBounds_eq_ok.mp h
    simp only [checkRanges, h, ok_bind, checkOverlap, bind_eq_error, check_eq_error, pure_eq_ok]
    simp only [List.mem_cons, List.mem_map] at h'
    simp only [AllFit]
    grind
  · have : checkBounds s (d :: ins.map Prod.fst) = .error (.code .bounds) := by
      simp only [checkBounds, check_eq_ok, check_eq_error] at h ⊢
      simpa using h
    rw [checkBounds_eq_ok] at h
    simp only [List.mem_cons, List.mem_map] at h
    simp only [checkRanges, this, error_bind, true_iff, AllFit]
    grind

/-- OVERLAP is raised exactly when all ranges fit and the destination may not be written (R69, R326). -/
theorem checkRanges_eq_overlap {s : State} {d : Range} {ins : List (Range × Mark)} :
    checkRanges s d ins = .error (.code .overlap) ↔ AllFit s d ins ∧ ¬MayWrite d ins := by
  rw [← checkOverlap_eq_ok (u := ())]
  by_cases hb : AllFit s d ins
  · have h : checkBounds s (d :: ins.map Prod.fst) = .ok () := by
      rw [checkBounds_eq_ok]
      simp only [List.mem_cons, List.mem_map]
      rintro r (rfl | ⟨i, hi, rfl⟩)
      · exact hb.1
      · exact hb.2 i hi
    simp only [checkRanges, h, ok_bind, checkOverlap, check_eq_ok, bind_eq_error, check_eq_error, pure_eq_ok]
    simp
    exact fun _ _ _ _ => hb
  · have h := checkRanges_eq_bounds.mpr hb
    simp [h, hb]

theorem readRange_eq_ok {s : State} {r : Range} {v : Bytes} :
    readRange s r = .ok v ↔ readBytes s.dmem r.ptr r.len = some v := by
  unfold readRange
  split <;> simp_all

theorem readRange_length {s : State} {r : Range} {v : Bytes} (h : readRange s r = .ok v) : v.length = r.len :=
  readBytes_length (readRange_eq_ok.mp h)

/-- A read never raises an error code: it answers, or meets an unwritten byte. -/
theorem readRange_eq_error {s : State} {r : Range} {e : Stop} :
    readRange s r = .error e ↔ e = .fault .unwrittenInput ∧ HoldsUnwritten s r := by
  have key : readBytes s.dmem r.ptr r.len = none ↔ HoldsUnwritten s r := by
    rw [← Option.not_isSome_iff_eq_none, readBytes_isSome_iff, HoldsUnwritten]
    push Not
    simp
  unfold readRange
  split
  · rename_i h
    simp [← key, h]
  · rename_i h
    simp [← key, h, eq_comm]

/-- A range whose bytes are all written is read. -/
theorem readRange_of_written {s : State} {r : Range} (h : Written s r) : ∃ v, readRange s r = .ok v := by
  obtain ⟨v, hv⟩ := Option.isSome_iff_exists.mp (readBytes_isSome_iff.mpr h)
  exact ⟨v, readRange_eq_ok.mpr hv⟩

/-! ### Ends of a command -/

@[simp] theorem finish_ok (s : State) (e : Effect) : finish s (.ok e) = .next (complete e s) := rfl

@[simp] theorem finish_code (s : State) (c : Code) : finish s (.error (.code c)) = .next (complete (failure c) s) := rfl

@[simp] theorem finish_fault (s : State) (f : Fault) : finish s (.error (.fault f)) = .fault f := rfl

/-- A command that ends in a next state completed, with its effect or with an error code. -/
theorem finish_eq_next {s t : State} {r : Except Stop Effect} :
    finish s r = .next t ↔
      ∃ e, t = complete e s ∧ (r = .ok e ∨ ∃ c, r = .error (.code c) ∧ e = failure c) := by
  match r with
  | .ok e => simp [eq_comm]
  | .error (.code c) => simp [eq_comm]
  | .error (.fault f) => simp

theorem finish_ne_refused {s : State} {r : Except Stop Effect} {x : Refusal} : finish s r ≠ .refused x := by
  match r with
  | .ok e => simp
  | .error (.code c) => simp
  | .error (.fault f) => simp

/-- Every completion keeps what no command changes. -/
theorem kept_complete (e : Effect) (s : State) : Kept s (complete e s) := ⟨rfl, rfl, rfl, rfl, rfl, rfl, rfl⟩

/-- A completion, in the words of the statements. -/
theorem completes_complete (e : Effect) (s : State) :
    Completes s (complete e s) e.code (if e.code = .ok then e.outLen else 0) :=
  ⟨rfl, by simp only [complete_outLen]; split <;> rfl, rfl, kept_complete e s⟩

theorem onlyWrote_complete (e : Effect) (s : State) : OnlyWrote s (complete e s) e.dst e.staged.length :=
  fun a h => readByte_writeBytes_outside _ _ _ a h

end Sys2Proof.Machine
end

