-- ==== Sys2Proof/Laws/Transforms.lean ====
section
/-! SUPPORT. Lengths of the block transforms, the padding and the mode sequencer: what lets a command's result
fill exactly the range it checked. -/

namespace Sys2Proof.Machine

/-! ### Block transforms -/

@[simp] theorem permTable_length (v : Bits) (t : List Nat) : (permTable v t).length = t.length := by
  simp [permTable]

@[simp] theorem desBlock_length (x : Bytes) (ks : List SubKey) : (desBlock x ks).length = 8 := by
  simp [desBlock, bytes_length, tableFP]

@[simp] theorem desE_length (k : Schedule) (x : Bytes) : (desE k x).length = 8 := desBlock_length _ _

@[simp] theorem desD_length (k : Schedule) (x : Bytes) : (desD k x).length = 8 := desBlock_length _ _

theorem blockSize_pos (a : Alg) : 0 < blockSize a := by cases a <;> decide

theorem alg_ne_reserved {s : State} (h : cipherConfigOk s = true) : algOf s.csr.ctrl ≠ .reserved := by
  intro e
  simp [cipherConfigOk, e] at h

/-- T answers a whole block. -/
theorem blockT_length {s : State} (h : algOf s.csr.ctrl ≠ .reserved) (x : Bytes) :
    (blockT s x).length = blockSize (algOf s.csr.ctrl) := by
  unfold blockT
  split <;> simp_all [blockSize, tdesE, extF]

/-- Tinv answers a whole block. -/
theorem blockTinv_length {s : State} (h : algOf s.csr.ctrl ≠ .reserved) (x : Bytes) :
    (blockTinv s x).length = blockSize (algOf s.csr.ctrl) := by
  unfold blockTinv
  split <;> simp_all [blockSize, tdesD, extInv]

/-! ### Padding -/

theorem padTail_length (p : PadCfg) (n : Nat) : n + (padTail p n).length = paddedLen p n := by
  unfold padTail paddedLen
  cases p.scheme
  · rfl
  · simp
  · simp
  · simp only [List.length_cons, List.length_append, List.length_replicate, lengthField]
    split <;> simp <;> omega

@[simp] theorem padBytes_length (p : PadCfg) (m : Bytes) : (padBytes p m).length = paddedLen p m.length := by
  rw [padBytes, List.length_append, padTail_length]

/-- Every scheme but NONE fills whole blocks (R282, R284, R286). -/
theorem paddedLen_mod (p : PadCfg) (hb : 0 < p.block) (hs : p.scheme ≠ .none) (n : Nat) :
    paddedLen p n % p.block = 0 := by
  have hlt : n % p.block < p.block := Nat.mod_lt _ hb
  have hn : n = p.block * (n / p.block) + n % p.block := (Nat.div_add_mod _ _).symm
  have hdvd : ∀ k, n % p.block + k = p.block → (n + k) % p.block = 0 := fun k hk => by
    have : n + k = p.block * (n / p.block + 1) := by rw [Nat.mul_add, Nat.mul_one]; omega
    rw [this, Nat.mul_mod_right]
  unfold paddedLen
  cases hc : p.scheme
  · exact absurd hc hs
  · exact hdvd _ (by omega)
  · rcases Nat.eq_zero_or_pos (n % p.block) with h0 | h0
    · simp only [h0, Nat.sub_zero, Nat.mod_self, Nat.add_zero]
    · simp only
      rw [Nat.mod_eq_of_lt (by omega : p.block - n % p.block < p.block)]
      exact hdvd _ (by omega)
  · have hz : ((bitZeros p n : Nat) : Int) = ((p.block : Int) - p.field - (n + 1)) % (p.block : Int) := by
      rw [bitZeros, Int.toNat_of_nonneg (Int.emod_nonneg _ (by omega))]
    have : ((n + 1 + bitZeros p n + p.field : Nat) : Int) % (p.block : Int) = 0 := by
      push_cast
      rw [hz, show (n : Int) + 1 + ((p.block : Int) - p.field - (n + 1)) % p.block + p.field
        = ((p.block : Int) - p.field - (n + 1)) % p.block + (n + 1 + p.field) by ring, Int.emod_add_emod]
      rw [show (p.block : Int) - p.field - (n + 1) + (n + 1 + p.field) = p.block by ring, Int.emod_self]
    exact_mod_cast this

/-! ### The mode sequencer -/

/-- ECB and CBC, whose blocks must be whole. -/
def wholeBlocks : Mode → Bool
  | .ecb | .cbc => true
  | .cfb | .ofb | .ctr => false

theorem modeStep_length {t tinv : Bytes → Bytes} {b : Nat} (ht : ∀ x, (t x).length = b)
    (hi : ∀ x, (tinv x).length = b) (m : Mode) (d : Dir) (fb x : Bytes) (hx : wholeBlocks m = true → x.length = b) :
    (modeStep t tinv m d fb x).1.length = x.length := by
  cases m <;> cases d <;> simp_all [modeStep, wholeBlocks]

/-- The block loop keeps the message's length. -/
theorem modeBlocks_length {t tinv : Bytes → Bytes} {b : Nat} (ht : ∀ x, (t x).length = b)
    (hi : ∀ x, (tinv x).length = b) (m : Mode) (d : Dir) (fb : Bytes) (xs : List Bytes)
    (hx : wholeBlocks m = true → ∀ x ∈ xs, x.length = b) :
    (modeBlocks t tinv m d fb xs).1.length = xs.flatten.length := by
  induction xs generalizing fb with
  | nil => rfl
  | cons x xs ih =>
    simp only [modeBlocks, List.length_append, List.flatten_cons]
    rw [modeStep_length ht hi m d fb x fun h => hx h x (by simp), ih _ fun h y hy => hx h y (by simp [hy])]

theorem alignOk_whole {m : Mode} {d : Dir} {ctrl : Word} {n : Nat} (h : alignOk m d ctrl n = true)
    (hm : wholeBlocks m = true) : runExtent d ctrl n % blockSize (algOf ctrl) = 0 := by
  cases d
  · by_cases hs : schemeOf ctrl = .none
    · have hn : paddedLen (padCfg ctrl) n = n := by simp [paddedLen, padCfg, hs]
      simp only [runExtent, hn]
      cases m <;> simp_all [alignOk, wholeBlocks]
    · exact paddedLen_mod (padCfg ctrl) (blockSize_pos _) hs n
  · cases m <;> simp_all [alignOk, wholeBlocks, runExtent]

/-- A RUN stages exactly its write extent (R212). -/
theorem runEffect_staged_length {m : Mode} {d : Dir} {s : State} (hc : cipherConfigOk s = true) {fb msg : Bytes}
    (ha : alignOk m d s.csr.ctrl msg.length = true) :
    (runEffect m d s fb msg).staged.length = runExtent d s.csr.ctrl msg.length := by
  have hr := alg_ne_reserved hc
  have hb := blockSize_pos (algOf s.csr.ctrl)
  have key : ∀ v : Bytes, (wholeBlocks m = true → v.length % blockSize (algOf s.csr.ctrl) = 0) →
      (modeBlocks (blockT s) (blockTinv s) m d fb (chunks (blockSize (algOf s.csr.ctrl)) v)).1.length = v.length := by
    intro v hv
    rw [modeBlocks_length (blockT_length hr) (blockTinv_length hr) m d fb _ fun hm x hx =>
      length_of_mem_chunks hb (hv hm) hx, chunks_flatten hb]
  cases d
  · simp only [runEffect, result_staged]
    rw [key _ fun hm => ?_, padBytes_length, runExtent]
    simpa [runExtent] using alignOk_whole ha hm
  · simp only [runEffect]
    have hk := key msg fun hm => alignOk_whole ha hm
    split
    · simpa [runExtent] using hk
    · simpa [runExtent] using hk

/-! ### GCM -/

@[simp] theorem gctrBlocks_length (t : Bytes → Bytes) (c : Bytes) (ms : List Bytes) :
    (gctrBlocks t c ms).1.length = ms.flatten.length := by
  induction ms generalizing c with
  | nil => rfl
  | cons m ms ih => simp only [gctrBlocks, List.length_append, xorBytes_length, ih, List.flatten_cons]

@[simp] theorem gctr_length (t : Bytes → Bytes) (j0 m : Bytes) : (gctr t j0 m).1.length = m.length := by
  rw [gctr, gctrBlocks_length, chunks_flatten (by omega)]

@[simp] theorem gcmTag_length (t : Bytes → Bytes) (j0 aad c : Bytes) : (gcmTag t j0 aad c).length = 16 := by
  simp [gcmTag]

/-! ### Unpadding -/

/-- Unpadding never makes a message longer. -/
theorem unpadBytes_length_le {p : PadCfg} {m u : Bytes} (h : unpadBytes p m = some u) : u.length ≤ m.length := by
  unfold unpadBytes at h
  split at h
  · cases h; exact le_rfl
  · split at h
    · cases h
    · split at h
      · cases h
      · cases h
        simp
  · cases h
    rw [List.length_reverse]
    exact le_trans (List.length_dropWhile_le _ _) (by simp)
  · split at h
    · cases h
    · rw [Option.ite_none_left_eq_some] at h
      obtain ⟨-, h⟩ := h
      cases h
      simp

end Sys2Proof.Machine
end

