-- ==== Sys2Proof/Laws/Exec.lean ====
section
/-! SUPPORT. What a completing command can do, said once for all 33: the effect it completes with, where that
effect writes, and what it leaves alone. -/

namespace Sys2Proof.Machine

/-- The ten plain-mode decrypts and encrypts: RUN without GCM. -/
def isPlainDecrypt : Instr → Bool
  | .runEcbD | .runCbcD | .runCfbD | .runOfbD | .runCtrD => true
  | _ => false

/-- Everything an effect of `i` from `s` obeys. -/
structure EffectOk (i : Instr) (s : State) (e : Effect) : Prop where
  /-- Staged bytes fill the destination range that passed its checks, and go there. -/
  writes : e.staged = [] ∨ ∃ r, destination i s = .ok r ∧ e.dst = r.ptr ∧ e.staged.length = r.len
  /-- Only LOAD_KEY and ZEROIZE touch the key store. -/
  keys : ∀ k, e.keys = some k →
    (i = .zeroize ∧ k = KeyStore.reset) ∨ (i = .loadKey ∧ preLoadKey s = .ok () ∧ ∃ b, k = loadedKeys s.csr.ctrl b)
  /-- Only RUN touches its registers. -/
  regs : usesRunRegs i = false → e.regs.getD s.regs = s.regs
  /-- An error stages nothing and updates no key, but a plain decrypt's PAD stages (R332, R333). -/
  failed : e.code ≠ .ok → e.keys = none ∧ (e.staged = [] ∨ (e.code = .pad ∧ isPlainDecrypt i = true))

theorem effectOk_failure (i : Instr) (s : State) (c : Code) : EffectOk i s (failure c) :=
  ⟨.inl rfl, fun _ h => by simp at h, fun _ => rfl, fun _ => ⟨rfl, .inl rfl⟩⟩

/-- A command that stages one result in the range its checks answered. -/
theorem effectOk_result {i : Instr} {s : State} {out : Bytes} {n : Nat} {r : Range} (hd : destination i s = .ok r)
    (hp : r.ptr = s.csr.dstPtr.toNat) (hl : out.length = r.len) : EffectOk i s (result s out n) :=
  ⟨.inr ⟨r, hd, by simp [hp], by simpa using hl⟩, fun _ h => by simp at h, fun _ => rfl, fun h => absurd rfl h⟩

theorem checkRanges_dst {s : State} {d r : Range} {ins : List (Range × Mark)} (h : checkRanges s d ins = .ok r) :
    r = d := (checkRanges_eq_ok.mp h).1

/-- Ends of `finish` over an effect that obeys the rules. -/
theorem finish_effect {i : Instr} {s t : State} {r : Except Stop Effect} (h : finish s r = .next t)
    (hr : ∀ e, r = .ok e → EffectOk i s e) : ∃ e, t = complete e s ∧ EffectOk i s e := by
  obtain ⟨e, rfl, he | ⟨c, -, rfl⟩⟩ := finish_eq_next.mp h
  · exact ⟨e, rfl, hr e he⟩
  · exact ⟨_, rfl, effectOk_failure i s c⟩

theorem execBlock_effect {i : Instr} {s t : State} {f : Bytes → Bytes} (hd : destination i s = preBlock s)
    (hf : algOf s.csr.ctrl ≠ .reserved → ∀ x, (f x).length = blockSize (algOf s.csr.ctrl))
    (h : execBlock f s = .next t) : ∃ e, t = complete e s ∧ EffectOk i s e := by
  refine finish_effect h fun e he => ?_
  simp only [bind_eq_ok, pure_eq_ok, Except.ok.injEq] at he
  obtain ⟨d, hpre, x, hx, rfl⟩ := he
  have hpre' := hpre
  simp only [preBlock, bind_eq_ok, check_eq_ok] at hpre'
  obtain ⟨-, hc, -, -, -, -, hr⟩ := hpre'
  obtain rfl := checkRanges_dst hr
  exact effectOk_result (hd.trans hpre) rfl (by rw [hf (alg_ne_reserved hc)]; rfl)

theorem vecResult_effectOk {α : Type} {k : Kind α} (hk : LawfulKind k) {i : Instr} {s : State} {v : List α} {n : Nat}
    (hd : destination i s = .ok (dstRange s.csr (k.nb n))) (hn : v.length = n) : EffectOk i s (vecResult k s v) :=
  effectOk_result hd rfl (by rw [hk.pack_length, hn]; rfl)

/-- ReadVec answers as many elements as asked. -/
theorem readVec_length {α : Type} {k : Kind α} (hk : LawfulKind k) {s : State} {p n : Nat} {v : List α}
    (h : readVec k s p n = .ok v) : v.length = n := by
  simp only [readVec, bind_eq_ok, pure_eq_ok, Except.ok.injEq] at h
  obtain ⟨b, hb, rfl⟩ := h
  exact hk.unpack_length n b (readRange_length hb)

theorem execXor_effect {α : Type} {k : Kind α} (hk : LawfulKind k) {i : Instr} {s t : State}
    (hd : destination i s = preXor k s) (h : execXor k s = .next t) : ∃ e, t = complete e s ∧ EffectOk i s e := by
  refine finish_effect h fun e he => ?_
  simp only [bind_eq_ok, pure_eq_ok, Except.ok.injEq] at he
  obtain ⟨d, hpre, a, ha, b, -, rfl⟩ := he
  have hpre' := hpre
  simp only [preXor, bind_eq_ok, check_eq_ok] at hpre'
  obtain ⟨-, -, hr⟩ := hpre'
  obtain rfl := checkRanges_dst hr
  exact vecResult_effectOk hk (hd.trans hpre) (by rw [xorVec_length, readVec_length hk ha])

theorem indexList_length {v : Bytes} {n : Nat} (h : v.length = 2 * n) : (indexList v).length = n := by
  rw [indexList, List.length_map, chunks_length (by omega)]
  omega

theorem execPerm_effect {α : Type} {k : Kind α} (hk : LawfulKind k) {i : Instr} {s t : State}
    (hd : destination i s = prePerm k s) (h : execPerm k s = .next t) : ∃ e, t = complete e s ∧ EffectOk i s e := by
  refine finish_effect h fun e he => ?_
  simp only [bind_eq_ok, pure_eq_ok, Except.ok.injEq] at he
  obtain ⟨d, hpre, v, -, ix, hix, rfl⟩ := he
  have hpre' := hpre
  obtain rfl := checkRanges_dst hpre
  exact vecResult_effectOk hk (hd.trans hpre) (by rw [permVec_length, indexList_length (readRange_length hix)])

theorem execSubstB_effect {s t : State} (h : execSubstB s = .next t) :
    ∃ e, t = complete e s ∧ EffectOk .substB s e := by
  refine finish_effect h fun e he => ?_
  simp only [bind_eq_ok, pure_eq_ok, check_eq_ok, Except.ok.injEq] at he
  obtain ⟨d, hpre, v, -, tb, ht, -, hix, rfl⟩ := he
  have hpre' := hpre
  simp only [preSubstB, bind_eq_ok, check_eq_ok] at hpre'
  obtain ⟨-, -, hr⟩ := hpre'
  obtain rfl := checkRanges_dst hr
  refine vecResult_effectOk byteKind_lawful (n := rowWidth s.csr.param) hpre ?_
  have hl := readRange_length ht
  have hix := of_decide_eq_true hix
  rw [List.length_take, List.length_drop, hl]
  have : (kindInt byteKind v + 1) * rowWidth s.csr.param ≤ s.csr.auxLen.toNat * rowWidth s.csr.param :=
    Nat.mul_le_mul_right _ hix
  rw [Nat.add_mul, Nat.one_mul] at this
  simp only [auxRange]
  omega

theorem execSubstBit_effect {s t : State} (h : execSubstBit s = .next t) :
    ∃ e, t = complete e s ∧ EffectOk .substBit s e := by
  refine finish_effect h fun e he => ?_
  simp only [bind_eq_ok, pure_eq_ok, check_eq_ok, Except.ok.injEq] at he
  obtain ⟨d, hpre, v, -, tb, -, -, -, rfl⟩ := he
  have hpre' := hpre
  simp only [preSubstBit, bind_eq_ok, check_eq_ok, Bool.and_eq_true, decide_eq_true_eq] at hpre'
  obtain ⟨-, ⟨⟨h1, h8⟩, -⟩, hr⟩ := hpre'
  obtain rfl := checkRanges_dst hr
  refine effectOk_result hpre rfl ?_
  rw [bitKind_lawful.pack_length, beBits_length]
  simp only [bitKind, dstRange]
  omega

theorem execAlign_effect {α : Type} {k : Kind α} (hk : LawfulKind k) {f : α} {i : Instr} {s t : State}
    (hd : destination i s = preAlign k s) (h : execAlign k f s = .next t) :
    ∃ e, t = complete e s ∧ EffectOk i s e := by
  refine finish_effect h fun e he => ?_
  simp only [bind_eq_ok, pure_eq_ok, Except.ok.injEq] at he
  obtain ⟨d, hpre, v, -, rfl⟩ := he
  obtain rfl := checkRanges_dst hpre
  exact vecResult_effectOk hk (hd.trans hpre) (by rw [alignVec_length])

theorem execIncWith_effect {α : Type} {k : Kind α} (hk : LawfulKind k) {f : List α → List α}
    (hf : ∀ v, (f v).length = v.length) {i : Instr} {s t : State} (hd : destination i s = preInc k s)
    (h : execIncWith k f s = .next t) : ∃ e, t = complete e s ∧ EffectOk i s e := by
  refine finish_effect h fun e he => ?_
  simp only [bind_eq_ok, pure_eq_ok, Except.ok.injEq] at he
  obtain ⟨d, hpre, v, hv, rfl⟩ := he
  obtain rfl := checkRanges_dst hpre
  exact vecResult_effectOk hk (hd.trans hpre) (by rw [hf, readVec_length hk hv])

theorem checkPadSource_eq_ok {s : State} {u : Unit} :
    checkPadSource s = .ok u ↔
      padCommandConfigOk s.csr.ctrl = true ∧ FitsIn s.cfg.dmemSize (srcRange s.csr s.csr.srcLen.toNat) := by
  simp [checkPadSource, bind_eq_ok, check_eq_ok, checkBounds_eq_ok]

theorem checkPadDest_eq_ok {s : State} {len : Nat} {d : Range} :
    checkPadDest s len = .ok d ↔ d = dstRange s.csr len ∧ FitsIn s.cfg.dmemSize (dstRange s.csr len) ∧
      MayWrite (dstRange s.csr len) [(srcRange s.csr s.csr.srcLen.toNat, .inPlace)] := by
  simp only [checkPadDest, bind_eq_ok, checkBounds_eq_ok, checkOverlap_eq_ok, pure_eq_ok, Except.ok.injEq]
  constructor
  · rintro ⟨-, hd, -, ho, rfl⟩
    exact ⟨rfl, hd _ (by simp), ho⟩
  · rintro ⟨rfl, hd, ho⟩
    exact ⟨(), by simpa using hd, (), ho, rfl⟩

/-- What PAD and UNPAD have before they write: the source read, the result, and where it goes. -/
theorem padCommand_eq_ok {f : Bytes → Option Bytes} {s : State} {d : Range} {u : Bytes}
    (h : padCommand f s = .ok (d, u)) :
    padCommandConfigOk s.csr.ctrl = true ∧ FitsIn s.cfg.dmemSize (srcRange s.csr s.csr.srcLen.toNat) ∧
      (∃ m, readRange s (srcRange s.csr s.csr.srcLen.toNat) = .ok m ∧ f m = some u) ∧
      d = dstRange s.csr u.length ∧ FitsIn s.cfg.dmemSize (dstRange s.csr u.length) ∧
      MayWrite (dstRange s.csr u.length) [(srcRange s.csr s.csr.srcLen.toNat, .inPlace)] := by
  simp only [padCommand, bind_eq_ok, checkPadSource_eq_ok] at h
  obtain ⟨-, ⟨hc, hs⟩, m, hm, h⟩ := h
  split at h
  · cases h
  · rename_i v hu
    simp only [bind_eq_ok, checkPadDest_eq_ok, pure_eq_ok, Except.ok.injEq, Prod.mk.injEq] at h
    obtain ⟨_, ⟨rfl, hd, ho⟩, rfl, rfl⟩ := h
    exact ⟨hc, hs, ⟨m, hm, hu⟩, rfl, hd, ho⟩

/-- Past their first checks PAD and UNPAD read the source, compute, and check the destination. -/
theorem padCommand_of_source {f : Bytes → Option Bytes} {s : State} (hc : padCommandConfigOk s.csr.ctrl = true)
    (hs : FitsIn s.cfg.dmemSize (srcRange s.csr s.csr.srcLen.toNat)) :
    padCommand f s = readRange s (srcRange s.csr s.csr.srcLen.toNat) >>= fun m =>
      match f m with
      | none => .error (.code .pad)
      | some u => checkPadDest s u.length >>= fun d => .ok (d, u) := by
  have h : checkPadSource s = .ok () := checkPadSource_eq_ok.mpr ⟨hc, hs⟩
  simp only [padCommand, h, ok_bind, pure_eq_ok] <;> rfl

/-- The destination's checks fail with BOUNDS, then with OVERLAP (R331). -/
theorem checkPadDest_eq_error {s : State} {len : Nat} :
    (¬FitsIn s.cfg.dmemSize (dstRange s.csr len) → checkPadDest s len = .error (.code .bounds)) ∧
      (FitsIn s.cfg.dmemSize (dstRange s.csr len) →
        ¬MayWrite (dstRange s.csr len) [(srcRange s.csr s.csr.srcLen.toNat, .inPlace)] →
        checkPadDest s len = .error (.code .overlap)) := by
  simp only [← inBounds_iff, ← checkOverlap_eq_ok (u := ()), checkPadDest, checkBounds, checkOverlap, check_eq_ok,
    Bool.not_eq_true]
  constructor
  · intro h
    simp [h]
  · intro h1 h2
    rw [h2]
    simp [h1]

theorem execPad_effect {s t : State} (h : execPad s = .next t) : ∃ e, t = complete e s ∧ EffectOk .pad s e := by
  refine finish_effect h fun e he => ?_
  simp only [bind_eq_ok, pure_eq_ok, Except.ok.injEq] at he
  obtain ⟨⟨d, p⟩, hpre, rfl⟩ := he
  obtain ⟨hc, hs, ⟨m, hm, hp⟩, rfl, hd, ho⟩ := padCommand_eq_ok hpre
  cases hp
  have hl : (padBytes (padCfg s.csr.ctrl) m).length = paddedLen (padCfg s.csr.ctrl) s.csr.srcLen.toNat := by
    rw [padBytes_length, readRange_length hm]
    rfl
  rw [hl] at hd ho
  refine effectOk_result (r := dstRange s.csr (paddedLen (padCfg s.csr.ctrl) s.csr.srcLen.toNat)) ?_ rfl hl
  simp only [destination, prePad, bind_eq_ok, checkPadSource_eq_ok, checkPadDest_eq_ok]
  exact ⟨(), ⟨hc, hs⟩, trivial, hd, ho⟩

theorem execUnpad_effect {s t : State} (h : execUnpad s = .next t) :
    ∃ e, t = complete e s ∧ EffectOk .unpad s e := by
  refine finish_effect h fun e he => ?_
  simp only [bind_eq_ok, pure_eq_ok, Except.ok.injEq] at he
  obtain ⟨⟨d, u⟩, hpre, rfl⟩ := he
  obtain ⟨-, -, -, hd, -, -⟩ := padCommand_eq_ok hpre
  refine effectOk_result (r := d) ?_ (by rw [hd]; rfl) (by rw [hd]; rfl)
  simp [destination, hpre]

/-- What the checks of a plain RUN mean. -/
theorem preRun_eq_ok {m : Mode} {d : Dir} {s : State} {r : Range} :
    preRun m d s = .ok r ↔
      r = dstRange s.csr (runExtent d s.csr.ctrl s.csr.srcLen.toNat) ∧ cipherConfigOk s = true ∧
        padConfigOk s.csr.ctrl = true ∧ keyOk s = true ∧
        RangesOk s (dstRange s.csr (runExtent d s.csr.ctrl s.csr.srcLen.toNat)) (runInputs m s.csr) ∧
        alignOk m d s.csr.ctrl s.csr.srcLen.toNat = true := by
  simp only [preRun, bind_eq_ok, check_eq_ok, checkRanges_eq_ok, pure_eq_ok, Except.ok.injEq, Bool.and_eq_true]
  constructor
  · rintro ⟨-, ⟨hc, hp⟩, -, hk, x, ⟨rfl, hr⟩, -, ha, rfl⟩
    exact ⟨rfl, hc, hp, hk, hr, ha⟩
  · rintro ⟨rfl, hc, hp, hk, hr, ha⟩
    exact ⟨(), ⟨hc, hp⟩, (), hk, _, ⟨rfl, hr⟩, (), ha, rfl⟩

theorem runEffect_dst (m : Mode) (d : Dir) (s : State) (fb msg : Bytes) :
    (runEffect m d s fb msg).dst = s.csr.dstPtr.toNat := by
  cases d <;> simp only [runEffect]
  · rfl
  · split <;> rfl

theorem runEffect_keys (m : Mode) (d : Dir) (s : State) (fb msg : Bytes) : (runEffect m d s fb msg).keys = none := by
  cases d <;> simp only [runEffect]
  · rfl
  · split <;> rfl

theorem runEffect_code (m : Mode) (d : Dir) (s : State) (fb msg : Bytes) :
    (runEffect m d s fb msg).code = .ok ∨ ((runEffect m d s fb msg).code = .pad ∧ d = .decrypt) := by
  cases d <;> simp only [runEffect]
  · exact .inl rfl
  · split
    · exact .inl rfl
    · exact .inr ⟨rfl, trivial⟩

theorem runEffect_regs_ecb (d : Dir) (s : State) (fb msg : Bytes) :
    (runEffect .ecb d s fb msg).regs.getD s.regs = s.regs := by
  cases d <;> simp only [runEffect]
  · rfl
  · split <;> rfl

theorem execRun_effect {m : Mode} {d : Dir} {i : Instr} {s t : State} (hd : destination i s = preRun m d s)
    (hm : usesRunRegs i = false → m = .ecb) (hi : d = .decrypt → isPlainDecrypt i = true)
    (h : execRun m d s = .next t) : ∃ e, t = complete e s ∧ EffectOk i s e := by
  refine finish_effect h fun e he => ?_
  simp only [bind_eq_ok, pure_eq_ok, Except.ok.injEq] at he
  obtain ⟨r, hpre, fb, -, msg, hmsg, rfl⟩ := he
  obtain ⟨rfl, hc, -, -, -, ha⟩ := preRun_eq_ok.mp hpre
  have hl := readRange_length hmsg
  simp only [srcRange] at hl
  refine ⟨.inr ⟨_, hd.trans hpre, runEffect_dst _ _ _ _ _, ?_⟩, fun k hk => ?_, fun hu => ?_, fun hx => ?_⟩
  · rw [runEffect_staged_length hc (by rwa [hl]), hl]
    rfl
  · rw [runEffect_keys] at hk
    cases hk
  · rw [hm hu, runEffect_regs_ecb]
  · rcases runEffect_code m d s fb msg with h0 | ⟨h1, h2⟩
    · exact absurd h0 hx
    · exact ⟨runEffect_keys _ _ _ _ _, .inr ⟨h1, hi h2⟩⟩

/-- What the checks of RUN.GCM mean. -/
theorem preGcm_eq_ok {w : Nat} {s : State} {r : Range} :
    preGcm w s = .ok r ↔ r = dstRange s.csr w ∧ gcmConfigOk s = true ∧
      RangesOk s (dstRange s.csr w)
        [(srcRange s.csr s.csr.srcLen.toNat, .inPlace), (ivRange s.csr, .disjoint), (aadRange s.csr, .disjoint)] := by
  simp only [preGcm, bind_eq_ok, check_eq_ok, checkRanges_eq_ok]
  constructor
  · rintro ⟨-, hc, rfl, hr⟩
    exact ⟨rfl, hc, hr⟩
  · rintro ⟨rfl, hc, hr⟩
    exact ⟨(), hc, rfl, hr⟩

theorem execRunGcmE_effect {s t : State} (h : execRunGcmE s = .next t) :
    ∃ e, t = complete e s ∧ EffectOk .runGcmE s e := by
  refine finish_effect h fun e he => ?_
  simp only [bind_eq_ok, pure_eq_ok, Except.ok.injEq] at he
  obtain ⟨d, hpre, p, hp, iv, -, aad, -, rfl⟩ := he
  obtain ⟨rfl, -, -⟩ := preGcm_eq_ok.mp hpre
  have hl := readRange_length hp
  simp only [srcRange] at hl
  refine ⟨.inr ⟨_, hpre, rfl, ?_⟩, fun k hk => by simp at hk, fun hu => by simp [usesRunRegs, isGcm] at hu, fun hx => ?_⟩
  · simp [dstRange, hl]
  · simp at hx

theorem execRunGcmD_effect {s t : State} (h : execRunGcmD s = .next t) :
    ∃ e, t = complete e s ∧ EffectOk .runGcmD s e := by
  refine finish_effect h fun e he => ?_
  simp only [bind_eq_ok, check_eq_ok] at he
  obtain ⟨d, hpre, -, -, ct, hct, iv, -, aad, -, he⟩ := he
  obtain ⟨rfl, -, -⟩ := preGcm_eq_ok.mp hpre
  have hl := readRange_length hct
  simp only [srcRange] at hl
  split at he
  · simp only [pure_eq_ok, Except.ok.injEq] at he
    subst he
    refine ⟨.inr ⟨_, hpre, rfl, ?_⟩, fun k hk => by simp at hk, fun hu => by simp [usesRunRegs, isGcm] at hu, fun hx => ?_⟩
    · simp [dstRange, hl]
    · simp at hx
  · simp only [pure_eq_ok, Except.ok.injEq] at he
    subst he
    exact ⟨.inl rfl, fun k hk => by simp at hk, fun hu => by simp [usesRunRegs, isGcm] at hu, fun _ => ⟨rfl, .inl rfl⟩⟩

theorem execGfmul_effect {s t : State} (h : execGfmul s = .next t) :
    ∃ e, t = complete e s ∧ EffectOk .gfmul s e := by
  refine finish_effect h fun e he => ?_
  simp only [bind_eq_ok, pure_eq_ok, Except.ok.injEq] at he
  obtain ⟨d, hpre, x, -, y, -, rfl⟩ := he
  have hpre' := hpre
  simp only [preGfmul, bind_eq_ok, check_eq_ok] at hpre'
  obtain ⟨-, -, hr⟩ := hpre'
  obtain rfl := checkRanges_dst hr
  exact effectOk_result hpre rfl (by simp [dstRange])

theorem execGhash_effect {s t : State} (h : execGhash s = .next t) :
    ∃ e, t = complete e s ∧ EffectOk .ghash s e := by
  refine finish_effect h fun e he => ?_
  simp only [bind_eq_ok, pure_eq_ok, Except.ok.injEq] at he
  obtain ⟨d, hpre, x, -, y, -, rfl⟩ := he
  have hpre' := hpre
  simp only [preGhash, bind_eq_ok, check_eq_ok] at hpre'
  obtain ⟨-, -, hr⟩ := hpre'
  obtain rfl := checkRanges_dst hr
  exact effectOk_result hpre rfl (by simp [dstRange])

theorem execLoadKey_effect {s t : State} (h : execLoadKey s = .next t) :
    ∃ e, t = complete e s ∧ EffectOk .loadKey s e := by
  refine finish_effect h fun e he => ?_
  simp only [bind_eq_ok, pure_eq_ok, Except.ok.injEq] at he
  obtain ⟨_, hpre, k, -, rfl⟩ := he
  refine ⟨.inl rfl, fun ks hk => .inr ⟨rfl, hpre, k, ?_⟩, fun _ => rfl, fun hx => absurd rfl hx⟩
  simpa using hk.symm

theorem execZeroize_effect {s t : State} (h : execZeroize s = .next t) :
    ∃ e, t = complete e s ∧ EffectOk .zeroize s e := by
  refine finish_effect h fun e he => ?_
  cases he
  exact ⟨.inl rfl, fun ks hk => .inl ⟨rfl, by simpa using hk.symm⟩, fun _ => rfl, fun hx => absurd rfl hx⟩

theorem execNop_effect {s t : State} (h : execNop s = .next t) : ∃ e, t = complete e s ∧ EffectOk .nop s e := by
  refine finish_effect h fun e he => ?_
  cases he
  exact effectOk_failure _ _ _

/-- What any command can do: it completes with an effect that obeys the rules of all commands. -/
theorem exec_effect {i : Instr} {s t : State} (h : exec i s = .next t) :
    ∃ e, t = complete e s ∧ EffectOk i s e := by
  cases i with
  | nop => exact execNop_effect h
  | zeroize => exact execZeroize_effect h
  | loadKey => exact execLoadKey_effect h
  | blockF => exact execBlock_effect rfl blockT_length h
  | blockI => exact execBlock_effect rfl blockTinv_length h
  | runEcbE => exact execRun_effect rfl (fun _ => rfl) (by simp) h
  | runCbcE => exact execRun_effect rfl (by simp [usesRunRegs, isGcm, plainRun]) (by simp) h
  | runCfbE => exact execRun_effect rfl (by simp [usesRunRegs, isGcm, plainRun]) (by simp) h
  | runOfbE => exact execRun_effect rfl (by simp [usesRunRegs, isGcm, plainRun]) (by simp) h
  | runCtrE => exact execRun_effect rfl (by simp [usesRunRegs, isGcm, plainRun]) (by simp) h
  | runGcmE => exact execRunGcmE_effect h
  | runEcbD => exact execRun_effect rfl (fun _ => rfl) (fun _ => rfl) h
  | runCbcD => exact execRun_effect rfl (by simp [usesRunRegs, isGcm, plainRun]) (fun _ => rfl) h
  | runCfbD => exact execRun_effect rfl (by simp [usesRunRegs, isGcm, plainRun]) (fun _ => rfl) h
  | runOfbD => exact execRun_effect rfl (by simp [usesRunRegs, isGcm, plainRun]) (fun _ => rfl) h
  | runCtrD => exact execRun_effect rfl (by simp [usesRunRegs, isGcm, plainRun]) (fun _ => rfl) h
  | runGcmD => exact execRunGcmD_effect h
  | xorB => exact execXor_effect byteKind_lawful rfl h
  | xorBit => exact execXor_effect bitKind_lawful rfl h
  | permB => exact execPerm_effect byteKind_lawful rfl h
  | permBit => exact execPerm_effect bitKind_lawful rfl h
  | substB => exact execSubstB_effect h
  | substBit => exact execSubstBit_effect h
  | alignB => exact execAlign_effect byteKind_lawful rfl h
  | alignBit => exact execAlign_effect bitKind_lawful rfl h
  | incB => exact execIncWith_effect byteKind_lawful (incVec_length _) rfl h
  | incBit => exact execIncWith_effect bitKind_lawful (incVec_length _) rfl h
  | inc32B => exact execIncWith_effect byteKind_lawful (inc32Vec_length _) rfl h
  | inc32Bit => exact execIncWith_effect bitKind_lawful (inc32Vec_length _) rfl h
  | gfmul => exact execGfmul_effect h
  | ghash => exact execGhash_effect h
  | pad => exact execPad_effect h
  | unpad => exact execUnpad_effect h

end Sys2Proof.Machine
end

