-- ==== Sys2Proof/Laws/Checks.lean ====
section
/-! SUPPORT. The checks of every command against the rules' conditions of Safety.lean: what its checks answer is what
the tables of 60_exceptions.md say, in R331's order. -/

namespace Sys2Proof.Machine

/-- A command's checks answer as R331 says: the first failing check's code, or the destination range. -/
structure Prechecked (i : Instr) (s : State) (x : Except Stop Range) : Prop where
  config : configBad i s = true → x = .error (.code .config)
  key : configBad i s = false → keyBad i s = true → x = .error (.code .nokey)
  len : configBad i s = false → keyBad i s = false → lenBad i s = true → x = .error (.code .len)
  bounds : configBad i s = false → keyBad i s = false → lenBad i s = false → ¬Fits i s →
    x = .error (.code .bounds)
  overlap : configBad i s = false → keyBad i s = false → lenBad i s = false → Fits i s → ¬NoOverlap i s →
    x = .error (.code .overlap)
  align : configBad i s = false → keyBad i s = false → lenBad i s = false → Fits i s → NoOverlap i s →
    alignBad i s = true → x = .error (.code .align)
  pass : Passes i s → x = .ok (destOf i s)

/-- The chain of checks every command but PAD and UNPAD makes, on the rules' own conditions. -/
def ruledChecks (i : Instr) (s : State) : Except Stop Range := do
  check (!configBad i s) .config
  check (!keyBad i s) .nokey
  check (!lenBad i s) .len
  let r ← checkRanges s (destOf i s) (inputsOf i s)
  check (!alignBad i s) .align
  return r

theorem checkRanges_of_ok {s : State} {d : Range} {ins : List (Range × Mark)} (h : RangesOk s d ins) :
    checkRanges s d ins = .ok d := checkRanges_eq_ok.mpr ⟨rfl, h⟩

theorem ruledChecks_prechecked (i : Instr) (s : State) : Prechecked i s (ruledChecks i s) where
  config h := by simp [ruledChecks, h]
  key h1 h2 := by simp [ruledChecks, h1, h2]
  len h1 h2 h3 := by simp [ruledChecks, h1, h2, h3]
  bounds h1 h2 h3 h4 := by simp [ruledChecks, h1, h2, h3, checkRanges_eq_bounds.mpr h4]
  overlap h1 h2 h3 h4 h5 := by simp [ruledChecks, h1, h2, h3, checkRanges_eq_overlap.mpr ⟨h4, h5⟩]
  align h1 h2 h3 h4 h5 h6 := by simp [ruledChecks, h1, h2, h3, h6, checkRanges_of_ok ⟨h4, h5⟩]
  pass := by
    rintro ⟨h1, h2, h3, h4, h5, h6⟩
    simp [ruledChecks, h1, h2, h3, h6, checkRanges_of_ok ⟨h4, h5⟩]

/-- Checks that answer an error answer an error code, the earliest failing check's. -/
theorem Prechecked.cause {i : Instr} {s : State} {x : Except Stop Range} (h : Prechecked i s x) {e : Stop}
    (hx : x = .error e) : ∃ c, e = .code c ∧ (∀ t, CauseHolds i s t c) ∧ ¬Passes i s ∧ c ≠ .ok := by
  by_cases h1 : configBad i s = true
  · have := hx.symm.trans (h.config h1)
    cases this
    exact ⟨_, rfl, fun _ => h1, fun p => by simp [p.1] at h1, by simp⟩
  have h1 := Bool.eq_false_iff.mpr h1
  by_cases h2 : keyBad i s = true
  · have := hx.symm.trans (h.key h1 h2)
    cases this
    exact ⟨_, rfl, fun _ => ⟨h1, h2⟩, fun p => by simp [p.2.1] at h2, by simp⟩
  have h2 := Bool.eq_false_iff.mpr h2
  by_cases h3 : lenBad i s = true
  · have := hx.symm.trans (h.len h1 h2 h3)
    cases this
    exact ⟨_, rfl, fun _ => .inl ⟨h1, h2, h3⟩, fun p => by simp [p.2.2.1] at h3, by simp⟩
  have h3 := Bool.eq_false_iff.mpr h3
  by_cases h4 : Fits i s
  · by_cases h5 : NoOverlap i s
    · by_cases h6 : alignBad i s = true
      · have := hx.symm.trans (h.align h1 h2 h3 h4 h5 h6)
        cases this
        exact ⟨_, rfl, fun _ => ⟨h1, h2, h3, h4, h5, h6⟩, fun p => by simp [p.2.2.2.2.2] at h6, by simp⟩
      · have := hx.symm.trans (h.pass ⟨h1, h2, h3, h4, h5, Bool.eq_false_iff.mpr h6⟩)
        cases this
    · have := hx.symm.trans (h.overlap h1 h2 h3 h4 h5)
      cases this
      exact ⟨_, rfl, fun _ => ⟨h1, h2, h3, h4, h5⟩, fun p => h5 p.2.2.2.2.1, by simp⟩
  · have := hx.symm.trans (h.bounds h1 h2 h3 h4)
    cases this
    exact ⟨_, rfl, fun _ => ⟨h1, h2, h3, h4⟩, fun p => h4 p.2.2.2.1, by simp⟩

/-- Checks answer a range exactly where all of them pass, and it is the rule's destination. -/
theorem Prechecked.eq_ok {i : Instr} {s : State} {x : Except Stop Range} (h : Prechecked i s x) {r : Range} :
    x = .ok r ↔ Passes i s ∧ r = destOf i s := by
  constructor
  · intro hx
    by_cases hp : Passes i s
    · have := hx.symm.trans (h.pass hp)
      cases this
      exact ⟨hp, rfl⟩
    · exfalso
      have key : ∀ {e}, ¬(x = Except.error e) := fun he => by rw [hx] at he; cases he
      by_cases h1 : configBad i s = true
      · exact key (h.config h1)
      have h1 := Bool.eq_false_iff.mpr h1
      by_cases h2 : keyBad i s = true
      · exact key (h.key h1 h2)
      have h2 := Bool.eq_false_iff.mpr h2
      by_cases h3 : lenBad i s = true
      · exact key (h.len h1 h2 h3)
      have h3 := Bool.eq_false_iff.mpr h3
      by_cases h4 : Fits i s
      · by_cases h5 : NoOverlap i s
        · by_cases h6 : alignBad i s = true
          · exact key (h.align h1 h2 h3 h4 h5 h6)
          · exact hp ⟨h1, h2, h3, h4, h5, Bool.eq_false_iff.mpr h6⟩
        · exact key (h.overlap h1 h2 h3 h4 h5)
      · exact key (h.bounds h1 h2 h3 h4)
  · rintro ⟨hp, rfl⟩
    exact h.pass hp

/-! ### The model's checks are the ruled ones -/

theorem algOf_cases (ctrl : Word) :
    (ctrl.extractLsb' 0 2 = 0 ∧ algOf ctrl = .des) ∨ (ctrl.extractLsb' 0 2 = 1 ∧ algOf ctrl = .tdes) ∨
      (ctrl.extractLsb' 0 2 = 2 ∧ algOf ctrl = .ext128) ∨ (ctrl.extractLsb' 0 2 = 3 ∧ algOf ctrl = .reserved) := by
  unfold algOf
  generalize ctrl.extractLsb' 0 2 = a
  revert a
  decide

theorem schemeOf_cases (ctrl : Word) :
    (ctrl.extractLsb' 2 2 = 0 ∧ schemeOf ctrl = .none) ∨ (ctrl.extractLsb' 2 2 = 1 ∧ schemeOf ctrl = .pkcs7) ∨
      (ctrl.extractLsb' 2 2 = 2 ∧ schemeOf ctrl = .zero) ∨ (ctrl.extractLsb' 2 2 = 3 ∧ schemeOf ctrl = .bit) := by
  unfold schemeOf
  generalize ctrl.extractLsb' 2 2 = a
  revert a
  decide

/-- CONFIG of BLOCK. -/
theorem configBad_block {i : Instr} (hi : isBlock i = true) (s : State) :
    configBad i s = !cipherConfigOk s := by
  have : i = .blockF ∨ i = .blockI := by simpa [isBlock] using hi
  rcases algOf_cases s.csr.ctrl with ⟨-, h⟩ | ⟨-, h⟩ | ⟨-, h⟩ | ⟨-, h⟩ <;> rcases this with rfl | rfl <;>
    simp [configBad, cipherConfigOk, h, isBlock, isGcm, plainRun]

/-- CONFIG of a plain RUN. -/
theorem configBad_run {i : Instr} {md : Mode × Dir} (hi : plainRun i = some md) (s : State) :
    configBad i s = !(cipherConfigOk s && padConfigOk s.csr.ctrl) := by
  have hb : isBlock i = false := by cases i <;> simp_all [isBlock, plainRun]
  have hg : isGcm i = false := by cases i <;> simp_all [isGcm, plainRun]
  have hl : i ≠ .loadKey := by rintro rfl; simp [plainRun] at hi
  rcases algOf_cases s.csr.ctrl with ⟨-, h⟩ | ⟨-, h⟩ | ⟨-, h⟩ | ⟨-, h⟩ <;>
    simp [configBad, cipherConfigOk, padConfigOk, h, hb, hg, hl, hi] <;> grind

/-- CONFIG of RUN.GCM. -/
theorem configBad_gcm {i : Instr} (hi : isGcm i = true) (s : State) : configBad i s = !gcmConfigOk s := by
  have : i = .runGcmE ∨ i = .runGcmD := by simpa [isGcm] using hi
  rcases algOf_cases s.csr.ctrl with ⟨-, h⟩ | ⟨-, h⟩ | ⟨-, h⟩ | ⟨-, h⟩ <;> rcases this with rfl | rfl <;>
    simp [configBad, gcmConfigOk, cipherConfigOk, h, isBlock, isGcm, plainRun]

/-- CONFIG of PAD and UNPAD. -/
theorem configBad_pad {i : Instr} (hi : i = .pad ∨ i = .unpad) (s : State) :
    configBad i s = !padCommandConfigOk s.csr.ctrl := by
  rcases algOf_cases s.csr.ctrl with ⟨-, h⟩ | ⟨-, h⟩ | ⟨-, h⟩ | ⟨-, h⟩ <;> rcases hi with rfl | rfl <;>
    simp [configBad, padCommandConfigOk, padConfigOk, h, isBlock, isGcm, plainRun] <;> grind

/-- NOKEY, where CONFIG finds nothing. -/
theorem keyBad_eq {i : Instr} {s : State} (hi : isBlock i = true ∨ (plainRun i).isSome = true) :
    keyBad i s = !keyOk s := by
  have : (isBlock i || isGcm i || (plainRun i).isSome) = true := by
    rcases hi with h | h <;> simp [h]
  simp only [keyBad, this, Bool.true_and, keyOk, algCode]
  rcases algOf_cases s.csr.ctrl with ⟨h', h⟩ | ⟨h', h⟩ | ⟨h', h⟩ | ⟨h', h⟩ <;> simp [h, h']

theorem keyBad_gcm {i : Instr} (hi : isGcm i = true) {s : State} (hc : configBad i s = false) :
    keyBad i s = false := by
  have h : algOf s.csr.ctrl = .ext128 := by
    rw [configBad_gcm hi] at hc
    simp only [gcmConfigOk, Bool.not_eq_false', Bool.and_eq_true, decide_eq_true_eq] at hc
    exact hc.1.2
  simp [keyBad, h]

@[simp] theorem bind_ok_self {α : Type} (x : Except Stop α) : (x >>= fun r => Except.ok r) = x := by
  cases x <;> rfl

theorem checkRanges_bind_alignOk (s : State) (d : Range) (ins : List (Range × Mark)) (b : Bool) :
    (checkRanges s d ins >>= fun r => check b .align >>= fun _ => Except.ok r) =
      (checkRanges s d ins >>= fun r => if b then .ok r else .error (.code .align)) := by
  cases checkRanges s d ins <;> cases b <;> rfl

theorem preBlock_eq {i : Instr} (hi : isBlock i = true) (s : State) : preBlock s = ruledChecks i s := by
  have hc := configBad_block hi s
  have hk : keyBad i s = !keyOk s := keyBad_eq (.inl hi)
  rw [ruledChecks, hc, hk, preBlock]
  have : i = .blockF ∨ i = .blockI := by simpa [isBlock] using hi
  rcases this with rfl | rfl <;> simp [lenBad, destOf, inputsOf, alignBad, plainRun, dstRange, srcRange]

theorem plainRun_lenBad {i : Instr} {md : Mode × Dir} (hi : plainRun i = some md) (s : State) : lenBad i s = false := by
  cases i <;> simp_all [plainRun, lenBad]

theorem alignBad_run {i : Instr} {m : Mode} {d : Dir} (hi : plainRun i = some (m, d)) (s : State) :
    alignBad i s = !alignOk m d s.csr.ctrl s.csr.srcLen.toNat := by
  cases m <;> cases d <;> simp [alignBad, hi, alignOk, Bool.and_comm]

theorem destOf_run {i : Instr} {m : Mode} {d : Dir} (hi : plainRun i = some (m, d)) (s : State) :
    destOf i s = dstRange s.csr (runExtent d s.csr.ctrl s.csr.srcLen.toNat) := by
  cases i <;> simp [plainRun] at hi <;> obtain ⟨rfl, rfl⟩ := hi <;> rfl

theorem inputsOf_run {i : Instr} {m : Mode} {d : Dir} (hi : plainRun i = some (m, d)) (s : State) :
    inputsOf i s = runInputs m s.csr := by
  cases i <;> simp [plainRun] at hi <;> obtain ⟨rfl, rfl⟩ := hi <;> rfl

theorem preRun_eq {i : Instr} {m : Mode} {d : Dir} (hi : plainRun i = some (m, d)) (s : State) :
    preRun m d s = ruledChecks i s := by
  rw [ruledChecks, configBad_run hi, keyBad_eq (.inr (by simp [hi])), plainRun_lenBad hi, alignBad_run hi,
    destOf_run hi, inputsOf_run hi, preRun]
  simp

theorem gcm_rest {i : Instr} (hi : isGcm i = true) (s : State) : lenBad i s = false ∧ alignBad i s = false := by
  have : i = .runGcmE ∨ i = .runGcmD := by simpa [isGcm] using hi
  rcases this with rfl | rfl <;> exact ⟨rfl, rfl⟩

theorem preGcm_ruled {i : Instr} (hi : isGcm i = true) {w : Nat} {s : State} (hw : destOf i s = dstRange s.csr w) :
    preGcm w s = ruledChecks i s := by
  rw [ruledChecks, (gcm_rest hi s).1, (gcm_rest hi s).2, hw]
  by_cases hc : configBad i s = true
  · have h := configBad_gcm hi s
    rw [hc] at h
    have : gcmConfigOk s = false := by simpa using h
    simp [preGcm, hc, this]
  · have hc := Bool.eq_false_iff.mpr hc
    have h := configBad_gcm hi s
    rw [hc] at h
    have h : gcmConfigOk s = true := by simpa using h
    have hin : inputsOf i s = [(srcRange s.csr s.csr.srcLen.toNat, .inPlace), (ivRange s.csr, .disjoint),
        (aadRange s.csr, .disjoint)] := by
      have : i = .runGcmE ∨ i = .runGcmD := by simpa [isGcm] using hi
      rcases this with rfl | rfl <;> rfl
    simp [preGcm, hc, h, keyBad_gcm hi hc, hin]

/-- Commands with no CONFIG, no NOKEY and no ALIGN. -/
theorem plain_rest {i : Instr} (hb : isBlock i = false) (hg : isGcm i = false) (hr : plainRun i = none)
    (hl : i ≠ .loadKey) (hp : ¬(i = .pad ∨ i = .unpad)) (s : State) :
    configBad i s = false ∧ keyBad i s = false ∧ alignBad i s = false := by
  simp only [configBad, keyBad, alignBad, hb, hg, hr, hl, hp]
  simp

theorem preXor_byte_eq (s : State) : preXor byteKind s = ruledChecks .xorB s := by
  obtain ⟨h1, h2, h3⟩ := plain_rest (i := .xorB) rfl rfl rfl (by decide) (by decide) s
  simp [ruledChecks, h1, h2, h3, preXor, lenBad, destOf, inputsOf, dstRange, srcRange, auxRange, byteKind]

theorem preXor_bit_eq (s : State) : preXor bitKind s = ruledChecks .xorBit s := by
  obtain ⟨h1, h2, h3⟩ := plain_rest (i := .xorBit) rfl rfl rfl (by decide) (by decide) s
  simp [ruledChecks, h1, h2, h3, preXor, lenBad, destOf, inputsOf, dstRange, srcRange, auxRange, bitKind, bitBytes]

theorem prePerm_byte_eq (s : State) : prePerm byteKind s = ruledChecks .permB s := by
  obtain ⟨h1, h2, h3⟩ := plain_rest (i := .permB) rfl rfl rfl (by decide) (by decide) s
  simp [ruledChecks, h1, h2, h3, prePerm, lenBad, destOf, inputsOf, dstRange, srcRange, auxRange, byteKind]

theorem prePerm_bit_eq (s : State) : prePerm bitKind s = ruledChecks .permBit s := by
  obtain ⟨h1, h2, h3⟩ := plain_rest (i := .permBit) rfl rfl rfl (by decide) (by decide) s
  simp [ruledChecks, h1, h2, h3, prePerm, lenBad, destOf, inputsOf, dstRange, srcRange, auxRange, bitKind, bitBytes]

theorem preSubstB_eq (s : State) : preSubstB s = ruledChecks .substB s := by
  obtain ⟨h1, h2, h3⟩ := plain_rest (i := .substB) rfl rfl rfl (by decide) (by decide) s
  have hw : (decide (1 ≤ rowWidth s.csr.param) && decide (rowWidth s.csr.param ≤ 8) &&
      decide (s.csr.srcLen.toNat ≤ 2)) = !lenBad .substB s := by
    simp only [lenBad]
    rw [Bool.eq_iff_iff]
    simp
    omega
  simp only [preSubstB, hw, ruledChecks, h1, h2, h3]
  simp [destOf, inputsOf, dstRange, srcRange, auxRange]

theorem preSubstBit_eq (s : State) : preSubstBit s = ruledChecks .substBit s := by
  obtain ⟨h1, h2, h3⟩ := plain_rest (i := .substBit) rfl rfl rfl (by decide) (by decide) s
  have hw : (decide (1 ≤ rowWidth s.csr.param) && decide (rowWidth s.csr.param ≤ 8) &&
      decide (s.csr.srcLen.toNat ≤ 16)) = !lenBad .substBit s := by
    simp only [lenBad]
    rw [Bool.eq_iff_iff]
    simp
    omega
  simp only [preSubstBit, hw, ruledChecks, h1, h2, h3]
  simp [destOf, inputsOf, dstRange, srcRange, auxRange, bitKind, bitBytes]

theorem preAlign_byte_eq (s : State) : preAlign byteKind s = ruledChecks .alignB s := by
  obtain ⟨h1, h2, h3⟩ := plain_rest (i := .alignB) rfl rfl rfl (by decide) (by decide) s
  simp [ruledChecks, h1, h2, h3, preAlign, lenBad, destOf, inputsOf, dstRange, srcRange, byteKind]

theorem preAlign_bit_eq (s : State) : preAlign bitKind s = ruledChecks .alignBit s := by
  obtain ⟨h1, h2, h3⟩ := plain_rest (i := .alignBit) rfl rfl rfl (by decide) (by decide) s
  simp [ruledChecks, h1, h2, h3, preAlign, lenBad, destOf, inputsOf, dstRange, srcRange, bitKind, bitBytes]

theorem preInc_byte_eq {i : Instr} (hi : i = .incB ∨ i = .inc32B) (s : State) :
    preInc byteKind s = ruledChecks i s := by
  obtain ⟨h1, h2, h3⟩ := plain_rest (i := i) (by rcases hi with rfl | rfl <;> rfl)
    (by rcases hi with rfl | rfl <;> rfl) (by rcases hi with rfl | rfl <;> rfl)
    (by rcases hi with rfl | rfl <;> decide) (by rcases hi with rfl | rfl <;> decide) s
  rcases hi with rfl | rfl <;>
    simp [ruledChecks, h1, h2, h3, preInc, lenBad, destOf, inputsOf, dstRange, srcRange, byteKind]

theorem preInc_bit_eq {i : Instr} (hi : i = .incBit ∨ i = .inc32Bit) (s : State) :
    preInc bitKind s = ruledChecks i s := by
  obtain ⟨h1, h2, h3⟩ := plain_rest (i := i) (by rcases hi with rfl | rfl <;> rfl)
    (by rcases hi with rfl | rfl <;> rfl) (by rcases hi with rfl | rfl <;> rfl)
    (by rcases hi with rfl | rfl <;> decide) (by rcases hi with rfl | rfl <;> decide) s
  rcases hi with rfl | rfl <;>
    simp [ruledChecks, h1, h2, h3, preInc, lenBad, destOf, inputsOf, dstRange, srcRange, bitKind, bitBytes]

theorem preGfmul_eq (s : State) : preGfmul s = ruledChecks .gfmul s := by
  obtain ⟨h1, h2, h3⟩ := plain_rest (i := .gfmul) rfl rfl rfl (by decide) (by decide) s
  have hw : (decide (s.csr.srcLen.toNat = 16) && decide (s.csr.auxLen.toNat = 16)) = !lenBad .gfmul s := by
    simp only [lenBad]
    rw [Bool.eq_iff_iff]
    simp
  simp only [preGfmul, hw, ruledChecks, h1, h2, h3]
  simp [destOf, inputsOf, dstRange, srcRange, auxRange]

theorem preGhash_eq (s : State) : preGhash s = ruledChecks .ghash s := by
  obtain ⟨h1, h2, h3⟩ := plain_rest (i := .ghash) rfl rfl rfl (by decide) (by decide) s
  simp [ruledChecks, h1, h2, h3, preGhash, lenBad, destOf, inputsOf, dstRange, srcRange, auxRange]

/-- PAD's checks without its data: SRC, then DST, then OVERLAP give the code of BOUNDS over both, then OVERLAP. -/
theorem prePad_eq (s : State) : prePad s = ruledChecks .pad s := by
  have hk : keyBad .pad s = false := by simp [keyBad, isBlock, isGcm, plainRun]
  simp only [prePad, checkPadSource, checkPadDest, ruledChecks, configBad_pad (.inl rfl), hk, lenBad, alignBad, plainRun,
    checkRanges, checkBounds]
  simp only [destOf, inputsOf, dstRange, srcRange, List.map_cons, List.map_nil, List.all_cons, List.all_nil,
    Bool.and_true, Bool.not_not]
  cases padCommandConfigOk s.csr.ctrl <;> cases inBounds s.cfg.dmemSize ⟨s.csr.srcPtr.toNat, s.csr.srcLen.toNat⟩ <;>
    cases inBounds s.cfg.dmemSize ⟨s.csr.dstPtr.toNat, paddedLen (padCfg s.csr.ctrl) s.csr.srcLen.toNat⟩ <;> simp

theorem preLoadKey_eq (s : State) :
    (preLoadKey s >>= fun _ => Except.ok ⟨0, 0⟩) = ruledChecks .loadKey s := by
  have hk : keyBad .loadKey s = false := by simp [keyBad, isBlock, isGcm, plainRun]
  have hc : configBad .loadKey s = !(decide (algOf s.csr.ctrl = .des) || decide (algOf s.csr.ctrl = .tdes)) := by
    rcases algOf_cases s.csr.ctrl with ⟨-, h⟩ | ⟨-, h⟩ | ⟨-, h⟩ | ⟨-, h⟩ <;>
      simp [configBad, h, isBlock, isGcm, plainRun]
  rw [ruledChecks, hc, hk, preLoadKey]
  simp only [checkRanges, checkBounds, checkOverlap, destOf, inputsOf, lenBad, alignBad, plainRun, keyRange]
  have hd : inBounds s.cfg.dmemSize ⟨0, 0⟩ = true := rfl
  have ho : (List.any [((⟨s.csr.keyPtr.toNat, s.csr.keyLen.toNat⟩ : Range), Mark.disjoint)] (conflicts ⟨0, 0⟩)) =
      false := by simp [conflicts, meets]
  simp [hd, ho]

/-- What an accepted command's checks answer, for every command but UNPAD and LOAD_KEY (which has no destination). -/
theorem destination_eq {i : Instr} (hu : i ≠ .unpad) (hl : i ≠ .loadKey) (s : State) :
    destination i s = ruledChecks i s := by
  cases i with
  | unpad => exact absurd rfl hu
  | loadKey => exact absurd rfl hl
  | nop =>
    obtain ⟨h1, h2, h3⟩ := plain_rest (i := .nop) rfl rfl rfl (by decide) (by decide) s
    simp [ruledChecks, h1, h2, h3, lenBad, destOf, inputsOf, destination, checkRanges, checkBounds, checkOverlap,
      inBounds]
  | zeroize =>
    obtain ⟨h1, h2, h3⟩ := plain_rest (i := .zeroize) rfl rfl rfl (by decide) (by decide) s
    simp [ruledChecks, h1, h2, h3, lenBad, destOf, inputsOf, destination, checkRanges, checkBounds, checkOverlap,
      inBounds]
  | blockF => exact preBlock_eq rfl s
  | blockI => exact preBlock_eq rfl s
  | runEcbE | runCbcE | runCfbE | runOfbE | runCtrE | runEcbD | runCbcD | runCfbD | runOfbD | runCtrD =>
    exact preRun_eq rfl s
  | runGcmE => exact preGcm_ruled rfl rfl
  | runGcmD => exact preGcm_ruled rfl rfl
  | xorB => exact preXor_byte_eq s
  | xorBit => exact preXor_bit_eq s
  | permB => exact prePerm_byte_eq s
  | permBit => exact prePerm_bit_eq s
  | substB => exact preSubstB_eq s
  | substBit => exact preSubstBit_eq s
  | alignB => exact preAlign_byte_eq s
  | alignBit => exact preAlign_bit_eq s
  | incB => exact preInc_byte_eq (.inl rfl) s
  | inc32B => exact preInc_byte_eq (.inr rfl) s
  | incBit => exact preInc_bit_eq (.inl rfl) s
  | inc32Bit => exact preInc_bit_eq (.inr rfl) s
  | gfmul => exact preGfmul_eq s
  | ghash => exact preGhash_eq s
  | pad => exact prePad_eq s

/-- UNPAD's destination, where it has one. -/
theorem destOf_unpad {s : State} {m u : Bytes}
    (hm : readBytes s.dmem s.csr.srcPtr.toNat s.csr.srcLen.toNat = some m)
    (hu : unpadBytes (padCfg s.csr.ctrl) m = some u) : destOf .unpad s = dstRange s.csr u.length := by
  simp [destOf, hm, hu, dstRange]

/-- The range a command's checks answer is the one its rule lists, and it lies in DMEM. -/
theorem destination_eq_ok {i : Instr} {s : State} {r : Range} (h : destination i s = .ok r) :
    r = destOf i s ∧ FitsIn s.cfg.dmemSize r := by
  by_cases hu : i = .unpad
  · subst hu
    simp only [destination, bind_eq_ok, pure_eq_ok, Except.ok.injEq] at h
    obtain ⟨⟨d, u⟩, hp, rfl⟩ := h
    obtain ⟨-, -, ⟨m, hm, hmu⟩, rfl, hf, -⟩ := padCommand_eq_ok hp
    exact ⟨(destOf_unpad (readRange_eq_ok.mp hm) hmu).symm, hf⟩
  · by_cases hl : i = .loadKey
    · subst hl
      cases h
      exact ⟨rfl, .inl rfl⟩
    · rw [destination_eq hu hl, (ruledChecks_prechecked i s).eq_ok] at h
      obtain ⟨hp, rfl⟩ := h
      exact ⟨rfl, hp.2.2.2.1.1⟩

/-- A check that fails ends the command with its code; PAD and UNPAD, which read between their checks, apart. -/
theorem exec_of_check_failed {i : Instr} (hi : i ≠ .pad ∧ i ≠ .unpad) {s : State} {c : Code}
    (h : ruledChecks i s = .error (.code c)) : exec i s = .next (complete (failure c) s) := by
  have e : ∀ {α : Type} {x : Except Stop α} (f : α → Except Stop Effect), x = .error (.code c) →
      finish s (x >>= f) = .next (complete (failure c) s) := by
    rintro α _ f rfl
    rfl
  by_cases hl : i = .loadKey
  · subst hl
    rw [← preLoadKey_eq, bind_eq_error] at h
    obtain h | ⟨_, _, h⟩ := h
    · exact e _ h
    · cases h
  have hd := (destination_eq hi.2 hl s).trans h
  cases i with
  | nop => cases hd
  | zeroize => cases hd
  | loadKey => exact absurd rfl hl
  | pad => exact absurd rfl hi.1
  | unpad => exact absurd rfl hi.2
  | blockF | blockI | runEcbE | runCbcE | runCfbE | runOfbE | runCtrE | runGcmE | runEcbD | runCbcD | runCfbD
  | runOfbD | runCtrD | runGcmD | xorB | xorBit | permB | permBit | substB | substBit | alignB | alignBit | incB
  | incBit | inc32B | inc32Bit | gfmul | ghash => exact e _ hd

theorem failsWith_of_complete {i : Instr} {s : State} {c : Code} (hc : c ≠ .ok)
    (h : exec i s = .next (complete (failure c) s)) : FailsWith i s c :=
  ⟨_, h, by simpa [hc] using completes_complete (failure c) s, rfl, rfl⟩

/-- R331 for every command but PAD and UNPAD, whose order is their own. -/
theorem checksRuled {i : Instr} (hi : i ≠ .pad ∧ i ≠ .unpad) (s : State) : ChecksRuled i s :=
  have p := ruledChecks_prechecked i s
  have f {c : Code} (hc : c ≠ .ok) (h : ruledChecks i s = .error (.code c)) : FailsWith i s c :=
    failsWith_of_complete hc (exec_of_check_failed hi h)
  { config := fun h => f (by decide) (p.config h)
    key := fun h1 h2 => f (by decide) (p.key h1 h2)
    len := fun h1 h2 h3 => f (by decide) (p.len h1 h2 h3)
    bounds := fun h1 h2 h3 h4 => f (by decide) (p.bounds h1 h2 h3 h4)
    overlap := fun h1 h2 h3 h4 h5 => f (by decide) (p.overlap h1 h2 h3 h4 h5)
    align := fun h1 h2 h3 h4 h5 h6 => f (by decide) (p.align h1 h2 h3 h4 h5 h6) }

/-- A completion that stages `out` at DST_PTR, in the words of the statements. -/
theorem storesWith_of_complete {i : Instr} {s : State} {e : Effect} (h : exec i s = .next (complete e s))
    (hk : e.keys = none) (hd : e.staged = [] ∨ e.dst = s.csr.dstPtr.toNat) :
    StoresWith i s e.staged e.code (if e.code = .ok then e.outLen else 0) := by
  refine ⟨_, h, completes_complete e s, by simp [hk], ?_, ?_⟩
  · rcases hd with hd | hd
    · intro a _
      rw [complete_dmem, hd]
      rfl
    · have := onlyWrote_complete e s
      rwa [hd] at this
  · rcases hd with hd | hd
    · rw [hd]
      rfl
    · rw [complete_dmem, hd]
      exact readBytes_writeBytes_same _ _ _

theorem stores_result {i : Instr} {s : State} {out : Bytes} {n : Nat}
    (h : exec i s = .next (complete (result s out n) s)) : Stores i s out n := by
  have := storesWith_of_complete h rfl (.inr rfl)
  simpa using this

end Sys2Proof.Machine
end

