-- ==== Sys2Proof/Laws/Ends.lean ====
section
/-! SUPPORT. How a command can end, said once for all 33: with the code whose cause holds, or, where an input range
holds a byte nothing has written, in the model fault. -/

namespace Sys2Proof.Machine

/-- How the computation of command `i` may end. -/
def EndsOk (i : Instr) (s : State) (x : Except Stop Effect) : Prop :=
  match x with
  | .ok e => CauseHolds i s (complete e s) e.code
  | .error (.code c) => CauseHolds i s (complete (failure c) s) c
  | .error (.fault f) =>
    f = .unwrittenInput ∧ configBad i s = false ∧ keyBad i s = false ∧ lenBad i s = false ∧
      ∃ r ∈ inputsOf i s, HoldsUnwritten s r.1

variable {i : Instr} {s : State}

/-- Reading an input range ends well when what follows does. -/
theorem EndsOk.read (hp : configBad i s = false ∧ keyBad i s = false ∧ lenBad i s = false) {r : Range}
    (hr : ∃ m, (r, m) ∈ inputsOf i s) {f : Bytes → Except Stop Effect}
    (hf : ∀ v, readRange s r = .ok v → EndsOk i s (f v)) : EndsOk i s (readRange s r >>= f) := by
  match hv : readRange s r with
  | .ok v => exact hf v hv
  | .error e =>
    obtain ⟨rfl, hu⟩ := readRange_eq_error.mp hv
    obtain ⟨m, hm⟩ := hr
    exact ⟨rfl, hp.1, hp.2.1, hp.2.2, _, hm, hu⟩

/-- Reading a vector likewise. -/
theorem EndsOk.readVec {α : Type} {k : Kind α} (hp : configBad i s = false ∧ keyBad i s = false ∧ lenBad i s = false)
    {p n : Nat} (hr : ∃ m, ((⟨p, k.nb n⟩ : Range), m) ∈ inputsOf i s) {f : List α → Except Stop Effect}
    (hf : ∀ b, readBytes s.dmem p (k.nb n) = some b → EndsOk i s (f (k.unpack n b))) :
    EndsOk i s (readVec k s p n >>= f) := by
  have : (Machine.readVec k s p n >>= f) = (readRange s ⟨p, k.nb n⟩ >>= fun v => f (k.unpack n v)) := by
    rw [Machine.readVec]
    cases readRange s ⟨p, k.nb n⟩ <;> rfl
  rw [this]
  exact EndsOk.read hp hr fun v hv => hf v (readRange_eq_ok.mp hv)

theorem EndsOk.check {b : Bool} {c : Code} {f : Unit → Except Stop Effect}
    (hc : b = false → CauseHolds i s (complete (failure c) s) c) (hf : b = true → EndsOk i s (f ())) :
    EndsOk i s (check b c >>= f) := by
  cases b
  · exact hc rfl
  · exact hf rfl

/-- A command whose checks are the ruled ones ends well when its data step does. -/
theorem EndsOk.checked {x : Except Stop Range} (hx : x = ruledChecks i s) {f : Range → Except Stop Effect}
    (hf : Passes i s → EndsOk i s (f (destOf i s))) : EndsOk i s (x >>= f) := by
  match hv : ruledChecks i s with
  | .ok r =>
    obtain ⟨hp, rfl⟩ := (ruledChecks_prechecked i s).eq_ok.mp hv
    rw [hx, hv]
    exact hf hp
  | .error e =>
    obtain ⟨c, rfl, hc, -⟩ := (ruledChecks_prechecked i s).cause hv
    rw [hx, hv]
    exact hc _

/-- What `Passes` gives a data step. -/
theorem Passes.early (h : Passes i s) : configBad i s = false ∧ keyBad i s = false ∧ lenBad i s = false :=
  ⟨h.1, h.2.1, h.2.2.1⟩

theorem endsOk_block (hi : isBlock i = true) (t : Bytes → Bytes) :
    EndsOk i s (preBlock s >>= fun d => readRange s (srcRange s.csr d.len) >>= fun x =>
      Except.ok (result s (t x) d.len)) := by
  have : i = .blockF ∨ i = .blockI := by simpa [isBlock] using hi
  refine EndsOk.checked (preBlock_eq hi s) fun hp => EndsOk.read hp.early ⟨.inPlace, ?_⟩ fun v _ => ⟨hp, fun _ h => ?_⟩
  · rcases this with rfl | rfl <;> simp [destOf, inputsOf, srcRange]
  · rcases this with rfl | rfl <;> exact h

theorem endsOk_seed {m : Mode} {d : Dir} (hi : plainRun i = some (m, d)) (hp : Passes i s)
    {f : Bytes → Except Stop Effect} (hf : ∀ v, EndsOk i s (f v)) : EndsOk i s (seedFB m s >>= f) := by
  have hin := inputsOf_run hi s
  cases m <;> simp only [seedFB, ok_bind, pure_eq_ok]
  · exact hf _
  all_goals
    have : ∀ g : Bytes → Bytes, (do let iv ← readRange s (ivRange s.csr); Except.ok (g iv)) >>= f =
        (readRange s (ivRange s.csr) >>= fun v => f (g v)) := by
      intro g
      cases readRange s (ivRange s.csr) <;> rfl
    rw [this]
    exact EndsOk.read hp.early ⟨.disjoint, by simp [hin, runInputs]⟩ fun v _ => hf _

/-- What a plain RUN decrypt's data check asks of the stream it wrote. -/
theorem dataFails_run {m : Mode} (hi : plainRun i = some (m, .decrypt)) {t : State} {c : Code} :
    DataFails i s t c ↔ c = .pad ∧ ∃ out, readBytes t.dmem s.csr.dstPtr.toNat s.csr.srcLen.toNat = some out ∧
      unpadBytes (padCfg s.csr.ctrl) out = none := by
  cases i <;> simp [plainRun] at hi <;> rfl

/-- A plain RUN encrypt has no data check. -/
theorem not_dataFails_run {m : Mode} (hi : plainRun i = some (m, .encrypt)) {t : State} {c : Code} :
    ¬DataFails i s t c := by
  cases i <;> simp [plainRun] at hi <;> exact id

/-- A RUN decrypt ends with OK exactly if the stream it wrote unpads. -/
theorem runEffect_decrypt (m : Mode) (s : State) (fb msg : Bytes) :
    ((runEffect m .decrypt s fb msg).code = .ok ∧
        unpadBytes (padCfg s.csr.ctrl) (runEffect m .decrypt s fb msg).staged ≠ none) ∨
      ((runEffect m .decrypt s fb msg).code = .pad ∧
        unpadBytes (padCfg s.csr.ctrl) (runEffect m .decrypt s fb msg).staged = none) := by
  simp only [runEffect]
  split
  · next h => exact .inl ⟨rfl, by simp [h]⟩
  · next h => exact .inr ⟨rfl, by simpa using h⟩

theorem endsOk_run {m : Mode} {d : Dir} (hi : plainRun i = some (m, d)) :
    EndsOk i s (preRun m d s >>= fun _ => seedFB m s >>= fun fb =>
      readRange s (srcRange s.csr s.csr.srcLen.toNat) >>= fun msg => Except.ok (runEffect m d s fb msg)) := by
  refine EndsOk.checked (preRun_eq hi s) fun hp => endsOk_seed hi hp fun fb =>
    EndsOk.read hp.early ⟨.inPlace, ?_⟩ fun msg hmsg => ?_
  · rw [inputsOf_run hi]
    cases m <;> simp [runInputs]
  cases d
  · exact ⟨hp, fun _ => not_dataFails_run hi⟩
  have hpre : preRun m .decrypt s = .ok (destOf i s) := (preRun_eq hi s).trans ((ruledChecks_prechecked i s).pass hp)
  obtain ⟨-, hc, -, -, -, ha⟩ := preRun_eq_ok.mp hpre
  have hl : msg.length = s.csr.srcLen.toNat := readRange_length hmsg
  have hs : (runEffect m .decrypt s fb msg).staged.length = s.csr.srcLen.toNat := by
    rw [runEffect_staged_length hc (by rwa [hl])]
    exact hl
  have hw : readBytes (complete (runEffect m .decrypt s fb msg) s).dmem s.csr.dstPtr.toNat s.csr.srcLen.toNat =
      some (runEffect m .decrypt s fb msg).staged := by
    rw [complete_dmem, runEffect_dst, ← hs]
    exact readBytes_writeBytes_same _ _ _
  rcases runEffect_decrypt m s fb msg with ⟨h, hu⟩ | ⟨h, hu⟩
  · rw [EndsOk, h]
    refine ⟨hp, fun _ hd => ?_⟩
    obtain ⟨-, out, ho, hn⟩ := (dataFails_run hi).mp hd
    rw [hw, Option.some.injEq] at ho
    exact hu (ho ▸ hn)
  · rw [EndsOk, h]
    exact ⟨hp, (dataFails_run hi).mpr ⟨rfl, _, hw, hu⟩⟩

/-- The fault of a step that reads an unwritten byte. -/
def Faults (x : Except Stop Effect) : Prop := x = .error (.fault .unwrittenInput)

theorem Faults.read {r : Range} {f : Bytes → Except Stop Effect}
    (h : HoldsUnwritten s r ∨ ∀ v, Faults (f v)) : Faults (readRange s r >>= f) := by
  match hv : readRange s r with
  | .ok v =>
    rcases h with h | h
    · have := readRange_eq_error.mpr ⟨rfl, h⟩
      rw [hv] at this
      cases this
    · exact h v
  | .error e =>
    obtain ⟨rfl, -⟩ := readRange_eq_error.mp hv
    rfl

theorem Faults.readVec {α : Type} {k : Kind α} {p n : Nat} {f : List α → Except Stop Effect}
    (h : HoldsUnwritten s ⟨p, k.nb n⟩ ∨ ∀ v, Faults (f v)) : Faults (readVec k s p n >>= f) := by
  have : (Machine.readVec k s p n >>= f) = (readRange s ⟨p, k.nb n⟩ >>= fun v => f (k.unpack n v)) := by
    rw [Machine.readVec]
    cases readRange s ⟨p, k.nb n⟩ <;> rfl
  rw [this]
  exact Faults.read (h.imp id fun h v => h _)

/-- Where all checks pass, only the data step is left. -/
theorem checks_pass (hp : Passes i s) : ruledChecks i s = .ok (destOf i s) := (ruledChecks_prechecked i s).pass hp

theorem checkBounds_one (s : State) (r : Range) : checkBounds s [r] = check (inBounds s.cfg.dmemSize r) .bounds := by
  simp [checkBounds]

/-- PAD and UNPAD end as the rules say: `f` is the computation, `i` the command. -/
theorem endsOk_padCommand {f : Bytes → Option Bytes} (hi : i = .pad ∨ i = .unpad)
    (hd : ∀ m, readBytes s.dmem s.csr.srcPtr.toNat s.csr.srcLen.toNat = some m →
      destOf i s = dstRange s.csr (((f m).map List.length).getD 0))
    (hn : ∀ m t, readBytes s.dmem s.csr.srcPtr.toNat s.csr.srcLen.toNat = some m →
      (f m = none → DataFails i s t .pad) ∧ (f m ≠ none → ∀ c, ¬DataFails i s t c)) :
    EndsOk i s (padCommand f s >>= fun x => Except.ok (result s x.2 x.2.length)) := by
  have hc := configBad_pad hi s
  have hk : keyBad i s = false := by rcases hi with rfl | rfl <;> simp [keyBad, isBlock, isGcm, plainRun]
  have hl : lenBad i s = false := by rcases hi with rfl | rfl <;> rfl
  have ha : alignBad i s = false := by rcases hi with rfl | rfl <;> rfl
  have hin : inputsOf i s = [(srcRange s.csr s.csr.srcLen.toNat, .inPlace)] := by rcases hi with rfl | rfl <;> rfl
  simp only [padCommand, checkPadSource, checkBounds_one]
  cases h1 : padCommandConfigOk s.csr.ctrl
  · rw [h1] at hc
    exact hc
  rw [h1] at hc
  cases h2 : inBounds s.cfg.dmemSize (srcRange s.csr s.csr.srcLen.toNat)
  · refine ⟨hc, hk, hl, fun hf => ?_⟩
    have := inBounds_iff.mpr (hf.2 (srcRange s.csr s.csr.srcLen.toNat, .inPlace) (by simp [hin]))
    rw [h2] at this
    cases this
  simp only [check_true, ok_bind]
  match hm : readRange s (srcRange s.csr s.csr.srcLen.toNat) with
  | .error e =>
    obtain ⟨rfl, hu⟩ := readRange_eq_error.mp hm
    exact ⟨rfl, hc, hk, hl, _, hin ▸ List.mem_cons_self, hu⟩
  | .ok m =>
    have hm' : readBytes s.dmem s.csr.srcPtr.toNat s.csr.srcLen.toNat = some m := readRange_eq_ok.mp hm
    have hd := hd m hm'
    have hfit : inBounds s.cfg.dmemSize (destOf i s) = true → Fits i s := fun h =>
      ⟨inBounds_iff.mp h, by simpa [hin] using inBounds_iff.mp h2⟩
    simp only [ok_bind]
    cases hu : f m with
    | none =>
      simp only [hu, Option.map_none, Option.getD_none] at hd
      refine ⟨⟨hc, hk, hl, hfit (by rw [hd]; rfl), fun x _ hx => ?_, ha⟩, (hn m _ hm').1 hu⟩
      rw [hd] at hx
      exact absurd hx.1 (by simp [dstRange])
    | some u =>
      simp only [hu, Option.map_some, Option.getD_some] at hd
      have ho : NoOverlap i s ↔
          MayWrite (dstRange s.csr u.length) [(srcRange s.csr s.csr.srcLen.toNat, .inPlace)] := by
        rw [NoOverlap, hd, hin]
      simp only [checkPadDest, checkBounds_one]
      cases h3 : inBounds s.cfg.dmemSize (dstRange s.csr u.length)
      · refine ⟨hc, hk, hl, fun hf => ?_⟩
        have := inBounds_iff.mpr hf.1
        rw [hd, h3] at this
        cases this
      have hf := hfit (by rw [hd, h3])
      simp only [check_true, ok_bind]
      match h4 : checkOverlap (dstRange s.csr u.length) [(srcRange s.csr s.csr.srcLen.toNat, .inPlace)] with
      | .ok () =>
        exact ⟨⟨hc, hk, hl, hf, ho.mpr (checkOverlap_eq_ok.mp h4), ha⟩, (hn m _ hm').2 (by simp [hu])⟩
      | .error e =>
        have h5 : ¬NoOverlap i s := fun h => by
          rw [(checkOverlap_eq_ok (u := ())).mpr (ho.mp h)] at h4
          cases h4
        obtain ⟨-, rfl⟩ := check_eq_error.mp h4
        exact ⟨hc, hk, hl, hf, h5⟩

/-- The SUBST.BIT index is the number its bits are. -/
theorem kindInt_unpack_bit (v : Bytes) (n : Nat) (h : v.length = bitBytes n) :
    kindInt bitKind (bitKind.unpack n v) = vecInt v n := by
  unfold kindInt vecInt beIntBits
  congr 1
  simp only [bitKind]
  congr 1
  apply List.ext_getElem?
  intro i
  rw [List.getElem?_take, List.getElem?_map]
  by_cases hi : i < n
  · have hb : i / 8 < v.length := by
      rw [h, bitBytes]
      omega
    rw [if_pos hi, bits_getElem?, List.getElem?_range hi, List.getElem?_eq_getElem hb]
    simp [vecBit, hb]
  · rw [if_neg hi]
    simp [hi]

/-- How any command can end: in a completion whose code's cause holds, or in the model fault of an unwritten
input. -/
theorem exec_ends (i : Instr) (s : State) : ∃ x, exec i s = finish s x ∧ EndsOk i s x := by
  cases i with
  | nop =>
    obtain ⟨h1, h2, h3⟩ := plain_rest (i := .nop) rfl rfl rfl (by decide) (by decide) s
    exact ⟨.ok success, rfl, ⟨h1, h2, rfl, ⟨.inl rfl, fun _ h => by cases h⟩, fun _ h => (by cases h), h3⟩, fun _ h => h⟩
  | zeroize =>
    obtain ⟨h1, h2, h3⟩ := plain_rest (i := .zeroize) rfl rfl rfl (by decide) (by decide) s
    exact ⟨.ok { success with keys := some KeyStore.reset }, rfl,
      ⟨h1, h2, rfl, ⟨.inl rfl, fun _ h => by cases h⟩, fun _ h => (by cases h), h3⟩, fun _ h => h⟩
  | loadKey =>
    refine ⟨_, rfl, ?_⟩
    have e : ∀ f : Except Stop Effect, (preLoadKey s >>= fun _ => f) =
        ((preLoadKey s >>= fun _ => Except.ok (⟨0, 0⟩ : Range)) >>= fun _ => f) := by
      intro f
      cases preLoadKey s <;> rfl
    rw [e]
    exact EndsOk.checked (preLoadKey_eq s) fun hp =>
      EndsOk.read hp.early ⟨.disjoint, List.mem_cons_self⟩ fun v _ => ⟨hp, fun _ h => h⟩
  | blockF => exact ⟨_, rfl, endsOk_block rfl _⟩
  | blockI => exact ⟨_, rfl, endsOk_block rfl _⟩
  | runEcbE | runCbcE | runCfbE | runOfbE | runCtrE | runEcbD | runCbcD | runCfbD | runOfbD | runCtrD =>
    exact ⟨_, rfl, endsOk_run rfl⟩
  | runGcmE =>
    exact ⟨_, rfl, EndsOk.checked (preGcm_ruled rfl rfl) fun hp =>
      EndsOk.read hp.early ⟨.inPlace, by simp [inputsOf, srcRange]⟩ fun _ _ =>
      EndsOk.read hp.early ⟨.disjoint, by simp [inputsOf, ivRange]⟩ fun _ _ =>
      EndsOk.read hp.early ⟨.disjoint, by simp [inputsOf, aadRange]⟩ fun _ _ => ⟨hp, fun _ h => h⟩⟩
  | runGcmD =>
    refine ⟨_, rfl, EndsOk.checked (preGcm_ruled rfl rfl) fun hp =>
      EndsOk.check (fun h => ⟨hp, rfl, .inl (by simpa using h)⟩) fun h16 =>
      EndsOk.read hp.early ⟨.inPlace, by simp [inputsOf, srcRange]⟩ fun ct hct =>
      EndsOk.read hp.early ⟨.disjoint, by simp [inputsOf, ivRange]⟩ fun iv hiv =>
      EndsOk.read hp.early ⟨.disjoint, by simp [inputsOf, aadRange]⟩ fun aad haad => ?_⟩
    have hct := readRange_eq_ok.mp hct
    have hiv := readRange_eq_ok.mp hiv
    have haad := readRange_eq_ok.mp haad
    have h16 : 16 ≤ s.csr.srcLen.toNat := by simpa using h16
    have hl : ct.length = s.csr.srcLen.toNat := readBytes_length hct
    have hd : (destOf .runGcmD s).len = ct.length - 16 := by rw [hl]; rfl
    dsimp only
    split
    · next htag =>
      refine ⟨hp, ?_⟩
      rintro _ ⟨-, h | ⟨c, tag, iv', aad', ht, hc', hiv', haad', hne⟩⟩
      · omega
      have e1 : ct = c ++ tag := Option.some.inj (hct.symm.trans hc')
      have e2 : iv = iv' := Option.some.inj (hiv.symm.trans hiv')
      have e3 : aad = aad' := Option.some.inj (haad.symm.trans haad')
      have e4 : (destOf .runGcmD s).len = c.length := by
        rw [hd, e1, List.length_append, ht]
        omega
      subst e1 e2 e3
      rw [e4, List.take_left, List.drop_left] at htag
      exact hne htag.symm
    · next htag =>
      refine ⟨hp, rfl, .inr ⟨ct.take (destOf .runGcmD s).len, ct.drop (destOf .runGcmD s).len, iv, aad, ?_, ?_, hiv, haad,
        fun h => htag h.symm⟩⟩
      · rw [List.length_drop, hd]
        omega
      · rw [List.take_append_drop]
        exact hct
  | xorB =>
    exact ⟨_, rfl, EndsOk.checked (preXor_byte_eq s) fun hp =>
      EndsOk.readVec hp.early ⟨.inPlace, by simp [inputsOf, byteKind]⟩ fun _ _ =>
      EndsOk.readVec hp.early ⟨.disjoint, by simp [inputsOf, byteKind]⟩ fun _ _ => ⟨hp, fun _ h => h⟩⟩
  | xorBit =>
    exact ⟨_, rfl, EndsOk.checked (preXor_bit_eq s) fun hp =>
      EndsOk.readVec hp.early ⟨.inPlace, by simp [inputsOf, bitKind, bitBytes]⟩ fun _ _ =>
      EndsOk.readVec hp.early ⟨.disjoint, by simp [inputsOf, bitKind, bitBytes]⟩ fun _ _ => ⟨hp, fun _ h => h⟩⟩
  | permB =>
    exact ⟨_, rfl, EndsOk.checked (prePerm_byte_eq s) fun hp =>
      EndsOk.readVec hp.early ⟨.disjoint, by simp [inputsOf, byteKind]⟩ fun _ _ =>
      EndsOk.read hp.early ⟨.disjoint, by simp [inputsOf, auxRange]⟩ fun _ _ => ⟨hp, fun _ h => h⟩⟩
  | permBit =>
    exact ⟨_, rfl, EndsOk.checked (prePerm_bit_eq s) fun hp =>
      EndsOk.readVec hp.early ⟨.disjoint, by simp [inputsOf, bitKind, bitBytes]⟩ fun _ _ =>
      EndsOk.read hp.early ⟨.disjoint, by simp [inputsOf, auxRange]⟩ fun _ _ => ⟨hp, fun _ h => h⟩⟩
  | substB =>
    refine ⟨_, rfl, EndsOk.checked (preSubstB_eq s) fun hp =>
      EndsOk.readVec hp.early ⟨.disjoint, by simp [inputsOf, byteKind]⟩ fun v hv =>
      EndsOk.read hp.early ⟨.disjoint, by simp [inputsOf, auxRange]⟩ fun _ _ => ?_⟩
    have hv : readBytes s.dmem s.csr.srcPtr.toNat s.csr.srcLen.toNat = some v := hv
    have hk : kindInt byteKind (byteKind.unpack s.csr.srcLen.toNat v) = beInt v := by
      rw [show byteKind.unpack s.csr.srcLen.toNat v = v from List.take_of_length_le (readBytes_length hv).le]
      rfl
    rw [hk]
    refine EndsOk.check (fun h => .inr ⟨hp, rfl, v, hv, by simpa using h⟩) fun h => ⟨hp, ?_⟩
    rintro _ ⟨-, w, hw, hle⟩
    have : v = w := Option.some.inj (hv.symm.trans hw)
    subst this
    have := of_decide_eq_true h
    omega
  | substBit =>
    refine ⟨_, rfl, EndsOk.checked (preSubstBit_eq s) fun hp =>
      EndsOk.readVec hp.early ⟨.disjoint, by simp [inputsOf, bitKind, bitBytes]⟩ fun v hv =>
      EndsOk.read hp.early ⟨.disjoint, by simp [inputsOf, auxRange]⟩ fun _ _ => ?_⟩
    have hv : readBytes s.dmem s.csr.srcPtr.toNat (bitBytes s.csr.srcLen.toNat) = some v := hv
    rw [kindInt_unpack_bit v _ (readBytes_length hv)]
    refine EndsOk.check (fun h => .inr ⟨hp, rfl, v, hv, by simpa using h⟩) fun h => ⟨hp, ?_⟩
    rintro _ ⟨-, w, hw, hle⟩
    have : v = w := Option.some.inj (hv.symm.trans hw)
    subst this
    have := of_decide_eq_true h
    omega
  | alignB =>
    exact ⟨_, rfl, EndsOk.checked (preAlign_byte_eq s) fun hp =>
      EndsOk.readVec hp.early ⟨.disjoint, by simp [inputsOf, byteKind]⟩ fun _ _ => ⟨hp, fun _ h => h⟩⟩
  | alignBit =>
    exact ⟨_, rfl, EndsOk.checked (preAlign_bit_eq s) fun hp =>
      EndsOk.readVec hp.early ⟨.disjoint, by simp [inputsOf, bitKind, bitBytes]⟩ fun _ _ => ⟨hp, fun _ h => h⟩⟩
  | incB =>
    exact ⟨_, rfl, EndsOk.checked (preInc_byte_eq (.inl rfl) s) fun hp =>
      EndsOk.readVec hp.early ⟨.inPlace, by simp [inputsOf, byteKind]⟩ fun _ _ => ⟨hp, fun _ h => h⟩⟩
  | inc32B =>
    exact ⟨_, rfl, EndsOk.checked (preInc_byte_eq (.inr rfl) s) fun hp =>
      EndsOk.readVec hp.early ⟨.inPlace, by simp [inputsOf, byteKind]⟩ fun _ _ => ⟨hp, fun _ h => h⟩⟩
  | incBit =>
    exact ⟨_, rfl, EndsOk.checked (preInc_bit_eq (.inl rfl) s) fun hp =>
      EndsOk.readVec hp.early ⟨.inPlace, by simp [inputsOf, bitKind, bitBytes]⟩ fun _ _ => ⟨hp, fun _ h => h⟩⟩
  | inc32Bit =>
    exact ⟨_, rfl, EndsOk.checked (preInc_bit_eq (.inr rfl) s) fun hp =>
      EndsOk.readVec hp.early ⟨.inPlace, by simp [inputsOf, bitKind, bitBytes]⟩ fun _ _ => ⟨hp, fun _ h => h⟩⟩
  | gfmul =>
    exact ⟨_, rfl, EndsOk.checked (preGfmul_eq s) fun hp =>
      EndsOk.read hp.early ⟨.inPlace, by simp [inputsOf, srcRange]⟩ fun _ _ =>
      EndsOk.read hp.early ⟨.inPlace, by simp [inputsOf, auxRange]⟩ fun _ _ => ⟨hp, fun _ h => h⟩⟩
  | ghash =>
    exact ⟨_, rfl, EndsOk.checked (preGhash_eq s) fun hp =>
      EndsOk.read hp.early ⟨.inPlace, by simp [inputsOf, srcRange]⟩ fun _ _ =>
      EndsOk.read hp.early ⟨.inPlace, by simp [inputsOf, auxRange]⟩ fun _ _ => ⟨hp, fun _ h => h⟩⟩
  | pad =>
    refine ⟨_, rfl, endsOk_padCommand (.inl rfl) (fun m hm => ?_) fun m t _ => ⟨fun h => (by cases h), fun _ _ h => h⟩⟩
    simp [destOf, dstRange, readBytes_length hm]
  | unpad =>
    refine ⟨_, rfl, endsOk_padCommand (.inr rfl) (fun m hm => ?_) fun m t hm => ⟨fun h => ⟨rfl, m, hm, h⟩, ?_⟩⟩
    · simp only [destOf, hm, Option.bind_some, dstRange]
      cases unpadBytes (padCfg s.csr.ctrl) m <;> rfl
    · rintro h _ ⟨-, w, hw, hn⟩
      have : m = w := Option.some.inj (hm.symm.trans hw)
      exact h (this ▸ hn)

end Sys2Proof.Machine
end

