-- ==== Sys2Proof/Laws/FastDes.lean ====
section
/-! SUPPORT. The DES functions on numbers: the same results as 41_des_engine.md's bit-vector form, which stays the
model, in a form the kernel evaluates quickly. A bit vector of n bits stands as `beBits n x`. -/

namespace Sys2Proof.Machine

/-! ### Bit vectors as numbers -/

theorem beBits_succ (n x : Nat) : beBits (n + 1) x = beBits n (x / 2) ++ [decide (x % 2 = 1)] := by
  simp [beBits, beDigits]

/-- Bit i of n is the number's bit n − 1 − i. -/
theorem beBits_getElem? (n x i : Nat) (h : i < n) : (beBits n x)[i]? = some (x.testBit (n - 1 - i)) := by
  induction n generalizing x with
  | zero => omega
  | succ n ih =>
    rw [beBits_succ]
    by_cases hi : i < n
    · rw [List.getElem?_append_left (by simpa using hi), ih (x / 2) hi, Nat.testBit_div_two]
      congr 2
      omega
    · obtain rfl : i = n := by omega
      rw [List.getElem?_append_right (by simp)]
      simp [Nat.testBit_zero]

theorem eq_beBits {n x : Nat} {v : Bits} (hl : v.length = n) (h : ∀ i < n, v[i]? = some (x.testBit (n - 1 - i))) :
    v = beBits n x := by
  refine List.ext_getElem? fun i => ?_
  by_cases hi : i < n
  · rw [h i hi, beBits_getElem? n x i hi]
  · rw [List.getElem?_eq_none (by omega), List.getElem?_eq_none (by simp; omega)]

theorem beBits_append (a b x y : Nat) (hy : y < 2 ^ b) : beBits a x ++ beBits b y = beBits (a + b) (x * 2 ^ b + y) := by
  refine eq_beBits (by simp) fun i hi => ?_
  rw [Nat.mul_comm]
  by_cases h : i < a
  · rw [List.getElem?_append_left (by simpa using h), beBits_getElem? _ _ _ h, Nat.testBit_two_pow_mul_add _ hy,
      if_neg (by omega)]
    congr 2
    omega
  · rw [List.getElem?_append_right (by simpa using h), beBits_length, beBits_getElem? _ _ _ (by omega),
      Nat.testBit_two_pow_mul_add _ hy, if_pos (by omega)]
    congr 2
    omega

theorem beBits_mod (n x : Nat) : beBits n (x % 2 ^ n) = beBits n x := by
  refine eq_beBits (by simp) fun i hi => ?_
  rw [beBits_getElem? _ _ _ hi, Nat.testBit_mod_two_pow, decide_eq_true (by omega), Bool.true_and]

theorem beBits_split (a b x : Nat) : beBits (a + b) x = beBits a (x / 2 ^ b) ++ beBits b x := by
  rw [← beBits_mod b x, beBits_append _ _ _ _ (Nat.mod_lt _ (Nat.two_pow_pos b)), Nat.div_add_mod']

theorem beIntBits_beBits (n x : Nat) : beIntBits (beBits n x) = x % 2 ^ n := by
  rw [beIntBits, beBits, map_map_of_lt (base := 2) (fun d hd => ?_) (beDigits_lt (by omega) _ _), beNat_beDigits]
  interval_cases d <;> rfl

theorem beNat_append (base : Nat) (ds es : List Nat) :
    beNat base (ds ++ es) = beNat base ds * base ^ es.length + beNat base es := by
  induction es using List.reverseRecOn with
  | nil => simp [beNat]
  | append_singleton es e ih =>
    rw [← List.append_assoc, beNat_append_singleton, ih, beNat_append_singleton, List.length_append]
    simp only [List.length_singleton, Nat.pow_succ]
    ring

theorem beNat_bitsOfByte (b : Byte) : beNat 2 ((bitsOfByte b).map Bool.toNat) = b.toNat := by
  revert b
  decide +kernel

/-- The bits of bytes make up the number the bytes do. -/
theorem beIntBits_bits (v : Bytes) : beIntBits (bits v) = beInt v := by
  induction v using List.reverseRecOn with
  | nil => rfl
  | append_singleton v b ih =>
    have e : bits (v ++ [b]) = bits v ++ bitsOfByte b := by simp [bits]
    rw [beIntBits] at ih ⊢
    rw [e, List.map_append, beNat_append, ih, beNat_bitsOfByte, List.length_map, bitsOfByte_length, beInt,
      beInt, List.map_append, List.map_cons, List.map_nil, beNat_append_singleton]
    rfl

theorem beBits_beIntBits (v : Bits) : beBits v.length (beIntBits v) = v := by
  have h : ∀ d ∈ v.map Bool.toNat, d < 2 := by
    simp only [List.mem_map]
    rintro _ ⟨b, -, rfl⟩
    cases b <;> decide
  have e := beDigits_beNat h
  rw [List.length_map] at e
  rw [beBits, beIntBits, e, List.map_map]
  conv_rhs => rw [← List.map_id v]
  exact List.map_congr_left fun b _ => by cases b <;> rfl

theorem bits_eq_beBits (v : Bytes) : bits v = beBits (8 * v.length) (beInt v) := by
  rw [← beIntBits_bits, ← bits_length, beBits_beIntBits]

theorem bytes_beBits (n x : Nat) : bytes (beBits (8 * n) x) = beBytes n x := by
  have e : bits (beBytes n x) = beBits (8 * n) x := by
    rw [bits_eq_beBits, beInt_beBytes, beBytes_length, show (256 : Nat) = 2 ^ 8 from rfl, ← Nat.pow_mul, beBits_mod]
  rw [← e, bytes_bits]

/-! ### The DES operations -/

/-- perm of an n-bit number by a 1-based table (R160). -/
def fastPerm (n x : Nat) (table : List Nat) : Nat := table.foldl (fun acc j => 2 * acc + x / 2 ^ (n - j) % 2) 0

theorem permTable_beBits (n x : Nat) (table : List Nat) (h : ∀ j ∈ table, 1 ≤ j ∧ j ≤ n) :
    permTable (beBits n x) table = beBits table.length (fastPerm n x table) := by
  induction table using List.reverseRecOn with
  | nil => rfl
  | append_singleton t j ih =>
    have hj := h j (by simp)
    have e : permTable (beBits n x) (t ++ [j]) = permTable (beBits n x) t ++ [(beBits n x).getD (j - 1) false] := by
      simp [permTable, permVec]
    have e2 : fastPerm n x (t ++ [j]) = 2 * fastPerm n x t + x / 2 ^ (n - j) % 2 := by simp [fastPerm]
    rw [e, ih fun k hk => h k (by simp [hk]), List.length_append, List.length_singleton, beBits_succ, e2,
      List.getD_eq_getElem?_getD, beBits_getElem? _ _ _ (by omega), Nat.testBit_eq_decide_div_mod_eq]
    have e3 : n - 1 - (j - 1) = n - j := by omega
    have e4 : (2 * fastPerm n x t + x / 2 ^ (n - j) % 2) / 2 = fastPerm n x t := by omega
    have e5 : (2 * fastPerm n x t + x / 2 ^ (n - j) % 2) % 2 = x / 2 ^ (n - j) % 2 := by omega
    rw [e3, e4, e5, Option.getD_some]

theorem xorBits_beBits (n x y : Nat) : xorBits (beBits n x) (beBits n y) = beBits n (x ^^^ y) := by
  refine eq_beBits (by simp) fun i hi => ?_
  rw [xorBits, xorVec_getElem?, beBits_getElem? _ _ _ hi, beBits_length, Nat.mod_eq_of_lt hi, Option.map_some,
    List.getD_eq_getElem?_getD, beBits_getElem? _ _ _ hi, Nat.testBit_xor]
  rfl

theorem subkeyBits_eq (k : SubKey) : subkeyBits k = beBits 48 k.toNat := by
  refine eq_beBits (by simp [subkeyBits]) fun i hi => ?_
  simp [subkeyBits, hi, BitVec.getMsbD, BitVec.getLsbD]

/-- The S-boxes `ss` on the low 6 · |ss| bits of x (R173). -/
def fastSub (x : Nat) : List (List Nat) → Nat
  | [] => 0
  | s :: ss => sboxRow s (x / 2 ^ (6 * ss.length) % 64) * 2 ^ (4 * ss.length) + fastSub x ss

theorem fastSub_lt (x : Nat) (ss : List (List Nat)) (h : ∀ s ∈ ss, ∀ v, sboxRow s v < 16) :
    fastSub x ss < 2 ^ (4 * ss.length) := by
  induction ss with
  | nil => simp [fastSub]
  | cons s ss ih =>
    have h1 := h s (by simp) (x / 2 ^ (6 * ss.length) % 64)
    have h2 := ih fun t ht => h t (by simp [ht])
    have e : 2 ^ (4 * (ss.length + 1)) = 16 * 2 ^ (4 * ss.length) := by rw [Nat.mul_add, Nat.pow_add]; ring
    rw [fastSub, List.length_cons, e]
    have := Nat.mul_le_mul_right (2 ^ (4 * ss.length)) (Nat.le_of_lt_succ h1)
    omega

theorem chunks_six (k x : Nat) : chunks 6 (beBits (6 * (k + 1)) x) = beBits 6 (x / 2 ^ (6 * k)) :: chunks 6 (beBits (6 * k) x) := by
  have e : beBits (6 * (k + 1)) x = beBits 6 (x / 2 ^ (6 * k)) ++ beBits (6 * k) x := by
    rw [show 6 * (k + 1) = 6 + 6 * k by omega, beBits_split]
  refine List.ext_getElem? fun i => ?_
  rw [chunks_getElem? (by omega), e]
  cases i with
  | zero => simp
  | succ i =>
    rw [List.getElem?_cons_succ, chunks_getElem? (by omega)]
    have hd : (beBits 6 (x / 2 ^ (6 * k)) ++ beBits (6 * k) x).drop ((i + 1) * 6) = (beBits (6 * k) x).drop (i * 6) := by
      rw [List.drop_append, List.drop_eq_nil_of_le (by simp)]
      simp [Nat.add_mul]
    rw [hd]
    simp only [List.length_append, beBits_length]
    exact if_congr ⟨fun h => by omega, fun h => by omega⟩ rfl rfl

theorem substituteGroups_beBits (x : Nat) (ss : List (List Nat)) (h : ∀ s ∈ ss, ∀ v, sboxRow s v < 16) :
    ((chunks 6 (beBits (6 * ss.length) x)).zip ss).flatMap (fun p => beBits 4 (sboxRow p.2 (beIntBits p.1))) =
      beBits (4 * ss.length) (fastSub x ss) := by
  induction ss with
  | nil => rfl
  | cons s ss ih =>
    have hs : ∀ t ∈ ss, ∀ v, sboxRow t v < 16 := fun t ht => h t (by simp [ht])
    rw [List.length_cons, chunks_six, List.zip_cons_cons, List.flatMap_cons, ih hs, beIntBits_beBits,
      beBits_append _ _ _ _ (fastSub_lt x ss hs), fastSub, show 4 * (ss.length + 1) = 4 + 4 * ss.length by omega]
    rfl

theorem getD_lt {s : List Nat} (h : ∀ d ∈ s, d < 16) (i : Nat) : s.getD i 0 < 16 := by
  rw [List.getD_eq_getElem?_getD]
  cases e : s[i]? with
  | none => simp
  | some d => exact h d (List.mem_of_getElem? e)

theorem sboxes_lt : ∀ s ∈ sboxes, ∀ v, sboxRow s v < 16 := by
  have h : ∀ s ∈ sboxes, ∀ d ∈ s, d < 16 := by decide +kernel
  exact fun s hs v => getD_lt (h s hs) _

/-- The round function on a 32-bit half (R173). -/
def fastF (r k : Nat) : Nat := fastPerm 32 (fastSub (fastPerm 32 r tableE ^^^ k) sboxes) tableP

theorem roundF_beBits (r : Nat) (k : SubKey) : roundF (beBits 32 r) k = beBits 32 (fastF r k.toNat) := by
  rw [roundF, permTable_beBits 32 r tableE (by decide), subkeyBits_eq]
  show permTable (substituteGroups (xorBits (beBits 48 _) (beBits 48 _))) tableP = _
  rw [xorBits_beBits]
  show permTable (((chunks 6 (beBits (6 * sboxes.length) _)).zip sboxes).flatMap _) tableP = _
  rw [substituteGroups_beBits _ _ sboxes_lt]
  exact permTable_beBits 32 _ tableP (by decide)

/-- The 16 rounds on a pair of halves (R174). -/
def fastRounds : List SubKey → Nat → Nat → Nat × Nat
  | [], l, r => (l, r)
  | k :: ks, l, r => fastRounds ks r (l ^^^ fastF r k.toNat)

theorem feistel_beBits (ks : List SubKey) (l r : Nat) :
    ks.foldl feistelRound (beBits 32 l, beBits 32 r) =
      (beBits 32 (fastRounds ks l r).1, beBits 32 (fastRounds ks l r).2) := by
  induction ks generalizing l r with
  | nil => rfl
  | cons k ks ih =>
    rw [List.foldl_cons, fastRounds, feistelRound]
    simp only [roundF_beBits, xorBits_beBits, ih]

/-- The DES block transform on the number its 8 bytes are (R174). -/
def fastBlock (x : Bytes) (ks : List SubKey) : Bytes :=
  let b := fastPerm 64 (beInt x) tableIP
  let lr := fastRounds ks (b / 2 ^ 32) (b % 2 ^ 32)
  beBytes 8 (fastPerm 64 (lr.2 % 2 ^ 32 * 2 ^ 32 + lr.1 % 2 ^ 32) tableFP)

/-- The fast form is the model's, on every 8-byte block. -/
theorem desBlock_eq_fast {x : Bytes} (hx : x.length = 8) (ks : List SubKey) : desBlock x ks = fastBlock x ks := by
  have h0 : permTable (bits x) tableIP = beBits 64 (fastPerm 64 (beInt x) tableIP) := by
    have e := permTable_beBits 64 (beInt x) tableIP (by decide)
    rw [show tableIP.length = 64 from rfl] at e
    rw [bits_eq_beBits, hx, ← e]
  have h1 : (beBits 64 (fastPerm 64 (beInt x) tableIP)).take 32 = beBits 32 (fastPerm 64 (beInt x) tableIP / 2 ^ 32) := by
    rw [beBits_split 32 32, List.take_left' (by simp)]
  have h2 : (beBits 64 (fastPerm 64 (beInt x) tableIP)).drop 32 = beBits 32 (fastPerm 64 (beInt x) tableIP % 2 ^ 32) := by
    rw [beBits_split 32 32, List.drop_left' (by simp), beBits_mod]
  simp only [desBlock, h0, h1, h2, feistel_beBits, fastBlock]
  rw [← beBits_mod 32 (fastRounds ks _ _).2, ← beBits_mod 32 (fastRounds ks _ _).1,
    beBits_append _ _ _ _ (Nat.mod_lt _ (by decide)), permTable_beBits 64 _ tableFP (by decide),
    show tableFP.length = 8 * 8 from rfl, bytes_beBits]

/-! ### The transforms CTRL.ALG selects -/

/-- The fast form where it applies, the model's elsewhere. -/
def fastDes (x : Bytes) (ks : List SubKey) : Bytes := if x.length = 8 then fastBlock x ks else desBlock x ks

theorem desBlock_eq_fastDes : desBlock = fastDes := by
  funext x ks
  unfold fastDes
  split
  · exact desBlock_eq_fast ‹_› ks
  · rfl

/-- T of R179 in the fast form. -/
def fastT (s : State) (x : Bytes) : Bytes :=
  match algOf s.csr.ctrl with
  | .des => fastDes x s.keys.sk1.toList
  | .tdes => fastDes (fastDes (fastDes x s.keys.sk1.toList) s.keys.sk2.toList.reverse) s.keys.sk3.toList
  | .ext128 => extF x
  | .reserved => x

/-- Tinv of R179 in the fast form. -/
def fastTinv (s : State) (x : Bytes) : Bytes :=
  match algOf s.csr.ctrl with
  | .des => fastDes x s.keys.sk1.toList.reverse
  | .tdes => fastDes (fastDes (fastDes x s.keys.sk3.toList.reverse) s.keys.sk2.toList) s.keys.sk1.toList.reverse
  | .ext128 => extInv x
  | .reserved => x

theorem blockT_eq_fast (s : State) : blockT s = fastT s := by
  funext x
  cases h : algOf s.csr.ctrl <;> simp [blockT, fastT, h, tdesE, desE, desD, desBlock_eq_fastDes]

theorem blockTinv_eq_fast (s : State) : blockTinv s = fastTinv s := by
  funext x
  cases h : algOf s.csr.ctrl <;> simp [blockTinv, fastTinv, h, tdesD, desE, desD, desBlock_eq_fastDes]

end Sys2Proof.Machine
end

