-- ==== Sys2Proof/Laws/PerInstr.lean ====
section
/-! SUPPORT. A fact about every command as syntax, one lemma a command: its word passes the three conditions of
R96. -/

namespace Sys2Proof.Laws.WordLegal

/-- The word the encoder gives a command is well formed (R96, R97). -/
def Statement (i : Instr) : Prop := (splitWord (encode i)).wellFormed = true

theorem nop : Statement .nop := rfl
theorem zeroize : Statement .zeroize := rfl
theorem loadKey : Statement .loadKey := rfl
theorem blockF : Statement .blockF := rfl
theorem blockI : Statement .blockI := rfl
theorem runEcbE : Statement .runEcbE := rfl
theorem runCbcE : Statement .runCbcE := rfl
theorem runCfbE : Statement .runCfbE := rfl
theorem runOfbE : Statement .runOfbE := rfl
theorem runCtrE : Statement .runCtrE := rfl
theorem runGcmE : Statement .runGcmE := rfl
theorem runEcbD : Statement .runEcbD := rfl
theorem runCbcD : Statement .runCbcD := rfl
theorem runCfbD : Statement .runCfbD := rfl
theorem runOfbD : Statement .runOfbD := rfl
theorem runCtrD : Statement .runCtrD := rfl
theorem runGcmD : Statement .runGcmD := rfl
theorem xorB : Statement .xorB := rfl
theorem xorBit : Statement .xorBit := rfl
theorem permB : Statement .permB := rfl
theorem permBit : Statement .permBit := rfl
theorem substB : Statement .substB := rfl
theorem substBit : Statement .substBit := rfl
theorem alignB : Statement .alignB := rfl
theorem alignBit : Statement .alignBit := rfl
theorem incB : Statement .incB := rfl
theorem incBit : Statement .incBit := rfl
theorem inc32B : Statement .inc32B := rfl
theorem inc32Bit : Statement .inc32Bit := rfl
theorem gfmul : Statement .gfmul := rfl
theorem ghash : Statement .ghash := rfl
theorem pad : Statement .pad := rfl
theorem unpad : Statement .unpad := rfl

end Sys2Proof.Laws.WordLegal
end

