-- ==== Sys2Proof/Tests/Slice0.lean ====
section
/-! SUPPORT. The model's own tests: words written out from 30_encoding.md, single steps whose results stand in
95_test_vectors.md, and for every obligation with hypotheses a state that meets them. -/

namespace Sys2Proof.Tests

open Sys2Proof Sys2Proof.Machine

-- One kernel check at a time: each takes a thread of its own.
set_option Elab.async false

/-! ### Helpers -/

/-- The `n` bytes of a number written in hex, byte 0 first. -/
def hex : Nat → Nat → Bytes
  | 0, _ => []
  | n + 1, x => BitVec.ofNat 8 (x / 256 ^ n) :: hex n x

/-- DMEM with these bytes written at these addresses. -/
def mem (ms : List (Nat × Bytes)) : Memory := ms.foldl (fun m p => writeBytes m p.1 p.2) []

/-- A state from its operands: pointers and lengths as pairs, AUX at 0x200, IV at 0x40, DST at 0x400. -/
def st (ms : List (Nat × Bytes)) (n : Nat) (m : Nat := 0) (ctrl param : Word := 0) (src : Nat := 0x100)
    (dst : Nat := 0x400) (keys : KeyStore := KeyStore.reset) : State :=
  { State.reset with
    keys := keys
    csr := { Csrs.reset with
      ctrl := ctrl, param := param, ivPtr := 0x40, ivLen := 8, srcPtr := BitVec.ofNat 32 src,
      srcLen := BitVec.ofNat 32 n, auxPtr := 0x200, auxLen := BitVec.ofNat 32 m, dstPtr := BitVec.ofNat 32 dst }
    dmem := mem ms }

/-- What a completion shows: its code, OUT_LEN, and `n` bytes of DMEM from `p`. -/
def ended (p n : Nat) (o : Host.Outcome State Fault Refusal) : Option (Code × Nat × Option Bytes) :=
  match o with
  | .next t => some (t.status.errcode, t.outLen.toNat, readBytes t.dmem p n)
  | _ => none

/-- The STATUS word after a step. -/
def statusOf (o : Host.Outcome State Fault Refusal) : Option Word :=
  match o with
  | .next t => some (readCsr t .status)
  | _ => none

/-- The step answers a next state. -/
def isNext (o : Host.Outcome State Fault Refusal) : Bool :=
  match o with
  | .next _ => true
  | _ => false

/-- The schedule R171 lists for key 13 34 57 79 9B BC DF F1. -/
def listedKeys : Schedule :=
  #v[0x1B02EFFC7072, 0x79AED9DBC9E5, 0x55FC8A42CF99, 0x72ADD6DB351D, 0x7CEC07EB53A8, 0x63A53E507B2F,
    0xEC84B7F618BC, 0xF78A3AC13BFB, 0xE0DBEBEDE781, 0xB1F347BA464F, 0x215FD3DED386, 0x7571F59467E9,
    0x97C5D1FABA41, 0x5F43B7F2E73A, 0xBF918D3D3F0A, 0xCB3D8B0E17F5]

/-- That key loaded for DES. -/
def desStore : KeyStore := { KeyStore.reset with sk1 := listedKeys, kvalid := true }

/-- That key loaded three times for TDES. -/
def tdesStore : KeyStore := { sk1 := listedKeys, sk2 := listedKeys, sk3 := listedKeys, kvalid := true, kalg := 1 }

/-! ### Well-formedness: an ill-formed word for each check (R96) -/

theorem smoke_zero : (RawWord.mk 0x04 0x0 1).zeroOk = false ∧ (RawWord.mk 0x04 0x0 1).wellFormed = false := by decide

theorem smoke_op : (RawWord.mk 0x16 0x0 0).opOk = false ∧ (RawWord.mk 0x16 0x0 0).wellFormed = false := by decide

theorem smoke_fn_run : (RawWord.mk 0x04 0x6 0).fnOk = false ∧ (RawWord.mk 0x04 0xE 0).wellFormed = false := by decide

theorem smoke_fn_block : (RawWord.mk 0x03 0x1 0).fnOk = false ∧ (RawWord.mk 0x03 0x9 0).wellFormed = false := by decide

theorem smoke_fn_vector : (RawWord.mk 0x10 0x2 0).fnOk = false ∧ (RawWord.mk 0x15 0x8 0).wellFormed = false := by decide

theorem smoke_fn_plain : (RawWord.mk 0x00 0x1 0).fnOk = false ∧ (RawWord.mk 0x18 0x1 0).wellFormed = false := by decide

theorem smoke_legal : (RawWord.mk 0x04 0xD 0).wellFormed = true ∧ (RawWord.mk 0x15 0x1 0).wellFormed = true := by decide

/-! ### Decoding: R90's fields 31:12, FN, OP with R93's MODE, R94's DIR, R95's G -/

/-- A word from bits 31:12, FN and OP. -/
def word (fn : BitVec 4) (op : BitVec 8) : Word := (0 : BitVec 20) ++ fn ++ op

theorem test_decode_run :
    [word 0b0000 0b00000100, word 0b0001 0b00000100, word 0b0010 0b00000100, word 0b0011 0b00000100,
      word 0b0100 0b00000100, word 0b0101 0b00000100, word 0b1000 0b00000100, word 0b1001 0b00000100,
      word 0b1010 0b00000100, word 0b1011 0b00000100, word 0b1100 0b00000100, word 0b1101 0b00000100].map decode =
    [some .runEcbE, some .runCbcE, some .runCfbE, some .runOfbE, some .runCtrE, some .runGcmE, some .runEcbD,
      some .runCbcD, some .runCfbD, some .runOfbD, some .runCtrD, some .runGcmD] := by decide

theorem test_decode_vector :
    [word 0b0000 0b00010000, word 0b0001 0b00010000, word 0b0000 0b00010001, word 0b0001 0b00010001,
      word 0b0000 0b00010010, word 0b0001 0b00010010, word 0b0000 0b00010011, word 0b0001 0b00010011,
      word 0b0000 0b00010100, word 0b0001 0b00010100, word 0b0000 0b00010101, word 0b0001 0b00010101].map decode =
    [some .xorB, some .xorBit, some .permB, some .permBit, some .substB, some .substBit, some .alignB,
      some .alignBit, some .incB, some .incBit, some .inc32B, some .inc32Bit] := by decide

theorem test_decode_block_plain :
    [word 0b0000 0b00000011, word 0b1000 0b00000011, word 0 0b00000000, word 0 0b00000001, word 0 0b00000010,
      word 0 0b00011000, word 0 0b00011001, word 0 0b00100000, word 0 0b00100001].map decode =
    [some .blockF, some .blockI, some .nop, some .zeroize, some .loadKey, some .gfmul, some .ghash, some .pad,
      some .unpad] := by decide

/-- V-C3. -/
theorem test_illegal_words :
    [0x00001000, 0x80000000, 0x000000FF, 0x00000016, 0x00000604, 0x00000704, 0x00000103, 0x00000210, 0x00000100,
      0x00000118].map decode = List.replicate 10 none := by decide +kernel

/-- V-C3: the completion of an illegal word, STATUS 0x00000106. -/
theorem test_illegal_step : statusOf (step (State.reset.withFetchWord 32 0x604)) = some 0x00000106 := by decide

/-! ### Tables of 41_des_engine.md -/

/-- R166, the 64-row form: row 0 to 15 of S1 and rows 48 to 63 of S8. -/
theorem test_sbox_rows :
    (List.range 16).map (sboxRow sbox1) = [14, 0, 4, 15, 13, 7, 1, 4, 2, 14, 15, 2, 11, 13, 8, 1] ∧
      (List.range 16).map (fun v => sboxRow sbox8 (48 + v)) =
        [0, 15, 6, 12, 10, 9, 13, 0, 15, 3, 3, 5, 5, 6, 8, 11] := by decide +kernel

/-- R171's table, rounds 1 and 16. -/
theorem test_fused_tables :
    fusedTable 0 = [9, 50, 33, 59, 48, 16, 32, 56, 1, 8, 18, 41, 2, 34, 25, 24, 43, 57, 58, 0, 35, 26, 17, 40, 21, 27,
      38, 53, 36, 3, 46, 29, 4, 52, 22, 28, 60, 20, 37, 62, 14, 19, 44, 13, 12, 61, 54, 30] ∧
    fusedTable 15 = [17, 58, 41, 2, 56, 24, 40, 35, 9, 16, 26, 49, 10, 42, 33, 32, 51, 0, 1, 8, 43, 34, 25, 48, 29, 4,
      46, 61, 44, 11, 54, 37, 12, 60, 30, 36, 5, 28, 45, 3, 22, 27, 52, 21, 20, 6, 62, 38] := by decide +kernel

/-- V-D2, round 1: f(R0, K1). -/
theorem test_round_function :
    roundF (bits (hex 4 0xF0AAF0AA)) 0x1B02EFFC7072 = bits (hex 4 0x234AA9BB) := by decide +kernel

/-! ### Control and key commands -/

/-- V-C1. -/
theorem test_nop : statusOf (step (State.reset.withFetchWord 32 0x0)) = some 0x00000002 := by decide

/-- V-C2: ZEROIZE with a DES key loaded leaves KVALID 0. -/
theorem test_zeroize : statusOf (exec .zeroize (st [] 8 (keys := desStore))) = some 0x00000002 := by decide

/-- V-D8: LOAD_KEY under EXT128 is CONFIG and keeps the DES key. -/
theorem test_loadKey_config : statusOf (exec .loadKey (st [] 8 (ctrl := 2) (keys := desStore))) = some 0x00001206 := by
  decide

/-- R171's example, through LOAD_KEY; V-D2's key. -/
theorem test_loadKey :
    (match exec .loadKey { st [(0, hex 8 0x133457799BBCDFF1)] 0 with
        csr := { Csrs.reset with keyPtr := 0, keyLen := 8 } } with
      | .next t => decide (t.keys = desStore)
      | _ => false) = true := by decide +kernel

/-- V-D2 through BLOCK.F. -/
theorem test_blockF :
    ended 0x400 8 (exec .blockF (st [(0x100, hex 8 0x0123456789ABCDEF)] 8 (keys := desStore))) =
      some (.ok, 8, some (hex 8 0x85E813540F0AB405)) := by
  simp only [exec, execBlockF, execBlock, blockT_eq_fast]
  decide +kernel

/-- V-D8: no key and a wrong length is NOKEY. -/
theorem test_blockF_nokey : statusOf (exec .blockF (st [] 7)) = some 0x00000306 := by decide

/-- V-D2 backwards through BLOCK.I. -/
theorem test_blockI :
    ended 0x400 8 (exec .blockI (st [(0x100, hex 8 0x85E813540F0AB405)] 8 (keys := desStore))) =
      some (.ok, 8, some (hex 8 0x0123456789ABCDEF)) := by
  simp only [exec, execBlockI, execBlock, blockTinv_eq_fast]
  decide +kernel

/-- V-C8: with the key and SRC_LEN = 7, LEN. -/
theorem test_blockI_len : statusOf (exec .blockI (st [] 7 (keys := desStore))) = some 0x00001706 := by decide

/-! ### Plain modes -/

/-- A block transform known at these points alone. -/
def known (points : List (Bytes × Bytes)) (x : Bytes) : Bytes :=
  match points.find? fun p => p.1 == x with
  | some p => p.2
  | none => []

/-- P of V-M1 and the IV. -/
def now : Bytes := hex 24 0x4E6F77206973207468652074696D6520666F7220616C6C20
def iv0 : Bytes := hex 8 0x1234567890ABCDEF

/-- Byte-wise exclusive or of equally long vectors. -/
def xor8 (a b : Bytes) : Bytes := List.zipWith (fun x y => x ^^^ y) a b

/-- V-M1's ciphertext. -/
def ecbC : Bytes := hex 24 0x3FA40E8A984D48156A271787AB8883F9893D51EC4B563B53

/-- V-M1: block j of the ciphertext is T of block j of P. -/
theorem test_ecb_both :
    let pts := [(now.take 8, ecbC.take 8), ((now.drop 8).take 8, (ecbC.drop 8).take 8), (now.drop 16, ecbC.drop 16)]
    (modeBlocks (known pts) id .ecb .encrypt [] (chunks 8 now)).1 = ecbC ∧
      (modeBlocks id (known (pts.map fun p => (p.2, p.1))) .ecb .decrypt [] (chunks 8 ecbC)).1 = now := by decide +kernel

/-- V-M2's ciphertext. -/
def cbcC : Bytes := hex 24 0xE5C7CDDE872BF27C43E934008C389C0F683788499A7C05F6

/-- V-M2: T(P_0 ⊕ IV) = C_0, T(P_j ⊕ C_{j-1}) = C_j. -/
theorem test_cbc_both :
    let pts := [(xor8 (now.take 8) iv0, cbcC.take 8), (xor8 ((now.drop 8).take 8) (cbcC.take 8), (cbcC.drop 8).take 8),
      (xor8 (now.drop 16) ((cbcC.drop 8).take 8), cbcC.drop 16)]
    (modeBlocks (known pts) id .cbc .encrypt iv0 (chunks 8 now)).1 = cbcC ∧
      (modeBlocks id (known (pts.map fun p => (p.2, p.1))) .cbc .decrypt iv0 (chunks 8 cbcC)).1 = now := by
  decide +kernel

/-- The keystream of a stream mode: message ⊕ ciphertext, block by block. -/
def stream (c : Bytes) (j : Nat) : Bytes := nthBlock 8 (xor8 now c) j

/-- V-M3 and V-M6: T(IV) = P_0 ⊕ C_0, T(C_{j-1}) = P_j ⊕ C_j; a short last block. -/
theorem test_cfb_both :
    let c := hex 24 0xF3096249C7F46E51A69E839B1A92F78403467133898EA622
    let t := known [(iv0, stream c 0), (nthBlock 8 c 0, stream c 1), (nthBlock 8 c 1, stream c 2)]
    (modeBlocks t id .cfb .encrypt iv0 (chunks 8 (now.take 22))).1 = c.take 22 ∧
      (modeBlocks t id .cfb .decrypt iv0 (chunks 8 (c.take 22))).1 = now.take 22 := by decide +kernel

/-- V-M4 and V-M6: T(IV) = S_0, T(S_{j-1}) = S_j. -/
theorem test_ofb_both :
    let c := hex 24 0xF3096249C7F46E5135F24A242EEB3D3F3D6D5BE3255AF8C3
    let t := known [(iv0, stream c 0), (stream c 0, stream c 1), (stream c 1, stream c 2)]
    (modeBlocks t id .ofb .encrypt iv0 (chunks 8 (now.take 22))).1 = c.take 22 ∧
      (modeBlocks t id .ofb .decrypt iv0 (chunks 8 (c.take 22))).1 = now.take 22 := by decide +kernel

/-- V-M5 and V-M6: T(IV + j) = S_j. -/
theorem test_ctr_both :
    let c := hex 24 0xF3096249C7F46E51163A8CA0FFC94C27FA2F80F480B86F75
    let t := known [(iv0, stream c 0), (hex 8 0x1234567890ABCDF0, stream c 1), (hex 8 0x1234567890ABCDF1, stream c 2)]
    (modeBlocks t id .ctr .encrypt iv0 (chunks 8 (now.take 22))).1 = c.take 22 ∧
      (modeBlocks t id .ctr .decrypt iv0 (chunks 8 (c.take 22))).1 = now.take 22 := by decide +kernel

/-- V-M7: the counter wraps in its low 32 bits. -/
theorem test_ctr_wrap :
    (modeBlocks (known [(hex 8 0x01234567FFFFFFFE, hex 8 0x564CAE39EC1F98E8),
        (hex 8 0x01234567FFFFFFFF, hex 8 0x13446EF39BF3BD58), (hex 8 0x0123456700000000, hex 8 0x4D9E72A87FDFFF9D)])
      id .ctr .encrypt (hex 8 0x01234567FFFFFFFE) (chunks 8 (hex 19 0))).1 =
      hex 19 0x564CAE39EC1F98E813446EF39BF3BD584D9E72 := by decide +kernel

/-- V-M19 for every plain mode: an empty message, PAD = NONE. -/
theorem test_run_empty :
    ∀ i ∈ [Instr.runEcbE, .runCbcE, .runCfbE, .runOfbE, .runCtrE, .runEcbD, .runCbcD, .runCfbD, .runOfbD, .runCtrD],
      ended 0 0 (exec i (st [(0x40, iv0)] 0 (keys := desStore))) = some (.ok, 0, some []) := by decide +kernel

/-- V-M8: ECB and CBC of 22 bytes, PAD = NONE. -/
theorem test_run_align :
    ∀ i ∈ [Instr.runEcbE, .runCbcE, .runEcbD, .runCbcD],
      statusOf (exec i (st [] 22 (keys := desStore))) = some 0x00001606 := by decide +kernel

/-- Without a key every plain mode is NOKEY (R324). -/
theorem test_run_nokey :
    ∀ i ∈ [Instr.runCfbE, .runOfbE, .runCtrE, .runCfbD, .runOfbD, .runCtrD],
      statusOf (exec i (st [] 22)) = some 0x00000306 := by decide +kernel

/-- V-D2's block as a message of one block through RUN.ECB.E. -/
theorem test_runEcbE :
    ended 0x400 8 (exec .runEcbE (st [(0x100, hex 8 0x0123456789ABCDEF)] 8 (keys := desStore))) =
      some (.ok, 8, some (hex 8 0x85E813540F0AB405)) := by
  simp only [exec, execRunEcbE, execRun, runEffect, blockT_eq_fast, blockTinv_eq_fast]
  decide +kernel

/-- RUN.CBC.D of V-D2's block under a zero IV. -/
theorem test_runCbcD :
    ended 0x400 8 (exec .runCbcD (st [(0x40, hex 8 0), (0x100, hex 8 0x85E813540F0AB405)] 8 (keys := desStore))) =
      some (.ok, 8, some (hex 8 0x0123456789ABCDEF)) := by
  simp only [exec, execRunCbcD, execRun, runEffect, blockT_eq_fast, blockTinv_eq_fast]
  decide +kernel

/-! ### GCM -/

/-- H of V-G1 as a block. -/
def hBlock : Block128 := 0x66E94BD4EF8A2C3B884CFA59CA342B2E

/-- AES-128 under the zero key at the points V-G1, V-G2 and V-G6 state. -/
def aes0 : Bytes → Bytes :=
  known [(hex 16 0, hex 16 0x66E94BD4EF8A2C3B884CFA59CA342B2E), (hex 16 1, hex 16 0x58E2FCCEFA7E3061367F1D57A4E7455A),
    (hex 16 2, hex 16 0x0388DACE60B6A392F328C2B971B2FE78)]

/-- V-G2: the ciphertext and its tag. -/
theorem test_gcm_case2 :
    (gctr aes0 (gcmJ0 (gcmH aes0) (hex 12 0)) (hex 16 0)).1 = hex 16 0x0388DACE60B6A392F328C2B971B2FE78 ∧
      gcmTag aes0 (gcmJ0 (gcmH aes0) (hex 12 0)) [] (hex 16 0x0388DACE60B6A392F328C2B971B2FE78) =
        hex 16 0xAB6E47D42CEC13BDF53A67B21257BDDF := by decide +kernel

/-- V-G5: J0 of an 8-byte IV. -/
theorem test_gcm_j0 :
    gcmJ0 0xB83B533708BF535D0AA6E52980D53B78 (hex 8 0xCAFEBABEFACEDBAD) =
      hex 16 0xC43A83C4C4BADEC4354CA984DB252F7D := by decide +kernel

/-- V-G9: PAD = PKCS7 is CONFIG, and so is GCM without EXT128. -/
theorem test_runGcmE_config :
    statusOf (exec .runGcmE { st [] 16 (ctrl := 6) with cfg := { dmemSize := 4096, extPresent := true } }) =
        some 0x00000206 ∧
      statusOf (exec .runGcmE (st [] 16 (ctrl := 2))) = some 0x00000206 := by decide +kernel

/-- V-G8: fewer than 16 bytes. -/
theorem test_runGcmD_short :
    statusOf (exec .runGcmD { st [] 15 (ctrl := 2) with cfg := { dmemSize := 4096, extPresent := true } }) =
      some 0x0000090E := by decide +kernel

/-- V-F3, V-F4. -/
theorem test_gfmul :
    ended 0x400 16 (exec .gfmul (st [(0x100, hex 16 1), (0x200, hex 16 0x40000000000000000000000000000000)] 16 16)) =
        some (.ok, 16, some (hex 16 0xE1000000000000000000000000000000)) ∧
      gfMul hBlock hBlock = 0xA569901BB4B18906F5059D24465C904D := by decide +kernel

/-- V-F9, V-F10. -/
theorem test_gf_len :
    statusOf (exec .gfmul (st [] 15 16)) = some 0x00000706 ∧ statusOf (exec .ghash (st [] 1 15)) = some 0x00000706 := by
  decide +kernel

/-- V-F6. -/
theorem test_ghash :
    ended 0x400 16 (exec .ghash (st [(0x100, [0x01]), (0x200, bytesOf hBlock)] 1 16)) =
      some (.ok, 16, some (hex 16 0x6575D297A9DF1458771099F4B3946856)) := by decide +kernel

/-! ### Vector commands -/

/-- V-X1. -/
theorem test_xorB :
    ended 0x400 8 (exec .xorB (st [(0x100, hex 8 0x0102030405060708), (0x200, hex 3 0xFF000F)] 8 3)) =
      some (.ok, 8, some (hex 8 0xFE020CFB0509F808)) := by decide +kernel

/-- V-X3, V-X6, V-X7. -/
theorem test_xorB_errors :
    statusOf (exec .xorB (st [] 3 0)) = some 0x00000706 ∧
      statusOf (exec .xorB (st [] 8 1 (src := 0xFFC))) = some 0x00000406 ∧
      statusOf (exec .xorB (st [] 8 3 (dst := 0x202))) = some 0x00000506 := by decide +kernel

/-- V-X5. -/
theorem test_xorBit :
    ended 0x400 2 (exec .xorBit (st [(0x100, hex 2 0xB340), (0x200, [0xA0])] 10 3)) =
      some (.ok, 10, some (hex 2 0x0580)) := by decide +kernel

/-- V-P1. -/
theorem test_permB :
    ended 0x400 4 (exec .permB (st [(0x100, hex 4 0x41424344), (0x200, hex 8 0x0003000000000007)] 4 4)) =
      some (.ok, 4, some (hex 4 0x44414100)) := by decide +kernel

/-- V-P5. -/
theorem test_permBit :
    ended 0x400 1 (exec .permBit (st [(0x100, [0xFF]), (0x200, hex 8 0x0000000800010064)] 8 4)) =
      some (.ok, 4, some [0xA0]) := by decide +kernel

/-- V-S5. -/
theorem test_substB :
    ended 0x400 2 (exec .substB (st [(0x100, [0x02]), (0x200, hex 8 0xAABBCCDDEEFF0011)] 1 4 (param := 2))) =
      some (.ok, 2, some (hex 2 0xEEFF)) := by decide +kernel

/-- V-S7. -/
theorem test_substB_len : statusOf (exec .substB (st [] 3 1 (param := 1))) = some 0x00000706 := by decide +kernel

/-- V-S1: S1 flattened, row 27. -/
theorem test_substBit :
    ended 0x400 1 (exec .substBit (st [(0x100, [0x6C]), (0x200, hex 28
        0x0E00040F0D070104020E0F020B0D0801030A0A06060C0C0B05090905)] 6 28 (param := 4))) =
      some (.ok, 4, some [0x50]) := by decide +kernel

/-- V-S4, with 27 rows: the index reaches the end of the table. -/
theorem test_substBit_len :
    statusOf (exec .substBit (st [(0x100, [0x6C]), (0x200, hex 27 0)] 6 27 (param := 4))) = some 0x00000706 := by
  decide +kernel

/-- V-A1, V-A2. -/
theorem test_alignB :
    ended 0x400 4 (exec .alignB (st [(0x100, hex 2 0x4142)] 2 (param := 4))) =
        some (.ok, 4, some (hex 4 0x00004142)) ∧
      ended 0x400 4 (exec .alignB (st [(0x100, hex 6 0x010203040506)] 6 (param := 4))) =
        some (.ok, 4, some (hex 4 0x03040506)) := by decide +kernel

/-- V-A4. -/
theorem test_alignBit :
    ended 0x400 1 (exec .alignBit (st [(0x100, [0xA0])] 3 (param := 0x00010005))) = some (.ok, 5, some [0xE8]) := by
  decide +kernel

/-- V-I1, V-E1. -/
theorem test_incB :
    ended 0x400 3 (exec .incB (st [(0x100, hex 3 0x00FFFF)] 3)) = some (.ok, 3, some (hex 3 0x010000)) ∧
      ended 0xFFF 1 (exec .incB (st [(0xFFF, [0x41])] 1 (src := 0xFFF) (dst := 0xFFF))) = some (.ok, 1, some [0x42]) := by
  decide +kernel

/-- V-E2, V-E3. -/
theorem test_incB_edges :
    statusOf (exec .incB (st [] 0 (src := 0xFFFFFFFF) (dst := 0xFFFFFFFF))) = some 0x00000002 ∧
      statusOf (exec .incB (st [] 2 (src := 0xFFFFFFFF))) = some 0x00000406 := by decide +kernel

/-- V-I5, V-I6. -/
theorem test_incBit :
    ended 0x400 1 (exec .incBit (st [(0x100, [0xE0])] 3)) = some (.ok, 3, some [0x00]) ∧
      ended 0x400 1 (exec .incBit (st [(0x100, [0x98])] 5)) = some (.ok, 5, some [0xA0]) := by decide +kernel

/-- V-I7, V-I10. -/
theorem test_inc32B :
    ended 0x400 8 (exec .inc32B (st [(0x100, hex 8 0x01020304FFFFFFFF)] 8)) =
        some (.ok, 8, some (hex 8 0x0102030400000000)) ∧
      ended 0x400 2 (exec .inc32B (st [(0x100, hex 2 0xFFFE)] 2)) = some (.ok, 2, some (hex 2 0xFFFF)) := by
  decide +kernel

/-- V-I12. -/
theorem test_inc32Bit :
    ended 0x400 5 (exec .inc32Bit (st [(0x100, hex 5 0xAFFFFFFFF0)] 36)) =
      some (.ok, 36, some (hex 5 0xA000000000)) := by decide +kernel

/-! ### Padding -/

/-- V-Q4, V-Q15. -/
theorem test_pad :
    ended 0x400 16 (exec .pad (st [(0x100, hex 8 0x4142434445464748)] 8 (ctrl := 0x04))) =
        some (.ok, 16, some (hex 16 0x41424344454647480808080808080808)) ∧
      ended 0x400 16 (exec .pad (st [(0x100, hex 3 0x414243)] 3 (ctrl := 0xBC))) =
        some (.ok, 16, some (hex 16 0x41424380000000001800000000000000)) := by decide +kernel

/-- V-Q25, V-Q26. -/
theorem test_pad_config :
    statusOf (exec .pad (st [] 3 (ctrl := 0x5C))) = some 0x00000206 ∧
      statusOf (exec .pad (st [] 3 (ctrl := 0x07))) = some 0x00000206 := by decide +kernel

/-- R331, R288: PAD reads its source before it checks its destination (R80). -/
theorem test_pad_order :
    (match exec .pad (st [] 3 (ctrl := 0x04) (dst := 0xFFE)) with
      | .fault f => decide (f = .unwrittenInput)
      | _ => false) = true ∧
      statusOf (exec .pad (st [(0x100, hex 3 0x414243)] 3 (ctrl := 0x04) (dst := 0xFFE))) = some 0x00000406 := by
  decide +kernel

/-- V-Q7, V-Q22, V-Z4. -/
theorem test_unpad :
    ended 0x400 5 (exec .unpad (st [(0x100, hex 8 0x4142434445FF0103)] 8 (ctrl := 0x04))) =
        some (.ok, 5, some (hex 5 0x4142434445)) ∧
      ended 0x400 3 (exec .unpad (st [(0x100, hex 16 0x41424380000000000000000000000018)] 16 (ctrl := 0x3C))) =
        some (.ok, 3, some (hex 3 0x414243)) ∧
      ended 0x400 3 (exec .unpad (st [(0x100, hex 8 0x4100420000000000)] 8 (ctrl := 0x08))) =
        some (.ok, 3, some (hex 3 0x410042)) := by decide +kernel

/-- V-Q9, V-Q23, V-C9. -/
theorem test_unpad_errors :
    statusOf (exec .unpad (st [(0x100, hex 8 0x4142434445464709)] 8 (ctrl := 0x04))) = some 0x00000806 ∧
      statusOf (exec .unpad (st [(0x100, hex 9 0x4180000000000000FF)] 9 (ctrl := 0x0C))) = some 0x00000806 ∧
      statusOf (exec .unpad (st [(0x100, hex 8 0x4142430505050505)] 8 (ctrl := 0x04) (dst := 0xFFE))) =
        some 0x00000406 := by decide +kernel

/-! ### The host's side -/

/-- A write of a word to an offset of the aperture. -/
def wr (off : BitVec 17) (v : Word) : Access := { we := true, addr := off, size := 2, wdata := v }

/-- A read of a word. -/
def rd (off : BitVec 17) : Access := { we := false, addr := off, size := 2, wdata := 0 }

/-- What a read answers. -/
def answer (s : State) (a : Access) : Option Word :=
  match readData s a with
  | .ok v => some v
  | .error _ => none

/-- R22, R31 and a reserved offset (R32). -/
theorem test_id : answer State.reset (rd 0x00000) = some 0x55464337 ∧ answer State.reset (rd 0x00044) = some 0x1000 ∧
    answer State.reset (rd 0x00048) = some 0 := by decide

/-- P1's line 3 and P2's line 2: byte lanes of a 32-bit write. -/
theorem test_lanes : readBytes (writeData State.reset (wr 0x10000 0x67452301)).dmem 0 4 = some (hex 4 0x01234567) := by
  decide

/-- V-C4: CLRDONE after ILLEGAL gives 0x00000104. -/
theorem test_clrdone :
    statusOf (handle (.access (wr 0x0000C 0x2)) { State.reset with
      status := { Status.reset with done := true, err := true, errcode := .illegal } }) = some 0x00000104 := by decide

/-- V-C6: a write to SRC_PTR while busy is ignored and sets OVR; STATUS then reads BUSY and OVR. -/
theorem test_overrun :
    (writeData { st [] 8 with status := { Status.reset with busy := true } } (wr 0x00028 0x300)).csr.srcPtr = 0x100 ∧
      statusOf (handle (.access (wr 0x00028 0x300)) { st [] 8 with status := { Status.reset with busy := true } }) =
        some 0x00000011 := by decide

/-- V-C5: with IE the completion of NOP raises irq. -/
theorem test_irq :
    (match step ({ State.reset with csr := { Csrs.reset with ctrl := 0x100 } }.withFetchWord 32 0) with
      | .next t => irq t
      | _ => false) = true := by decide

/-- P1's lines 4 and 5: the bus operations of SETR and CMD (R101 to R103). -/
theorem test_host_program :
    hostProgram [.setr .keyPtr .keyLen 0 8, .cmd .loadKey] =
      [.access (wr 0x00010 0), .access (wr 0x00014 8), .access (wr 0x00008 0x2)] := by decide

/-- P2's line 8: a 13-byte WRM by words is three WR32 and one WR8. -/
theorem test_wrm_words :
    hostProgram [.wrm 0x100 (hex 13 0x48656C6C6F2C20776F726C6421) true] =
      [.access (wr 0x10100 0x6C6C6548), .access (wr 0x10104 0x77202C6F), .access (wr 0x10108 0x646C726F),
        .access { we := true, addr := 0x1010C, size := 0, wdata := 0x21 }] := by decide +kernel

/-- R102: WAIT stays while the STATUS read has bit 0 set, and is done when it has not. -/
theorem test_wait :
    (match step { State.reset with status := statusAccepted Status.reset, cyclesLeft := 2, inputs := [.wait] } with
      | .next t => some (t.rdata, t.inputs)
      | _ => none) = some (0x00000001, [.wait]) ∧
      (match step { State.reset with inputs := hostProgram [.wait] } with
        | .next t => some (t.rdata, t.inputs)
        | _ => none) = some (0, []) := by decide +kernel

/-! ### Witnesses: for each obligation with hypotheses, states that meet them

`base` holds a small written DMEM: 128 bytes, byte a being a mod 32; KEY at 0x08, IV at 0x00, AAD at 0x08, SRC at
0x20, AUX at 0x40, DST at 0x80. -/

def base (ctrl : Word) (n m : Nat) (param : Word := 0) (keys : KeyStore := KeyStore.reset) (ext : Bool := false)
    (keyLen : Nat := 8) : State :=
  { State.reset with
    cfg := { dmemSize := 4096, extPresent := ext }
    keys := keys
    csr :=
      { ctrl := ctrl, keyPtr := 0x08, keyLen := BitVec.ofNat 32 keyLen, ivPtr := 0, ivLen := 8, aadPtr := 0x08,
        aadLen := 4, srcPtr := 0x20, srcLen := BitVec.ofNat 32 n, auxPtr := 0x40, auxLen := BitVec.ofNat 32 m,
        dstPtr := 0x80, param := param }
    dmem := (List.range 128).map fun a => (a, BitVec.ofNat 8 (a % 32)) }

/-- BLOCK with each transform. -/
def blockCases : List (Instr × State) :=
  [(.blockF, base 0 8 0 (keys := desStore)), (.blockF, base 1 8 0 (keys := tdesStore)), (.blockF, base 2 16 0 (ext := true)),
    (.blockI, base 0 8 0 (keys := desStore)), (.blockI, base 1 8 0 (keys := tdesStore)),
    (.blockI, base 2 16 0 (ext := true))]

/-- RUN in each plain mode, whole blocks. -/
def runCases : List (Instr × State) :=
  [Instr.runEcbE, .runCbcE, .runCfbE, .runOfbE, .runCtrE, .runEcbD, .runCbcD, .runCfbD, .runOfbD, .runCtrD].map
    fun i => (i, base 0 16 0 (keys := desStore))

/-- RUN.GCM. -/
def gcmCases : List (Instr × State) := [(.runGcmE, base 2 20 0 (ext := true)), (.runGcmD, base 2 20 0 (ext := true))]

/-- The vector commands, GFMUL, GHASH and PAD. -/
def vectorCases : List (Instr × State) :=
  [(.xorB, base 0 8 3), (.xorBit, base 0 16 5), (.permB, base 0 4 8), (.permBit, base 0 16 8),
    (.substB, base 0 2 16 (param := 2)), (.substBit, base 0 16 16 (param := 4)), (.alignB, base 0 8 0 (param := 4)),
    (.alignBit, base 0 16 0 (param := 20))] ++
  [(.incB, base 0 8 0), (.incBit, base 0 12 0), (.inc32B, base 0 8 0), (.inc32Bit, base 0 40 0), (.gfmul, base 0 16 16),
    (.ghash, base 0 20 16), (.pad, base 4 8 0)]

/-- Every command but NOP, ZEROIZE, LOAD_KEY and UNPAD. -/
def writing : List (Instr × State) := blockCases ++ runCases ++ gcmCases ++ vectorCases

/-- The three commands without a destination; LOAD_KEY with each kind of key. -/
def keyCases : List (Instr × State) :=
  [(.nop, base 0 0 0), (.zeroize, base 0 0 0), (.loadKey, base 0 0 0), (.loadKey, base 1 0 0 (keyLen := 16)),
    (.loadKey, base 1 0 0 (keyLen := 24))]

/-- UNPAD under each scheme that finds something: NONE, PKCS7 (last byte 7 of 8), ZERO, BIT (last byte 8, L = 1). -/
def unpadCases : List (Instr × State) :=
  [(.unpad, base 0 8 0), (.unpad, base 4 8 0), (.unpad, base 8 8 0), (.unpad, base 0x0C 9 0)]

/-- The destination moved. -/
def withDst (s : State) (d : Nat) : State := { s with csr := { s.csr with dstPtr := BitVec.ofNat 32 d } }

/-- CommandFrame, Passes-clauses of every statement: all 33 commands pass their checks, with their inputs written. -/
theorem witness_passes : ∀ p ∈ keyCases ++ writing ++ unpadCases,
    Passes p.1 p.2 ∧ ∀ r ∈ inputsOf p.1 p.2, (readBytes p.2.dmem r.1.ptr r.1.len).isSome = true := by decide +kernel

/-- CommandFrame, FailedCommandChangesNothing, EarliestErrorReported, RunRegistersArePrivate: all 33 complete (RUN.GCM.D here on a short input; on a
longer one its code depends on EXT128's open values). -/
theorem witness_next : ∀ p ∈ keyCases ++ blockCases ++ runCases ++ vectorCases ++ unpadCases ++
    [(.runGcmE, base 2 20 0 (ext := true)), (.runGcmD, base 2 15 0 (ext := true))], isNext (exec p.1 p.2) = true := by
  decide +kernel

/-- ChecksRuled.config: ALG = 3. -/
theorem witness_config : ∀ p ∈ [(Instr.loadKey, base 3 0 0), (.unpad, base 3 8 0), (.pad, base 3 8 0)] ++
    ((blockCases ++ runCases ++ gcmCases).map fun p => (p.1, base 3 16 0)), configBad p.1 p.2 = true := by
  decide +kernel

/-- ChecksRuled.key: no key, and a DES key under TDES. -/
theorem witness_key : ∀ i ∈ [Instr.blockF, .blockI] ++ runCases.map Prod.fst,
    (configBad i (base 0 8 0) = false ∧ keyBad i (base 0 8 0) = true) ∧
      configBad i (base 1 8 0 (keys := desStore)) = false ∧ keyBad i (base 1 8 0 (keys := desStore)) = true := by
  decide +kernel

/-- ChecksRuled.len at its boundaries: one byte too few or too many, W = 0 and 9. -/
theorem witness_len :
    ∀ p ∈ [(Instr.blockF, base 0 7 0 (keys := desStore)), (.blockI, base 0 9 0 (keys := desStore)), (.xorB, base 0 1 0),
      (.xorBit, base 0 1 0), (.substB, base 0 3 1 (param := 1)), (.substB, base 0 1 1 (param := 9)),
      (.substBit, base 0 17 1 (param := 1)), (.substBit, base 0 1 1 (param := 0)), (.gfmul, base 0 15 16),
      (.gfmul, base 0 16 17), (.ghash, base 0 20 15)],
      configBad p.1 p.2 = false ∧ keyBad p.1 p.2 = false ∧ lenBad p.1 p.2 = true := by decide +kernel

/-- ChecksRuled.bounds: the destination ends one byte past DMEM; LOAD_KEY's key does. -/
theorem witness_bounds :
    (∀ p ∈ writing.map (fun p => (p.1, withDst p.2 (4097 - (destOf p.1 p.2).len))),
      configBad p.1 p.2 = false ∧ keyBad p.1 p.2 = false ∧ lenBad p.1 p.2 = false ∧ ¬Fits p.1 p.2) ∧
      configBad .loadKey (base 0 0 0 (keyLen := 4089)) = false ∧ ¬Fits .loadKey (base 0 0 0 (keyLen := 4089)) := by
  decide +kernel

/-- ChecksRuled.overlap: the destination one byte after the source. -/
theorem witness_overlap : ∀ p ∈ writing.map (fun p => (p.1, withDst p.2 0x21)),
    configBad p.1 p.2 = false ∧ keyBad p.1 p.2 = false ∧ lenBad p.1 p.2 = false ∧ Fits p.1 p.2 ∧ ¬NoOverlap p.1 p.2 := by
  decide +kernel

/-- ChecksRuled.align: 15 bytes under ECB and CBC. -/
theorem witness_align : ∀ p ∈ [Instr.runEcbE, .runCbcE, .runEcbD, .runCbcD].map (fun i => (i, base 0 15 0 (keys := desStore))),
    configBad p.1 p.2 = false ∧ keyBad p.1 p.2 = false ∧ lenBad p.1 p.2 = false ∧ Fits p.1 p.2 ∧ NoOverlap p.1 p.2 ∧
      alignBad p.1 p.2 = true := by decide +kernel

/-- IllegalWords: a word of each kind, latched and due to complete. -/
theorem witness_illegal : [0x00001000, 0x000000FF, 0x00000604, 0x00000E04, 0x00000103, 0x00000210, 0x00000118].map (fun w =>
      (ready (State.reset.withFetchWord 32 w), (State.reset.withFetchWord 32 w).latch.toNat, decode (BitVec.ofNat 32 w))) =
    [0x00001000, 0x000000FF, 0x00000604, 0x00000E04, 0x00000103, 0x00000210, 0x00000118].map fun w =>
      (true, w, none) := by decide +kernel

/-- StepRunsTheLatchedCommand. -/
theorem witness_latched :
    let s := State.reset.withFetchWord 32 0x21
    ready s = true ∧ s.status.busy = true ∧ s.cyclesLeft = 0 ∧ s.rst = false ∧ decode s.latch = some .unpad := by decide

/-- StepTakesOneInput, with no input and with one. -/
theorem witness_inputs : ready State.reset = false ∧ State.reset.inputs = [] ∧
    ready { State.reset with inputs := [.powerOn, .cycle] } = false := by decide

/-- A state in which a command runs. -/
def busyS (i : Instr) (s : State) : State :=
  { s with latch := encode i, status := statusAccepted s.status, cyclesLeft := 2 }

/-- ResetHoldsTheBlock: no command running; reset asserted. -/
theorem witness_reset : (base 0 0 0).status.busy = false ∧ ({ State.reset with rst := true } : State).rst = true := by decide

/-- ResetAbandonsTheCommand: a command that passes, one that does not, UNPAD with its source written, no command. -/
theorem witness_abandon :
    (∀ p ∈ keyCases ++ writing, (busyS p.1 p.2).status.busy = true ∧ decode (busyS p.1 p.2).latch = some p.1 ∧
        Passes p.1 (busyS p.1 p.2)) ∧
      (∀ p ∈ writing.map (fun p => (p.1, busyS p.1 (withDst p.2 0x21))), p.2.status.busy = true ∧
        decode p.2.latch = some p.1 ∧ ¬Passes p.1 p.2) ∧
      (∀ p ∈ unpadCases, decode (busyS p.1 p.2).latch = some .unpad ∧ configBad .unpad (busyS p.1 p.2) = false ∧
        Fits .unpad (busyS p.1 p.2) ∧
        ∀ i < p.2.csr.srcLen.toNat, (readByte p.2.dmem (p.2.csr.srcPtr.toNat + i)).isSome = true) ∧
      decode ({ busyS .nop State.reset with latch := 0x604 } : State).latch = none := by decide +kernel

/-- Registers and their offsets (R21). -/
def csrList : List CsrName :=
  [.id, .ctrl, .cmd, .status, .keyPtr, .keyLen, .ivPtr, .ivLen, .aadPtr, .aadLen, .srcPtr, .srcLen, .auxPtr, .auxLen,
    .dstPtr, .param, .outLen, .dmemSize]

/-- The access of a register. -/
def csrAccess (we : Bool) (r : CsrName) (v : Word) : Access :=
  { we := we, addr := BitVec.ofNat 17 (csrOffset r), size := 2, wdata := v }

/-- ApertureMap, each clause at its boundaries: every register; the first and the last bytes of DMEM; a size of 3,
a misaligned, a narrow, a reserved, an unmapped and a too high access. -/
theorem witness_aperture :
    (∀ r ∈ csrList, targetOf 4096 (csrAccess true r 0) = .csr r) ∧
      targetOf 4096 { we := true, addr := 0x10000, size := 0, wdata := 0 } = .dmem 0 1 ∧
      targetOf 4096 { we := true, addr := 0x10FFE, size := 1, wdata := 0 } = .dmem 4094 2 ∧
      targetOf 4096 { we := true, addr := 0x10FFC, size := 2, wdata := 0 } = .dmem 4092 4 ∧
      (∀ a ∈ [Access.mk true 0x00000 3 0, .mk true 0x00002 2 0, .mk true 0x10001 1 0, .mk true 0x00000 0 0,
        .mk true 0x00048 2 0, .mk true 0x000FC 2 0, .mk true 0x00100 2 0, .mk true 0x0FFFC 2 0, .mk true 0x11000 0 0,
        .mk false 0x1FFFC 2 0], targetOf 4096 a = .nothing) := by decide +kernel

/-- IdleCsrWrite: each of the 13 registers that take a write, and CommandAccepted, StatusWrite. -/
theorem witness_idle : State.reset.rst = false ∧ State.reset.status.busy = false ∧
    ∀ r ∈ csrList, (csrAccess true r 0xFFFFFFFF).we = true ∧
      targetOf State.reset.cfg.dmemSize (csrAccess true r 0xFFFFFFFF) = .csr r := by decide +kernel

/-- Overrun: a running command; accesses of each clause. -/
theorem witness_busy :
    let s := busyS .nop State.reset
    s.rst = false ∧ s.status.busy = true ∧
      targetOf s.cfg.dmemSize (csrAccess true .cmd 0) = .csr .cmd ∧
      targetOf s.cfg.dmemSize (csrAccess true .outLen 0) = .csr .outLen ∧
      targetOf s.cfg.dmemSize { we := true, addr := 0x10FFF, size := 0, wdata := 0 } = .dmem 4095 1 ∧
      targetOf s.cfg.dmemSize { we := true, addr := 0x11000, size := 0, wdata := 0 } = .nothing := by decide +kernel

/-- Overrun's last clause: OVR set and a step; and the step that clears it. -/
theorem witness_ovr :
    let s := overrun State.reset
    s.status.ovr = true ∧ isNext (step s) = true ∧
      (match step { s with inputs := [.access (csrAccess true .status 0x10)] } with
        | .next t => t.status.ovr
        | _ => true) = false := by decide +kernel

/-- DmemWindowLanes: a write and a read of 1, 2 and 4 bytes, at both ends of DMEM. -/
theorem witness_lanes :
    State.reset.rst = false ∧ State.reset.status.busy = false ∧
      ∀ p ∈ [((0x10000 : BitVec 17), (0 : BitVec 2), 0, 1), (0x10FFF, 0, 4095, 1), (0x10FFE, 1, 4094, 2),
        (0x10FFC, 2, 4092, 4)],
        targetOf State.reset.cfg.dmemSize { we := true, addr := p.1, size := p.2.1, wdata := 0x12345678 } =
            .dmem p.2.2.1 p.2.2.2 ∧
          targetOf State.reset.cfg.dmemSize { we := false, addr := p.1, size := p.2.1, wdata := 0 } =
            .dmem p.2.2.1 p.2.2.2 := by decide +kernel

/-- ReadsHaveNoSideEffect: of a register, of DMEM while busy, and of an unwritten byte. -/
theorem witness_reads :
    targetOf State.reset.cfg.dmemSize (csrAccess false .status 0) = .csr .status ∧
      (busyS .nop State.reset).status.busy = true ∧ State.reset.status.busy = false ∧
      targetOf State.reset.cfg.dmemSize { we := false, addr := 0x10FFF, size := 0, wdata := 0 } = .dmem 4095 1 ∧
      ∃ i < 1, readByte State.reset.dmem (4095 + i) = none := by decide +kernel

/-- A state whose interrupt is raised. -/
def irqS : State :=
  { State.reset with csr := { Csrs.reset with ctrl := 0x100 }, status := { Status.reset with done := true } }

/-- InterruptOutput: irq is 1, and each way to lower it answers a next state; a completion too. -/
theorem witness_irq :
    irq irqS = true ∧ irqS.rst = false ∧ irqS.status.busy = false ∧
      (∀ e ∈ [Event.access (csrAccess true .status 2), .access (csrAccess true .cmd 0), .access (csrAccess true .ctrl 0),
        .rst true, .powerOn], isNext (handle e irqS) = true) ∧
      ready (irqS.withFetchWord 32 0) = true ∧ isNext (step (irqS.withFetchWord 32 0)) = true := by decide +kernel

/-- RunningCommandReachesCompletion: two cycles left, one with a host access, one in which the host waits. -/
theorem witness_running :
    let s := { busyS .blockF (base 0 8 0) with inputs := [.access (csrAccess true .cmd 1), .wait, .powerOn] }
    s.status.busy = true ∧ s.rst = false ∧
      s.inputs.take s.cyclesLeft = [.access (csrAccess true .cmd 1), .wait] := by decide +kernel

/-- AccessAtCompletionBeforeOrAfter: a command in its last cycle, with a host access. -/
theorem witness_last_cycle :
    let s := { busyS .nop State.reset with cyclesLeft := 1, inputs := [.access (csrAccess false .status 0)] }
    s.status.busy = true ∧ s.rst = false ∧ s.cyclesLeft = 1 ∧ s.inputs = .access (csrAccess false .status 0) :: [] := by
  decide +kernel

/-- WaitEndsAfterTheCommand: the host waits with no command running, and with one. -/
theorem witness_wait : ∀ busy : Bool,
    let s := { (if busy then busyS .nop State.reset else State.reset) with inputs := hostProgram [.wait, .clrDone] }
    s.rst = false ∧ s.status.busy = busy ∧ s.inputs = .wait :: hostProgram [.clrDone] := by decide +kernel

/-- WriteMemoryPseudoStoresBytes: seven bytes at the end of DMEM, by bytes and by words. -/
theorem witness_wrm : ∀ words : Bool,
    let s := { State.reset with inputs := hostProgram [.wrm 4088 (hex 7 0x01020304050607) words] ++ [Event.powerOn] }
    s.rst = false ∧ s.status.busy = false ∧ s.cfg.dmemSize ≤ 65536 ∧ 4088 + (hex 7 0x01020304050607).length ≤ s.cfg.dmemSize ∧
      (s.inputs.length = 8 ∨ s.inputs.length = 5) := by decide +kernel

/-- StepKeepsInv: a DES key loaded, a written DMEM, a command about to complete. -/
theorem witness_inv : Inv { (base 0 8 0 (keys := desStore)).withFetchWord 32 3 with rst := false } ∧
    isNext (step ((base 0 8 0 (keys := desStore)).withFetchWord 32 3)) = true := by
  refine ⟨⟨?_, ?_, ?_, ?_, ?_, ?_, ?_, ?_, ?_, ?_, ?_, ?_, ?_⟩, ?_⟩ <;> decide +kernel

/-- FailedCommandChangesNothing: an error, and the exception, a decrypt that ends with PAD. -/
theorem witness_failed :
    statusOf (exec .xorB (base 0 8 0)) = some 0x00000706 ∧
      (match exec .runCtrD (base 4 1 0 (keys := desStore)) with
        | .next t => decide (t.status.errcode = .pad)
        | _ => false) = true := by
  simp only [exec, execRunCtrD, execRun, runEffect, blockT_eq_fast, blockTinv_eq_fast]
  decide +kernel

/-- EarliestErrorReported: completions with each code. -/
theorem witness_codes :
    [exec .nop (base 0 0 0), exec .loadKey (base 3 0 0), exec .blockF (base 0 8 0), exec .incB (base 0 4096 0),
      exec .incB (withDst (base 0 8 0) 0x21), exec .runEcbE (base 0 15 0 (keys := desStore)), exec .xorB (base 0 8 0),
      exec .unpad (base 4 0 0), exec .runGcmD (base 2 15 0 (ext := true))].map statusOf =
    [some 0x00000002, some 0x00000206, some 0x00000306, some 0x00000406, some 0x00000506, some 0x00001606,
      some 0x00000706, some 0x00000806, some 0x0000090E] := by decide +kernel

/-- OnlyUnwrittenInputStops, RunRegistersArePrivate: a command whose checks pass and whose source ends one byte past
the written bytes. -/
theorem witness_unwritten :
    let s := { base 0 8 0 with dmem := (List.range 39).map fun a => (a, BitVec.ofNat 8 a) }
    Passes .incB s ∧ (∃ r ∈ inputsOf .incB s, ∃ i < r.1.len, readByte s.dmem (r.1.ptr + i) = none) ∧
      (match exec .incB s with
        | .fault f => decide (f = .unwrittenInput)
        | _ => false) = true := by
  refine ⟨by decide +kernel, ⟨_, List.mem_singleton.mpr rfl, 7, by decide, by decide +kernel⟩, by decide +kernel⟩

/-- ZeroizeClearsKeys' last clause: DES and TDES, with no CONFIG cause. -/
theorem witness_zeroize : ∀ i ∈ [Instr.blockF, .blockI] ++ runCases.map Prod.fst,
    (isBlock i = true ∨ (plainRun i).isSome = true) ∧ algOf (base 1 8 0).csr.ctrl = .tdes ∧
      configBad i (base 1 8 0) = false ∧ configBad i (base 0 8 0) = false := by decide +kernel

/-- LoadKeyBuildsSchedule: a 16-byte and a 24-byte TDES key, an 8-byte DES key. -/
theorem witness_loadKey :
    ((readBytes (base 0 0 0).dmem 8 8).map List.length = some 8) ∧
      ((readBytes (base 1 0 0 (keyLen := 16)).dmem 8 16).map List.length = some 16) ∧
      ((readBytes (base 1 0 0 (keyLen := 24)).dmem 8 24).map List.length = some 24) := by decide +kernel

/-- BlockInverseUndoesForward: a BLOCK.F that completes. -/
theorem witness_block_inverse : ∀ p ∈ blockCases.take 3, Passes .blockF p.2 ∧
    (readBytes p.2.dmem p.2.csr.srcPtr.toNat p.2.csr.srcLen.toNat).isSome = true ∧ isNext (exec .blockF p.2) = true := by
  decide +kernel

/-- DesRoundTrip, TripleDesComposes, FusedScheduleAgrees: 8-byte blocks and keys; K1 = K2. -/
theorem witness_des : (hex 8 0x0123456789ABCDEF).length = 8 ∧ tdesStore.sk1 = tdesStore.sk2 := by decide +kernel

/-- ParityBitsIgnored: two keys that differ in their parity bits (V-D3). -/
theorem witness_parity :
    (hex 8 0xFFFFFFFFFFFFFFFF).length = 8 ∧ (hex 8 0xFEFEFEFEFEFEFEFE).length = 8 ∧
      ∀ j < 8, ((hex 8 0xFFFFFFFFFFFFFFFF).getD j 0) >>> 1 = ((hex 8 0xFEFEFEFEFEFEFEFE).getD j 0) >>> 1 := by
  decide +kernel

/-- SubstPicksTableRow, both clauses on both forms: the index 1 against a table of 16 rows and of 1 row. -/
theorem witness_subst :
    beInt [0, 1] < 16 ∧ 1 ≤ beInt [0, 1] ∧ vecInt [0, 1] 16 < 16 ∧ 1 ≤ vecInt [0, 1] 16 ∧
      readBytes (base 0 2 1).dmem 0x20 2 = some [0, 1] ∧ Passes .substB (base 0 2 1 (param := 2)) ∧
      Passes .substBit (base 0 16 1 (param := 8)) := by decide +kernel

/-- AlignCutsOrFills: N below, at and above the operand's length. -/
theorem witness_align_lengths : ∀ k ∈ [0, 7, 8, 9], Passes .alignB (base 0 8 0 (param := BitVec.ofNat 32 k)) ∧
    Passes .alignBit (base 0 8 0 (param := BitVec.ofNat 32 k)) := by decide +kernel

/-- RunDecryptUndoesEncrypt: every mode's encrypt completes, and PKCS7 unpads what it pads. -/
theorem witness_round_trip :
    (∀ i ∈ [Instr.runEcbE, .runCbcE, .runCfbE, .runOfbE, .runCtrE],
      Passes i (base 4 13 0 (keys := desStore)) ∧ isNext (exec i (base 4 13 0 (keys := desStore))) = true) ∧
      (∀ p ∈ [(Mode.ecb, Instr.runEcbE, Instr.runEcbD), (.cbc, .runCbcE, .runCbcD), (.cfb, .runCfbE, .runCfbD),
        (.ofb, .runOfbE, .runOfbD), (.ctr, .runCtrE, .runCtrD)],
        plainRun p.2.1 = some (p.1, .encrypt) ∧ plainRun p.2.2 = some (p.1, .decrypt)) ∧
      unpadBytes (padCfg 4) (padBytes (padCfg 4) (hex 13 7)) = some (hex 13 7) ∧ (base 4 13 0).cfg.dmemSize < 2 ^ 32 := by
  decide +kernel

/-- A 16-byte input of RUN.GCM.D, nothing but the tag, at DMEM 0x20. -/
def tagS (tag : Bytes) : State :=
  { base 2 16 0 (ext := true) with dmem := writeBytes ((List.range 16).map fun a => (a, 0)) 0x20 tag }

/-- GcmDecrypt: for whatever tag is right, and for any other, a state that holds it, with an empty ciphertext. -/
theorem witness_gcmD (tag : Bytes) (h : tag.length = 16) :
    Passes .runGcmD (tagS tag) ∧
      readBytes (tagS tag).dmem (tagS tag).csr.srcPtr.toNat (tagS tag).csr.srcLen.toNat = some ([] ++ tag) ∧
      (readBytes (tagS tag).dmem (tagS tag).csr.ivPtr.toNat (tagS tag).csr.ivLen.toNat).isSome = true ∧
      (readBytes (tagS tag).dmem (tagS tag).csr.aadPtr.toNat (tagS tag).csr.aadLen.toNat).isSome = true := by
  have hp : Passes .runGcmD (base 2 16 0 (ext := true)) := by decide +kernel
  have hr : readBytes (tagS tag).dmem 0x20 tag.length = some tag := readBytes_writeBytes_same _ _ _
  rw [h] at hr
  have hw : ∀ a < 16, readByte (tagS tag).dmem a = readByte ((List.range 16).map fun a => (a, (0 : Byte))) a :=
    fun a ha => readByte_writeBytes_outside _ _ _ _ (by omega)
  have h0 : ∀ a < 16, (readByte ((List.range 16).map fun a => (a, (0 : Byte))) a).isSome = true := by decide +kernel
  refine ⟨hp, hr, ?_, ?_⟩ <;> rw [readBytes_isSome_iff] <;> intro i hi
  · have : i < 8 := hi
    rw [hw _ (by show 0 + i < 16; omega)]
    exact h0 _ (by show 0 + i < 16; omega)
  · have : i < 4 := hi
    rw [hw _ (by show 8 + i < 16; omega)]
    exact h0 _ (by show 8 + i < 16; omega)

/-- GcmDecrypt's short clause. -/
theorem witness_gcmD_short : Passes .runGcmD (base 2 15 0 (ext := true)) ∧ (base 2 15 0).csr.srcLen.toNat < 16 := by
  decide +kernel

/-- GcmDecryptUndoesEncrypt: a RUN.GCM.E that completes; and DMEM with the tag's byte `j` changed by `x` exists for
every next state. -/
theorem witness_gcm_round_trip :
    (Passes .runGcmE (base 2 20 0 (ext := true)) ∧ isNext (exec .runGcmE (base 2 20 0 (ext := true))) = true) ∧
      ∀ (s : State) (k : Nat) (b x : Byte), readByte s.dmem k = some b →
        ∀ a, readByte (writeBytes s.dmem k [b ^^^ x]) a =
          if a = k then (readByte s.dmem a).map (· ^^^ x) else readByte s.dmem a := by
  refine ⟨by decide +kernel, fun s k b x hb a => ?_⟩
  split
  · next h =>
    have e := readBytes_writeBytes_same s.dmem k [b ^^^ x]
    rw [h, hb, Option.map_some]
    obtain ⟨-, h2⟩ := readBytes_eq_some.mp e
    simpa using h2 0 (by simp)
  · next h => exact readByte_writeBytes_outside _ _ _ _ (by simp; omega)

/-- PadAppendsScheme, its error and fault clauses (those of witness_unpad_errors for PAD's CONFIG): a source of 8
bytes that holds an unwritten one. -/
theorem witness_pad_errors :
    configBad .pad (base 3 8 0) = true ∧ configBad .pad (base 4 4096 0) = false ∧ ¬FitsIn 4096 ⟨0x20, 4096⟩ ∧
      configBad .pad State.reset = false ∧ FitsIn 4096 ⟨0x20, 8⟩ ∧ HoldsUnwritten State.reset ⟨0x20, 8⟩ ∧
      ¬FitsIn 4096 ⟨4081, 8 + 8⟩ ∧ FitsIn 4096 ⟨0x21, 8 + 8⟩ ∧ ¬MayWrite ⟨0x21, 8 + 8⟩ [(⟨0x20, 8⟩, .inPlace)] := by
  refine ⟨by decide +kernel, by decide +kernel, by decide, by decide, by decide, ⟨0, by decide, rfl⟩, ?_⟩
  decide +kernel

/-- PadAppendsScheme: every scheme, both byte orders, B = 8 and 16, the widest field. -/
theorem witness_pad : ∀ c ∈ ([0x00, 0x04, 0x08, 0x0C, 0x8C, 0x4C, 0x06, 0xCE] : List Nat),
    Passes .pad (base (BitVec.ofNat 32 c) 8 0) ∧ (readBytes (base 0 8 0).dmem 0x20 8).isSome = true := by decide +kernel

/-- UnpadStripsScheme, its error clauses: CONFIG (ALG = 3, BLW = 5), BOUNDS of the source, and of the destination; OVERLAP. -/
theorem witness_unpad_errors :
    configBad .unpad (base 3 8 0) = true ∧ configBad .unpad (base 0x5C 8 0) = true ∧
      configBad .unpad (base 0 4096 0) = false ∧ ¬FitsIn 4096 ⟨0x20, 4096⟩ ∧ FitsIn 4096 ⟨0x20, 8⟩ ∧
      ¬FitsIn 4096 ⟨4089, 8⟩ ∧ FitsIn 4096 ⟨0x21, 8⟩ ∧ ¬MayWrite ⟨0x21, 8⟩ [(⟨0x20, 8⟩, .inPlace)] ∧
      MayWrite ⟨0x20, 8⟩ [(⟨0x20, 8⟩, .inPlace)] := by decide +kernel

/-- UnpadStripsScheme, the scheme clauses on messages read from DMEM: a PKCS7 count of the whole length and one more; a Bit
length field of the whole space and one more; too short. -/
theorem witness_unpad_schemes :
    (∀ m ∈ [hex 8 8, hex 8 9, hex 8 0], m.length = 8 ∧ readBytes (mem [(0x20, m)]) 0x20 8 = some m) ∧
      ((hex 8 8).getD 7 0).toNat = 8 ∧ ((hex 8 9).getD 7 0).toNat = 9 ∧
      (beInt ((hex 9 56).drop 8)) / 8 = 9 - 1 - 1 ∧ 9 - 1 - 1 < (beInt ((hex 9 64).drop 8)) / 8 ∧
      (hex 1 0x18).length < 1 + 1 := by decide +kernel

/-- UnpadUndoesPad: a control word of each scheme; a message whose bit length just fits a one-byte field. -/
theorem witness_unpad_pad :
    (∀ c ∈ ([0x00, 0x04, 0x08, 0x0C] : List Nat), padConfigOk (BitVec.ofNat 32 c) = true) ∧
      schemeOf 0x00 = .none ∧ schemeOf 0x04 = .pkcs7 ∧ schemeOf 0x08 = .zero ∧ schemeOf 0x0C = .bit ∧
      8 * (hex 31 0).length < 2 ^ (8 * fieldLen 0x0C) := by decide +kernel

end Sys2Proof.Tests
end

section
/-! PROOFS. The statements about the machine's state (10_state.md): the registers as a host writes and reads
them, STATUS and the interrupt, reset, and what a completing command leaves of the state. -/

namespace Sys2Proof.Machine

/-! ### A host access that reaches a register -/

section access
variable {s : State} {a : Access} {r : CsrName}

theorem handle_write_csr (hr : s.rst = false) (hw : a.we = true) (ht : targetOf s.cfg.dmemSize a = .csr r) :
    handle (.access a) s = .next (writeCsr s r a.wdata) := by
  simp [handle, hostAccess, writeData, hr, hw, ht]

theorem handle_read_csr (hr : s.rst = false) (hw : a.we = false) (ht : targetOf s.cfg.dmemSize a = .csr r) :
    handle (.access a) s = .next { s with rdata := readCsr s r } := by
  simp [handle, hostAccess, readData, hr, hw, ht]

end access

theorem unlessBusy_idle {s : State} (hb : s.status.busy = false) (s' : State) : unlessBusy s s' = s' := by
  simp [unlessBusy, hb]

/-- An idle write to a register of R24, R28 or R29 changes the operand registers alone, and of those the one it
names. -/
theorem writeCsr_operand_idle {s : State} {r : CsrName} (hb : s.status.busy = false)
    (hr : r ∉ [CsrName.id, .cmd, .status, .outLen, .dmemSize]) (v : Word) :
    ∃ c, writeCsr s r v = { s with csr := c } ∧
      readCsr { s with csr := c } r = (if r = .ctrl then v &&& 0x1FF else v) ∧
      ∀ q, q ≠ r → readCsr { s with csr := c } q = readCsr s q := by
  cases r with
  | id | cmd | status | outLen | dmemSize => simp at hr
  | ctrl | keyPtr | keyLen | ivPtr | ivLen | aadPtr | aadLen | srcPtr | srcLen | auxPtr | auxLen | dstPtr | param =>
    refine ⟨_, unlessBusy_idle hb _, rfl, fun q hq => ?_⟩
    cases q <;> simp_all [readCsr]

theorem writeCsr_cmd_idle {s : State} (hb : s.status.busy = false) (v : Word) :
    writeCsr s .cmd v = accept v s := unlessBusy_idle hb _

/-! ### STATUS and the interrupt -/

section statusWord
variable (st : Status) (k : KeyStore)

theorem statusWord_done : (statusWord st k).getLsbD 1 = st.done := by
  simp only [statusWord, BitVec.getLsbD_append]
  simp

theorem statusWord_err : (statusWord st k).getLsbD 2 = st.err := by
  simp only [statusWord, BitVec.getLsbD_append]
  simp

theorem statusWord_authFail : (statusWord st k).getLsbD 3 = st.authFail := by
  simp only [statusWord, BitVec.getLsbD_append]
  simp

theorem statusWord_ovr : (statusWord st k).getLsbD 4 = st.ovr := by
  simp only [statusWord, BitVec.getLsbD_append]
  simp

theorem statusWord_kvalid : (statusWord st k).getLsbD 12 = k.kvalid := by
  simp only [statusWord, BitVec.getLsbD_append]
  simp

theorem statusWord_errcode : (statusWord st k).extractLsb' 8 4 = codeNum st.errcode := by
  simp only [statusWord, BitVec.extractLsb'_append_eq_ite]
  simp

theorem statusWord_kalg : (statusWord st k).extractLsb' 13 2 = k.kalg := by
  simp only [statusWord, BitVec.extractLsb'_append_eq_ite]
  simp

theorem statusWord_reserved :
    (statusWord st k).extractLsb' 5 3 = 0 ∧ (statusWord st k).extractLsb' 15 17 = 0 := by
  simp only [statusWord, BitVec.extractLsb'_append_eq_ite]
  simp

end statusWord

/-- R27 with one clause a bit: a written 1 clears DONE in bit 1 and OVR in bit 4. -/
theorem statusWrite_eq (st : Status) (v : Word) :
    statusWrite st v = { st with
      done := if v.getLsbD 1 then false else st.done
      ovr := if v.getLsbD 4 then false else st.ovr } := by
  simp only [statusWrite]
  cases v.getLsbD 1 <;> cases v.getLsbD 4 <;> simp

theorem irq_eq_read (s : State) :
    irq s = ((readCsr s .ctrl).getLsbD 8 && (readCsr s .status).getLsbD 1) :=
  congrArg (ieOf s.csr.ctrl && ·) (statusWord_done s.status s.keys).symm

theorem irq_of_not_done {s : State} (h : s.status.done = false) : irq s = false := by simp [irq, h]

/-- Every completion sets DONE, so irq is then CTRL.IE (R337). -/
theorem irq_complete (e : Effect) (s : State) : irq (complete e s) = ieOf s.csr.ctrl := by
  simp [irq, statusCompleted]

/-- A step of a due command completes it with some effect. -/
theorem step_ready {s t : State} (hr : ready s = true) (h : step s = .next t) : ∃ e, t = complete e s := by
  simp only [step, hr, if_true, completeLatched] at h
  split at h
  · obtain ⟨e, rfl, -⟩ := exec_effect h
    exact ⟨e, rfl⟩
  · cases h
    exact ⟨_, rfl⟩

/-- Clearing CTRL.IE while no command runs lowers irq. -/
theorem irq_writeCsr_ctrl {s : State} (hb : s.status.busy = false) {v : Word} (hv : v.getLsbD 8 = false) :
    irq (writeCsr s .ctrl v) = false := by
  obtain ⟨c, hc, hself, -⟩ := writeCsr_operand_idle (r := .ctrl) hb (by decide) v
  rw [irq_eq_read, hc, hself, if_pos rfl, BitVec.getLsbD_and, hv, Bool.false_and, Bool.false_and]

/-! ### Reset -/

/-- Asserting the reset line leaves some DMEM and every register at its reset value (R360, R361). -/
theorem handle_assert {s t : State} (h : handle (.rst true) s = .next t) : ∃ m, t = resetTo true m s := by
  simp only [handle, driveReset, if_true] at h
  split at h
  · cases h
    exact ⟨_, rfl⟩
  · cases h

/-- A reset in which no command runs abandons nothing: DMEM stays. -/
theorem handle_assert_idle {s : State} (hb : s.status.busy = false) :
    handle (.rst true) s = .next (resetTo true s.dmem s) := by
  simp [handle, driveReset, memoryAfterReset, hb]

/-! ### The RUN registers -/

/-- Two ends of a command's computation that agree but for the RUN registers an effect leaves. -/
inductive AgreeButRegs : Except Stop Effect → Except Stop Effect → Prop where
  | ok (e : Effect) (q : Option RunRegs) : AgreeButRegs (.ok e) (.ok { e with regs := q })
  | error (x : Stop) : AgreeButRegs (.error x) (.error x)

theorem AgreeButRegs.refl (x : Except Stop Effect) : AgreeButRegs x x := by
  cases x with
  | ok e => exact .ok e e.regs
  | error x => exact .error x

/-- After the same first step it is enough that what follows agrees. -/
theorem AgreeButRegs.bind {α : Type} (x : Except Stop α) {f g : α → Except Stop Effect}
    (h : ∀ a, AgreeButRegs (f a) (g a)) : AgreeButRegs (x >>= f) (x >>= g) := by
  cases x with
  | ok a => exact h a
  | error x => exact .error x

theorem AgreeButRegs.ite {p : Prop} [Decidable p] {x x' y y' : Except Stop Effect} (h : AgreeButRegs x x')
    (h' : AgreeButRegs y y') : AgreeButRegs (if p then x else y) (if p then x' else y') := by
  split
  · exact h
  · exact h'

/-- Two outcomes that agree but for the RUN registers of the next state. -/
inductive SameButRegs : Host.Outcome State Fault Refusal → Host.Outcome State Fault Refusal → Prop where
  | next (t : State) (q : RunRegs) : SameButRegs (.next t) (.next { t with regs := q })
  | fault (f : Fault) : SameButRegs (.fault f) (.fault f)

theorem SameButRegs.of_next {t : State} {o : Host.Outcome State Fault Refusal} (h : SameButRegs (.next t) o) :
    ∃ q, o = .next { t with regs := q } := by
  cases h with
  | next _ q => exact ⟨q, rfl⟩

theorem SameButRegs.of_fault {f : Fault} {o : Host.Outcome State Fault Refusal} (h : SameButRegs (.fault f) o) :
    o = .fault f := by
  cases h with
  | fault _ => rfl

theorem finish_sameButRegs (s : State) (q : RunRegs) {x y : Except Stop Effect} (h : AgreeButRegs x y) :
    SameButRegs (finish s x) (finish { s with regs := q } y) := by
  cases h with
  | ok e r => exact .next (complete e s) (r.getD q)
  | error x =>
    cases x with
    | code c => exact .next (complete (failure c) s) q
    | fault f => exact .fault f

theorem blockT_withRegs (s : State) (q : RunRegs) : blockT { s with regs := q } = blockT s := rfl

theorem blockTinv_withRegs (s : State) (q : RunRegs) : blockTinv { s with regs := q } = blockTinv s := rfl

/-- Step 5 of R210 reads no RUN register: it only carries on those it leaves alone. -/
theorem runEffect_agreeButRegs (m : Mode) (d : Dir) (s : State) (q : RunRegs) (fb msg : Bytes) :
    AgreeButRegs (.ok (runEffect m d s fb msg)) (.ok (runEffect m d { s with regs := q } fb msg)) := by
  cases d with
  | encrypt => exact .ok _ _
  | decrypt =>
    simp only [runEffect, blockT_withRegs, blockTinv_withRegs]
    split <;> exact .ok _ _

theorem execRun_sameButRegs (m : Mode) (d : Dir) (s : State) (q : RunRegs) :
    SameButRegs (execRun m d s) (execRun m d { s with regs := q }) :=
  finish_sameButRegs s q <| .bind (preRun m d s) fun _ => .bind (seedFB m s) fun fb =>
    .bind (readRange s _) fun msg => runEffect_agreeButRegs m d s q fb msg

theorem execRunGcmE_sameButRegs (s : State) (q : RunRegs) :
    SameButRegs (execRunGcmE s) (execRunGcmE { s with regs := q }) :=
  finish_sameButRegs s q <| .bind (preGcmE s) fun _ => .bind (readRange s _) fun _ =>
    .bind (readRange s _) fun _ => .bind (readRange s _) fun _ => .ok _ _

theorem execRunGcmD_sameButRegs (s : State) (q : RunRegs) :
    SameButRegs (execRunGcmD s) (execRunGcmD { s with regs := q }) :=
  finish_sameButRegs s q <| .bind (preGcmD s) fun _ => .bind (check _ _) fun _ => .bind (readRange s _) fun _ =>
    .bind (readRange s _) fun _ => .bind (readRange s _) fun _ => .ite (.ok _ _) (.ok _ _)

/-- No command's outcome depends on the RUN registers, but for what it leaves in them. -/
theorem exec_sameButRegs (i : Instr) (s : State) (q : RunRegs) :
    SameButRegs (exec i s) (exec i { s with regs := q }) := by
  cases i with
  | runEcbE | runCbcE | runCfbE | runOfbE | runCtrE | runEcbD | runCbcD | runCfbD | runOfbD | runCtrD =>
    exact execRun_sameButRegs _ _ s q
  | runGcmE => exact execRunGcmE_sameButRegs s q
  | runGcmD => exact execRunGcmD_sameButRegs s q
  | nop => exact finish_sameButRegs s q (.refl (.ok success))
  | zeroize => exact finish_sameButRegs s q (.refl (.ok { success with keys := some KeyStore.reset }))
  | loadKey | blockF | blockI | xorB | xorBit | permB | permBit | substB | substBit | alignB | alignBit
  | incB | incBit | inc32B | inc32Bit | gfmul | ghash | pad | unpad => exact finish_sameButRegs s q (.refl _)

end Sys2Proof.Machine

namespace Sys2Proof.Proofs

open Sys2Proof Sys2Proof.Machine

/-- Settles O11: an idle write changes the operand registers alone, and of those the one it names. -/
theorem idleCsrWrite : Obligations.IdleCsrWrite := by
  intro s r a hrst hb hw ht hr
  obtain ⟨c, hc, hself, hother⟩ := writeCsr_operand_idle hb hr a.wdata
  exact ⟨_, (handle_write_csr hrst hw ht).trans (congrArg _ hc), hself, hother, rfl, rfl, rfl, rfl, rfl⟩

/-- Settles O18: each of the five lowering events clears DONE, or IE. -/
theorem interruptOutput : Obligations.InterruptOutput := by
  refine ⟨irq_eq_read, fun s t hr h => ?_, fun s t e h _ hcase => ?_⟩
  · obtain ⟨e, rfl⟩ := step_ready hr h
    exact irq_complete e s
  · obtain ⟨a, rfl, hw, hr, ht, hv⟩ | ⟨a, rfl, hw, hr, ht, hb⟩ | ⟨a, rfl, hw, hr, ht, hb, hv⟩ | rfl | rfl := hcase
    · cases (handle_write_csr hr hw ht).symm.trans h
      exact irq_of_not_done (by simp [writeCsr, statusWrite_eq, hv])
    · cases (handle_write_csr hr hw ht).symm.trans h
      rw [writeCsr_cmd_idle hb]
      exact irq_of_not_done rfl
    · cases (handle_write_csr hr hw ht).symm.trans h
      exact irq_writeCsr_ctrl hb hv
    · obtain ⟨m, rfl⟩ := handle_assert h
      exact irq_of_not_done rfl
    · cases h
      exact irq_of_not_done rfl

/-- Settles O23: a command completes with an effect that obeys `EffectOk`, and completion makes that effect alone. -/
theorem commandFrame : Obligations.CommandFrame := by
  intro i s t h
  obtain ⟨e, rfl, he⟩ := exec_effect h
  refine ⟨kept_complete e s, rfl, rfl, fun hl hz => ?_, he.regs, ?_⟩
  · rw [complete_keys]
    match hk : e.keys with
    | none => rfl
    | some k =>
      obtain ⟨rfl, -⟩ | ⟨rfl, -⟩ := he.keys k hk
      · exact absurd rfl hz
      · exact absurd rfl hl
  · obtain hs | ⟨r, hr, hp, hn⟩ := he.writes
    · intro a _
      rw [complete_dmem, hs]
      rfl
    · obtain ⟨rfl, -⟩ := destination_eq_ok hr
      exact hp ▸ hn ▸ onlyWrote_complete e s

/-- Settles O27: a command's two runs agree but for the RUN registers they leave, and no read shows those. -/
theorem runRegistersArePrivate : Obligations.RunRegistersArePrivate := by
  refine ⟨fun i s t q h => ?_, fun i s q f h => ?_, fun _ _ _ => rfl⟩
  · have key := exec_sameButRegs i s q
    rw [h] at key
    exact key.of_next
  · have key := exec_sameButRegs i s q
    rw [h] at key
    exact key.of_fault

/-- Settles O6: `State.reset` evaluated, and an idle reset keeps DMEM. -/
theorem resetState : Obligations.ResetState := by
  refine ⟨rfl, by decide, ?_, rfl, rfl, rfl, rfl, rfl, rfl, rfl, rfl, readByte_nil, fun u hb => ?_⟩
  · simp [State.reset, KeyStore.reset]
  · exact ⟨_, handle_assert_idle hb, rfl⟩

/-- Settles O13, field by field of R26. -/
theorem statusLayout : Obligations.StatusLayout := by
  intro s
  refine ⟨statusWord_busy _ _, statusWord_done _ _, statusWord_err _ _, statusWord_authFail _ _, statusWord_ovr _ _,
    (statusWord_reserved _ _).1, statusWord_kvalid _ _, statusWord_kalg _ _, (statusWord_reserved _ _).2, ?_⟩
  rw [show (readCsr s .status).extractLsb' 8 4 = codeNum s.status.errcode from statusWord_errcode _ _]
  cases s.status.errcode <;> rfl

/-- Settles O14: no branch of the write asks for BUSY. -/
theorem statusWrite : Obligations.StatusWrite := by
  intro s a hrst ht
  refine ⟨fun hw => ?_, fun hw => handle_read_csr hrst hw ht⟩
  rw [handle_write_csr hrst hw ht, ← statusWrite_eq]
  rfl

/-- Settles O17: `readCsr`, and all else a read or irq looks at, leaves the subkeys out. -/
theorem subkeysUnreadable : Obligations.SubkeysUnreadable := fun _ _ _ _ _ => ⟨rfl, rfl⟩

/-- Settles O21, clause by clause of the invariant. -/
theorem resetInv : Obligations.ResetInv where
  paramsLegal := rfl
  memWf := reset_memory_wf
  memInside := by simp [State.reset]
  ctrlReserved := rfl
  errIsCode := rfl
  authIsCode := rfl
  errorEmpty _ := rfl
  busyClear h := by cases h
  idleNoCycles _ := rfl
  noKey _ := rfl
  keyAlg h := by cases h
  desKeys h := by cases h
  resetHeld h := by cases h

end Sys2Proof.Proofs
end

section
/-! PROOFS. The statements about the host's memory map and DMEM (20_memory.md): what an access reaches, the byte lanes
of the DMEM window, what a read leaves alone, and the model fault of an unwritten input. -/

namespace Sys2Proof.Machine

/-! ### The aperture -/

/-- R372: a size below 3 covers 2^size bytes. -/
theorem accessBytes_eq (size : BitVec 2) : accessBytes size = if size = 3 then none else some (2 ^ size.toNat) := by
  revert size
  decide

/-- R21's table of offsets, read backwards. -/
theorem csrAt_eq_some {off : Nat} {r : CsrName} : csrAt off = some r ↔ off = csrOffset r := by
  constructor
  · intro h
    unfold csrAt at h
    split at h <;> cases h <;> rfl
  · rintro rfl
    cases r <;> rfl

theorem csrOffset_aligned (r : CsrName) : csrOffset r % 4 = 0 := by cases r <;> rfl

theorem csrOffset_le (r : CsrName) : csrOffset r ≤ 0x44 := by cases r <;> decide

/-- R32: no register lies above DMEM_SIZE's. -/
theorem csrAt_reserved {off : Nat} (h : 0x44 < off) : csrAt off = none := by
  rw [Option.eq_none_iff_forall_ne_some]
  intro r hr
  have := csrOffset_le r
  have := csrAt_eq_some.mp hr
  omega

section targetOf
variable {size : Nat} {a : Access}

theorem targetOf_size3 (h : a.size = 3) : targetOf size a = .nothing := by
  simp [targetOf, accessBytes_eq, h]

/-- The branches of an access of 1, 2 or 4 bytes. -/
theorem targetOf_sized (h : a.size ≠ 3) :
    targetOf size a =
      if a.addr.toNat % 2 ^ a.size.toNat ≠ 0 then .nothing
      else if a.addr.toNat < 0x100 then
        if a.size = 2 then ((csrAt a.addr.toNat).map Target.csr).getD .nothing else .nothing
      else if 0x10000 ≤ a.addr.toNat ∧ a.addr.toNat - 0x10000 + 2 ^ a.size.toNat ≤ size then
        .dmem (a.addr.toNat - 0x10000) (2 ^ a.size.toNat)
      else .nothing := by
  have hw : ∀ z : BitVec 2, (2 ^ z.toNat = 4) = (z = 2) := by decide
  simp only [targetOf, accessBytes_eq, h, if_false, hw, dmemBase]
  cases csrAt a.addr.toNat <;> rfl

/-- R61: an aligned 32-bit access at a register's offset reaches it. -/
theorem targetOf_csr {r : CsrName} (h : a.size = 2) (hoff : a.addr.toNat = csrOffset r) :
    targetOf size a = .csr r := by
  have hlt : csrOffset r < 0x100 := Nat.lt_of_le_of_lt (csrOffset_le r) (by decide)
  rw [targetOf_sized (by simp [h])]
  simp [h, hoff, hlt, csrOffset_aligned, csrAt_eq_some.mpr rfl]

/-- R62: a naturally aligned access whose bytes lie in the DMEM window reaches them. -/
theorem targetOf_dmem (h : a.size ≠ 3) (hal : a.addr.toNat % 2 ^ a.size.toNat = 0) (hlo : 0x10000 ≤ a.addr.toNat)
    (hhi : a.addr.toNat + 2 ^ a.size.toNat ≤ 0x10000 + size) :
    targetOf size a = .dmem (a.addr.toNat - 0x10000) (2 ^ a.size.toNat) := by
  rw [targetOf_sized h, if_neg (by simpa using hal), if_neg (by omega), if_pos (by omega)]

theorem targetOf_misaligned (hal : a.addr.toNat % 2 ^ a.size.toNat ≠ 0) : targetOf size a = .nothing := by
  by_cases h : a.size = 3
  · exact targetOf_size3 h
  · rw [targetOf_sized h, if_pos hal]

/-- R61: an access to the CSR window is of 32 bits or reaches nothing. -/
theorem targetOf_narrow (hoff : a.addr.toNat < 0x100) (h2 : a.size ≠ 2) : targetOf size a = .nothing := by
  by_cases h : a.size = 3
  · exact targetOf_size3 h
  · rw [targetOf_sized h, if_pos hoff, if_neg h2, ite_self]

/-- R32, R63: the reserved offsets, and the gap between the two windows. -/
theorem targetOf_reserved (hlo : 0x44 < a.addr.toNat) (hhi : a.addr.toNat < 0x10000) :
    targetOf size a = .nothing := by
  by_cases h : a.size = 3
  · exact targetOf_size3 h
  · rw [targetOf_sized h, csrAt_reserved hlo, if_neg (c := _ ∧ _) (by omega)]
    simp

/-- R62, R63: an access with a byte past the DMEM window. -/
theorem targetOf_past (hpast : 0x10000 + size < a.addr.toNat + 2 ^ a.size.toNat) : targetOf size a = .nothing := by
  have h8 : ∀ z : BitVec 2, 2 ^ z.toNat ≤ 8 := by decide
  have := h8 a.size
  by_cases h : a.size = 3
  · exact targetOf_size3 h
  · rw [targetOf_sized h, if_neg (c := _ < 0x100) (by omega), if_neg (c := _ ∧ _) (by omega), ite_self]

end targetOf

/-! ### Digits and lanes -/

/-- Digit `k`, counted from the low end. -/
theorem beDigits_reverse_getElem? (base : Nat) {n k : Nat} (x : Nat) (h : k < n) :
    (beDigits base n x).reverse[k]? = some (x / base ^ k % base) := by
  induction n generalizing x k with
  | zero => omega
  | succ n ih =>
    rw [beDigits, List.reverse_append]
    cases k with
    | zero => simp
    | succ k =>
      rw [Nat.pow_succ', ← Nat.div_div_eq_div_mul]
      exact ih (x / base) (by omega)

@[simp] theorem laneBytes_length (n : Nat) (v : Word) : (laneBytes n v).length = n := leBytes_length n v.toNat

/-- R62: byte `k` of a write is bits 8k + 7 to 8k of the data. -/
theorem laneBytes_getElem {n k : Nat} (v : Word) (h : k < (laneBytes n v).length) :
    (laneBytes n v)[k] = v.extractLsb' (8 * k) 8 := by
  have hk : k < n := by simpa using h
  rw [← Option.some_inj, ← List.getElem?_eq_getElem h, laneBytes, leBytes, beBytes, ← List.map_reverse,
    List.getElem?_map, beDigits_reverse_getElem? 256 v.toNat hk, Option.map_some, Option.some_inj]
  apply BitVec.eq_of_toNat_eq
  simp [Nat.shiftRight_eq_div_pow, Nat.pow_mul]

/-- The lanes of `n` bytes read back as the low `8n` bits of the data written, 0 above. -/
theorem laneWord_laneBytes (n : Nat) (v : Word) :
    laneWord (laneBytes n v) = BitVec.ofNat 32 (v.toNat % 2 ^ (8 * n)) := by
  rw [laneWord, laneBytes, leBytes, List.reverse_reverse, beInt_beBytes, Nat.pow_mul]

/-! ### A host access that reaches DMEM, or nothing -/

/-- A byte range has no value exactly where one of its bytes has none. -/
theorem readBytes_eq_none {s : State} {p n : Nat} : readBytes s.dmem p n = none ↔ HoldsUnwritten s ⟨p, n⟩ := by
  rw [← Option.not_isSome_iff_eq_none, readBytes_isSome_iff]
  simp [HoldsUnwritten]

section access
variable {s : State} {a : Access} {p n : Nat}

/-- R72: a read that answers changes the read data alone. -/
theorem handle_read_frame {t : State} (hw : a.we = false) (h : handle (.access a) s = .next t) :
    t = { s with rdata := t.rdata } := by
  simp only [handle, hostAccess, hw] at h
  cases hv : readData s a <;> rw [hv] at h <;> cases h
  rfl

theorem handle_write_nothing (hr : s.rst = false) (hw : a.we = true)
    (ht : targetOf s.cfg.dmemSize a = .nothing) : handle (.access a) s = .next s := by
  simp [handle, hostAccess, writeData, hr, hw, ht]

theorem handle_read_nothing (hr : s.rst = false) (hw : a.we = false)
    (ht : targetOf s.cfg.dmemSize a = .nothing) : handle (.access a) s = .next { s with rdata := 0 } := by
  simp [handle, hostAccess, readData, hr, hw, ht]

theorem handle_write_dmem_idle (hr : s.rst = false) (hb : s.status.busy = false) (hw : a.we = true)
    (ht : targetOf s.cfg.dmemSize a = .dmem p n) :
    handle (.access a) s = .next { s with dmem := writeBytes s.dmem p (laneBytes n a.wdata) } := by
  simp [handle, hostAccess, writeData, unlessBusy_idle hb, hr, hw, ht]

theorem handle_read_dmem_busy (hr : s.rst = false) (hb : s.status.busy = true) (hw : a.we = false)
    (ht : targetOf s.cfg.dmemSize a = .dmem p n) : handle (.access a) s = .next { s with rdata := 0 } := by
  simp [handle, hostAccess, readData, hr, hb, hw, ht]

theorem handle_read_dmem_idle {v : Bytes} (hr : s.rst = false) (hb : s.status.busy = false) (hw : a.we = false)
    (ht : targetOf s.cfg.dmemSize a = .dmem p n) (hv : readBytes s.dmem p n = some v) :
    handle (.access a) s = .next { s with rdata := laneWord v } := by
  simp [handle, hostAccess, readData, hr, hb, hw, ht, hv]

theorem handle_read_dmem_unwritten (hr : s.rst = false) (hb : s.status.busy = false) (hw : a.we = false)
    (ht : targetOf s.cfg.dmemSize a = .dmem p n) (hu : HoldsUnwritten s ⟨p, n⟩) :
    handle (.access a) s = .fault .unwrittenRead := by
  simp [handle, hostAccess, readData, hr, hb, hw, ht, readBytes_eq_none.mpr hu]

end access

/-! ### A command whose checks pass and whose input holds an unwritten byte -/

section unwritten
variable {i : Instr} {s : State}

/-- A command that ends in a fault is one whose computation did. -/
theorem finish_eq_fault {x : Except Stop Effect} {f : Fault} (h : finish s x = .fault f) : x = .error (.fault f) := by
  match x with
  | .ok e => cases h
  | .error (.code c) => cases h
  | .error (.fault g) =>
    cases h
    rfl

/-- The unwritten byte of a command whose rule lists one input range. -/
theorem unwritten_of_one {r : Range} {m : Mark} (hin : inputsOf i s = [(r, m)])
    (h : ∃ x ∈ inputsOf i s, HoldsUnwritten s x.1) : HoldsUnwritten s r := by
  simpa [hin] using h

/-- The unwritten byte of a command whose rule lists two. -/
theorem unwritten_of_two {r q : Range} {m k : Mark} (hin : inputsOf i s = [(r, m), (q, k)])
    (h : ∃ x ∈ inputsOf i s, HoldsUnwritten s x.1) : HoldsUnwritten s r ∨ HoldsUnwritten s q := by
  simpa [hin] using h

/-- Where all checks pass, the command faults when its data step does. -/
theorem Faults.checked {x : Except Stop Range} (hx : x = ruledChecks i s) (hp : Passes i s)
    {f : Range → Except Stop Effect} (hf : Faults (f (destOf i s))) : Faults (x >>= f) := by
  rw [hx, checks_pass hp]
  exact hf

/-- A check that passes, and then a fault. -/
theorem Faults.check {b : Bool} {c : Code} (hb : b = true) {f : Unit → Except Stop Effect}
    (hf : Faults (f ())) : Faults (Machine.check b c >>= f) := by
  rw [hb]
  exact hf

/-- The IV is read in every mode but ECB (R213). -/
theorem Faults.seed {m : Mode} {f : Bytes → Except Stop Effect}
    (h : (m ≠ .ecb ∧ HoldsUnwritten s (ivRange s.csr)) ∨ ∀ v, Faults (f v)) : Faults (seedFB m s >>= f) := by
  cases m with
  | ecb => exact h.elim (fun h => absurd rfl h.1) fun h => h _
  | cbc | cfb | ofb | ctr =>
    simp only [seedFB, bind_assoc]
    exact Faults.read (h.imp And.right fun h _ => h _)

/-- A plain RUN reads the IV, then its source. -/
theorem faults_run {m : Mode} {d : Dir} (hi : plainRun i = some (m, d)) (hp : Passes i s)
    (h : ∃ r ∈ inputsOf i s, HoldsUnwritten s r.1) :
    Faults (preRun m d s >>= fun _ => seedFB m s >>= fun fb =>
      readRange s (srcRange s.csr s.csr.srcLen.toNat) >>= fun msg => Except.ok (runEffect m d s fb msg)) := by
  have hin : HoldsUnwritten s (srcRange s.csr s.csr.srcLen.toNat) ∨
      (m ≠ .ecb ∧ HoldsUnwritten s (ivRange s.csr)) := by
    rw [inputsOf_run hi] at h
    cases m <;> simpa [runInputs] using h
  exact Faults.checked (preRun_eq hi s) hp <| Faults.seed <| hin.symm.imp id fun h _ => Faults.read (.inl h)

theorem preLoadKey_of_passes (hp : Passes .loadKey s) : preLoadKey s = .ok () := by
  obtain ⟨_, h, -⟩ := bind_eq_ok.mp ((preLoadKey_eq s).trans (checks_pass hp))
  exact h

/-- PAD and UNPAD read their source right after its own checks. -/
theorem faults_padCommand (hi : i = .pad ∨ i = .unpad) (hp : Passes i s)
    (h : ∃ r ∈ inputsOf i s, HoldsUnwritten s r.1) (f : Bytes → Option Bytes) (g : Range × Bytes → Except Stop Effect) :
    Faults (padCommand f s >>= g) := by
  have hin : inputsOf i s = [(srcRange s.csr s.csr.srcLen.toNat, .inPlace)] := by rcases hi with rfl | rfl <;> rfl
  have hc : padCommandConfigOk s.csr.ctrl = true := by simpa [configBad_pad hi s] using hp.1
  obtain ⟨-, -, -, ⟨-, hfit⟩, -, -⟩ := hp
  have hsrc := hfit (srcRange s.csr s.csr.srcLen.toNat, .inPlace) (by simp [hin])
  rw [padCommand_of_source hc hsrc, readRange_eq_error.mpr ⟨rfl, unwritten_of_one hin h⟩]
  rfl

/-- RUN.GCM reads its source, its IV and its AAD, in that order. -/
theorem faults_gcmReads (hi : isGcm i = true) (h : ∃ r ∈ inputsOf i s, HoldsUnwritten s r.1)
    (f : Bytes → Bytes → Bytes → Except Stop Effect) :
    Faults (readRange s (srcRange s.csr s.csr.srcLen.toNat) >>= fun x => readRange s (ivRange s.csr) >>= fun iv =>
      readRange s (aadRange s.csr) >>= fun aad => f x iv aad) := by
  have hin : HoldsUnwritten s (srcRange s.csr s.csr.srcLen.toNat) ∨ HoldsUnwritten s (ivRange s.csr) ∨
      HoldsUnwritten s (aadRange s.csr) := by
    have : i = .runGcmE ∨ i = .runGcmD := by simpa [isGcm] using hi
    rcases this with rfl | rfl <;> simpa [inputsOf, srcRange, ivRange, aadRange] using h
  exact Faults.read <| hin.imp id fun h _ => Faults.read <| h.imp id fun h _ => Faults.read (.inl h)

/-- A command whose checks pass and which has an unwritten input byte reads that byte and faults (R80), but for RUN.GCM.D
on fewer than 16 bytes. -/
theorem exec_faults (hp : Passes i s) (hshort : ¬(i = .runGcmD ∧ s.csr.srcLen.toNat < 16))
    (h : ∃ r ∈ inputsOf i s, HoldsUnwritten s r.1) : ∃ x, exec i s = finish s x ∧ Faults x := by
  cases i with
  | nop | zeroize => simp [inputsOf] at h
  | loadKey =>
    refine ⟨_, rfl, ?_⟩
    rw [preLoadKey_of_passes hp]
    exact Faults.read (.inl (unwritten_of_one rfl h))
  | blockF | blockI =>
    exact ⟨_, rfl, Faults.checked (preBlock_eq rfl s) hp (Faults.read (.inl (unwritten_of_one rfl h)))⟩
  | runEcbE | runCbcE | runCfbE | runOfbE | runCtrE | runEcbD | runCbcD | runCfbD | runOfbD | runCtrD =>
    exact ⟨_, rfl, faults_run rfl hp h⟩
  | runGcmE => exact ⟨_, rfl, Faults.checked (preGcm_ruled rfl rfl) hp (faults_gcmReads rfl h _)⟩
  | runGcmD =>
    have h16 : decide (16 ≤ s.csr.srcLen.toNat) = true := by simpa using hshort
    exact ⟨_, rfl, Faults.checked (preGcm_ruled rfl rfl) hp (Faults.check h16 (faults_gcmReads rfl h _))⟩
  | xorB | xorBit =>
    exact ⟨_, rfl, Faults.checked (destination_eq (by decide) (by decide) s) hp <|
      Faults.readVec <| (unwritten_of_two rfl h).imp id fun h _ => Faults.readVec (.inl h)⟩
  | permB | permBit | substB | substBit =>
    exact ⟨_, rfl, Faults.checked (destination_eq (by decide) (by decide) s) hp <|
      Faults.readVec <| (unwritten_of_two rfl h).imp id fun h _ => Faults.read (.inl h)⟩
  | gfmul | ghash =>
    exact ⟨_, rfl, Faults.checked (destination_eq (by decide) (by decide) s) hp <|
      Faults.read <| (unwritten_of_two rfl h).imp id fun h _ => Faults.read (.inl h)⟩
  | alignB | alignBit | incB | incBit | inc32B | inc32Bit =>
    exact ⟨_, rfl, Faults.checked (destination_eq (by decide) (by decide) s) hp <|
      Faults.readVec (.inl (unwritten_of_one rfl h))⟩
  | pad => exact ⟨_, rfl, faults_padCommand (.inl rfl) hp h _ _⟩
  | unpad => exact ⟨_, rfl, faults_padCommand (.inr rfl) hp h _ _⟩

end unwritten

end Sys2Proof.Machine

namespace Sys2Proof.Proofs

open Sys2Proof Sys2Proof.Machine

/-- Settles O10, clause by clause of `targetOf`. -/
theorem apertureMap : Obligations.ApertureMap := by
  refine ⟨fun size a => ⟨fun r => targetOf_csr, targetOf_dmem, ?_⟩, fun s a hr ht =>
    ⟨fun hw => handle_write_nothing hr hw ht, fun hw => handle_read_nothing hr hw ht⟩⟩
  rintro (h | h | ⟨hoff, h2⟩ | ⟨hlo, hhi⟩ | h)
  · exact targetOf_size3 h
  · exact targetOf_misaligned h
  · exact targetOf_narrow hoff h2
  · exact targetOf_reserved hlo hhi
  · exact targetOf_past h

/-- Settles O15: the bytes written are the data's lanes, and reading them back packs the same lanes. -/
theorem dmemWindowLanes : Obligations.DmemWindowLanes := by
  intro s a b p n hr hb hwa hwb hta htb
  have hv : readBytes (writeBytes s.dmem p (laneBytes n a.wdata)) p n = some (laneBytes n a.wdata) := by
    simpa using readBytes_writeBytes_same s.dmem p (laneBytes n a.wdata)
  refine ⟨_, _, handle_write_dmem_idle hr hb hwa hta, fun x hx => ?_, fun k hk => ?_, rfl, rfl, rfl,
    handle_read_dmem_idle hr hb hwb htb hv, laneWord_laneBytes n a.wdata⟩
  · exact readByte_writeBytes_outside _ _ _ _ (by simpa using hx)
  · have hk : k < (laneBytes n a.wdata).length := by simpa using hk
    rw [readByte_writeBytes_inside _ _ _ _ hk, laneBytes_getElem]

/-- Settles O16, one clause a target of the read. -/
theorem readsHaveNoSideEffect : Obligations.ReadsHaveNoSideEffect := fun _ _ hr hw =>
  ⟨fun _ h => handle_read_frame hw h, fun _ ht => handle_read_csr hr hw ht,
    fun _ _ ht hb => handle_read_dmem_busy hr hb hw ht,
    fun _ _ ht hb hu => handle_read_dmem_unwritten hr hb hw ht hu⟩

/-- Settles O26: `exec_ends` says how a command can end, `exec_faults` when it must fault. -/
theorem onlyUnwrittenInputStops : Obligations.OnlyUnwrittenInputStops := by
  refine ⟨fun i s x h => ?_, fun i s f h => ?_, fun i s hp hshort hu => ?_⟩
  · obtain ⟨y, hy, -⟩ := exec_ends i s
    exact finish_ne_refused (hy.symm.trans h)
  · obtain ⟨y, hy, hends⟩ := exec_ends i s
    rw [finish_eq_fault (hy.symm.trans h)] at hends
    exact hends
  · obtain ⟨x, hx, hf⟩ := exec_faults hp hshort hu
    rw [hx, hf, finish_fault]

end Sys2Proof.Proofs
end

section
/-! PROOFS. The statements about the encoding (30_encoding.md): the decoder as R97's table, the words of R96 that are
illegal, and the pseudo-instructions WAIT and WRM of R102. -/

namespace Sys2Proof.Machine

/-! ### The decoder -/

/-- The opcodes of a class: R92's table. -/
def classOps : OpClass → List Nat
  | .run => [0x04]
  | .block => [0x03]
  | .vector => [0x10, 0x11, 0x12, 0x13, 0x14, 0x15]
  | .plain => [0x00, 0x01, 0x02, 0x18, 0x19, 0x20, 0x21]

theorem opClass_eq_some {op : BitVec 8} {c : OpClass} : opClass op = some c ↔ op.toNat ∈ classOps c := by
  revert op
  cases c <;> decide

theorem opClass_eq_none {op : BitVec 8} :
    opClass op = none ↔ op.toNat ∉ [0x00, 0x01, 0x02, 0x03, 0x04] ∧
      op.toNat ∉ [0x10, 0x11, 0x12, 0x13, 0x14, 0x15] ∧ op.toNat ∉ [0x18, 0x19, 0x20, 0x21] := by
  revert op
  decide

/-- R96's three conditions, and how each is broken. -/
theorem wellFormed_eq_false {r : RawWord} :
    r.wellFormed = false ↔
      r.high ≠ 0 ∨ opClass r.op = none ∨ ∃ c, r.op.toNat ∈ classOps c ∧ fnLegal c r.fn = false := by
  simp only [← opClass_eq_some, RawWord.wellFormed, RawWord.zeroOk, RawWord.opOk, RawWord.fnOk]
  cases opClass r.op <;> simp [imp_iff_not_or]

theorem wellFormed_iff {r : RawWord} :
    r.wellFormed = true ↔ r.high = 0 ∧ ∃ c, r.op.toNat ∈ classOps c ∧ fnLegal c r.fn = true := by
  simp only [← opClass_eq_some, RawWord.wellFormed, RawWord.zeroOk, RawWord.opOk, RawWord.fnOk]
  cases opClass r.op <;> simp

theorem exists_opClass {p : OpClass → Prop} : (∃ c, p c) ↔ p .run ∨ p .block ∨ p .vector ∨ p .plain := by
  constructor
  · rintro ⟨c, h⟩
    cases c <;> simp [h]
  · rintro (h | h | h | h) <;> exact ⟨_, h⟩

/-! The FN values each class forbids: R91's last column. -/

theorem fnLegal_run_eq_false {fn : BitVec 4} :
    fnLegal .run fn = false ↔ ¬(fn.toNat ≤ 0x5 ∨ 0x8 ≤ fn.toNat ∧ fn.toNat ≤ 0xD) := by
  revert fn
  decide

theorem fnLegal_block_eq_false {fn : BitVec 4} : fnLegal .block fn = false ↔ fn.toNat ≠ 0x0 ∧ fn.toNat ≠ 0x8 := by
  revert fn
  decide

theorem fnLegal_vector_eq_false {fn : BitVec 4} : fnLegal .vector fn = false ↔ 1 < fn.toNat := by
  revert fn
  decide

theorem fnLegal_plain_eq_false {fn : BitVec 4} : fnLegal .plain fn = false ↔ fn.toNat ≠ 0x0 := by
  revert fn
  decide

/-- R90's fields are the whole word. -/
theorem joinWord_splitWord (w : Word) : joinWord (splitWord w) = w := by
  apply BitVec.eq_of_getLsbD_eq
  intro i hi
  simp only [joinWord, splitWord, BitVec.getLsbD_append, BitVec.getLsbD_extractLsb']
  grind

/-- Class by class, every legal pair of OP and FN names a command, and R97's word for that command has these fields. -/
theorem decodeRaw_of_legal (c : OpClass) :
    ∀ op ∈ classOps c, ∀ fn : BitVec 4, fnLegal c fn = true →
      ∃ i ∈ decodeRaw ⟨BitVec.ofNat 8 op, fn, 0⟩, encode i = joinWord ⟨BitVec.ofNat 8 op, fn, 0⟩ := by
  cases c <;> decide

theorem decodeRaw_of_wellFormed {r : RawWord} (h : r.wellFormed = true) :
    ∃ i, decodeRaw r = some i ∧ encode i = joinWord r := by
  obtain ⟨op, fn, high⟩ := r
  obtain ⟨rfl, c, hop, hfn⟩ := wellFormed_iff.mp h
  simpa using decodeRaw_of_legal c _ hop fn hfn

/-- What the decoder answers on a word that R96 allows: the command whose word it is. -/
theorem decode_of_wellFormed {w : Word} (h : (splitWord w).wellFormed = true) :
    ∃ i, decode w = some i ∧ encode i = w := by
  obtain ⟨i, hi, he⟩ := decodeRaw_of_wellFormed h
  exact ⟨i, by simp [decode, h, hi], he.trans (joinWord_splitWord w)⟩

theorem decode_encode (i : Instr) : decode (encode i) = some i := by cases i <;> rfl

theorem decode_eq_none {w : Word} : decode w = none ↔ (splitWord w).wellFormed = false := by
  constructor
  · intro hn
    by_contra h
    obtain ⟨i, hi, -⟩ := decode_of_wellFormed (by simpa using h)
    simp [hn] at hi
  · intro h
    simp [decode, h]

theorem decode_eq_some {w : Word} {i : Instr} : decode w = some i ↔ w = encode i := by
  constructor
  · intro h
    have hw : (splitWord w).wellFormed = true := by
      by_contra hw
      simp [decode, hw] at h
    obtain ⟨j, hj, rfl⟩ := decode_of_wellFormed hw
    rw [Option.some.inj (hj.symm.trans h)]
  · rintro rfl
    exact decode_encode i

/-! ### WAIT -/

/-- With no command running, a step is a clock cycle in which the oldest input happens. -/
theorem step_idle {s : State} {e : Event} {rest : List Event} (hb : s.status.busy = false)
    (hi : s.inputs = e :: rest) : step s = handle e (tick { s with inputs := rest }) := by
  have hn : ready s = false := by simp [ready, hb]
  simp [step, hn, clockCycle, hi]

/-- R102: with no command running, one read ends WAIT. -/
theorem step_wait_idle {s : State} {rest : List Event} (hr : s.rst = false) (hb : s.status.busy = false)
    (hi : s.inputs = .wait :: rest) :
    step s = .next { s with inputs := rest, rdata := readCsr s .status, cyclesLeft := s.cyclesLeft - 1 } := by
  rw [step_idle hb hi, handle, waitTurn_eq (by exact hr)]
  simp only [tick_status, hb]
  rfl

/-- A run from `s` on which WAIT stays the oldest input until it is read with BUSY = 0 and DONE = 1, or until the command
that runs ends in its model fault. -/
def WaitEnds (rest : List Event) (s : State) : Prop :=
  ∃ k, (∀ j < k, ∃ u, Host.Core.run Sys2Proof.core j s = .next u ∧ u.inputs = .wait :: rest) ∧
    (Host.Core.run Sys2Proof.core k s = .fault Fault.unwrittenInput ∨
      ∃ t, Host.Core.run Sys2Proof.core k s = .next t ∧ t.inputs = rest ∧ t.status.busy = false ∧
        t.status.done = true ∧ t.rdata = readCsr t .status)

section
variable {s t : State} {rest : List Event}

theorem WaitEnds.of_step (hi : s.inputs = .wait :: rest) (h : step s = .next t) (ht : WaitEnds rest t) :
    WaitEnds rest s := by
  obtain ⟨k, hstay, hend⟩ := ht
  refine ⟨k + 1, fun j hj => ?_, by rwa [run_succ h]⟩
  cases j with
  | zero => exact ⟨s, rfl, hi⟩
  | succ j =>
    rw [run_succ h]
    exact hstay j (by omega)

theorem WaitEnds.of_fault (hi : s.inputs = .wait :: rest) (h : step s = .fault .unwrittenInput) :
    WaitEnds rest s := by
  refine ⟨1, fun j hj => ?_, .inl (run_succ_fault h)⟩
  obtain rfl : j = 0 := by omega
  exact ⟨s, rfl, hi⟩

theorem WaitEnds.of_done (hi : s.inputs = .wait :: rest) (hr : s.rst = false) (hb : s.status.busy = false)
    (hd : s.status.done = true) : WaitEnds rest s := by
  refine ⟨1, fun j hj => ?_, .inr ⟨_, run_succ (step_wait_idle hr hb hi), rfl, hb, hd, rfl⟩⟩
  obtain rfl : j = 0 := by omega
  exact ⟨s, rfl, hi⟩

end

/-- A due command completes, or ends in the model fault of an unwritten input. -/
theorem step_ready_ends {s : State} (hr : ready s = true) :
    step s = .fault .unwrittenInput ∨ ∃ e, step s = .next (complete e s) := by
  have hs : step s = completeLatched s := if_pos hr
  rw [hs, completeLatched]
  cases fetch s with
  | none => exact .inr ⟨_, rfl⟩
  | some i =>
    obtain ⟨x, hx, hends⟩ := exec_ends i s
    simp only [hx]
    match x with
    | .ok e => exact .inr ⟨e, rfl⟩
    | .error (.code c) => exact .inr ⟨_, rfl⟩
    | .error (.fault f) =>
      obtain ⟨rfl, -⟩ := hends
      exact .inl rfl

/-- WAIT outlasts the command: by induction on the cycles it still takes. -/
theorem waitEnds_of_busy {s : State} {rest : List Event} (hr : s.rst = false) (hb : s.status.busy = true)
    (hi : s.inputs = .wait :: rest) : WaitEnds rest s := by
  by_cases hready : ready s = true
  · obtain hf | ⟨e, he⟩ := step_ready_ends hready
    · exact .of_fault hi hf
    · exact .of_step hi he (.of_done hi hr rfl rfl)
  · have hpos : s.cyclesLeft ≠ 0 := fun h => hready (ready_of_elapsed hb hr h)
    obtain ⟨t, ht, hk, hin⟩ := step_running (by simpa using hready) hb hr (by simp [hi])
    have hlt : t.cyclesLeft < s.cyclesLeft := by
      rw [hk.cyclesLeft, tick_cyclesLeft]
      omega
    exact .of_step hi ht (waitEnds_of_busy (hk.rst.trans hr) (hk.busy.trans hb) (by simpa [hi] using hin))
termination_by s.cyclesLeft

/-! ### WRM -/

theorem writeBytes_append (m : Memory) (a : Nat) (v w : Bytes) :
    writeBytes m a (v ++ w) = writeBytes (writeBytes m a v) (a + v.length) w := by
  induction v generalizing m a with
  | nil => rfl
  | cons b v ih =>
    simp only [List.cons_append, writeBytes, List.length_cons, ih]
    congr 1
    omega

/-- Up to four bytes put on the bus are the bytes a write of that many stores. -/
theorem laneBytes_laneWord {v : Bytes} (h : v.length ≤ 4) : laneBytes v.length (laneWord v) = v := by
  have hlt : beInt v.reverse < 2 ^ 32 := calc
    beInt v.reverse < 256 ^ v.length := by simpa using beInt_lt v.reverse
    _ ≤ 256 ^ 4 := Nat.pow_le_pow_right (by decide) h
    _ = 2 ^ 32 := rfl
  rw [laneBytes, laneWord, BitVec.toNat_ofNat, Nat.mod_eq_of_lt hlt, leBytes, ← List.length_reverse, beBytes_beInt,
    List.reverse_reverse]

/-- `s` after `k` clock cycles in which the host stored `v` at `a`, the inputs `rest` still to come. -/
def afterStores (s : State) (a : Nat) (v : Bytes) (k : Nat) (rest : List Event) : State :=
  { s with dmem := writeBytes s.dmem a v, cyclesLeft := s.cyclesLeft - k, inputs := rest }

/-- The input a bus operation becomes (R103). -/
abbrev opEvent (o : HostOp) : Event := hostEvent (.op o)

/-- Run while no command runs, the operations store `v` at `a`, if that lies in DMEM, one clock cycle each. -/
def StoresBytes (ops : List HostOp) (a : Nat) (v : Bytes) : Prop :=
  ∀ (s : State) (rest : List Event), s.rst = false → s.status.busy = false → s.cfg.dmemSize ≤ 65536 →
    a + v.length ≤ s.cfg.dmemSize → s.inputs = ops.map opEvent ++ rest →
    Host.Core.run Sys2Proof.core ops.length s = .next (afterStores s a v ops.length rest)

theorem StoresBytes.nil (a : Nat) : StoresBytes [] a [] := by
  intro s rest _ _ _ _ hi
  obtain rfl : s.inputs = rest := hi
  rfl

/-- An access at DMEM's address `a` as the host assembly writes it, naturally aligned and inside DMEM. -/
theorem targetOf_dmemOffset {size a : Nat} {x : Access} (haddr : x.addr = BitVec.ofNat 17 (dmemBase + a))
    (h3 : x.size ≠ 3) (hal : 2 ^ x.size.toNat ∣ a) (hsize : size ≤ 65536) (hfit : a + 2 ^ x.size.toNat ≤ size) :
    targetOf size x = .dmem a (2 ^ x.size.toNat) := by
  have hpos : 0 < 2 ^ x.size.toNat := Nat.two_pow_pos _
  have hoff : x.addr.toNat = 0x10000 + a := by
    rw [haddr, BitVec.toNat_ofNat, dmemBase, Nat.mod_eq_of_lt (by omega)]
  have hbase : 2 ^ x.size.toNat ∣ 0x10000 := Nat.pow_dvd_pow (n := 16) 2 (by omega)
  have halign : x.addr.toNat % 2 ^ x.size.toNat = 0 := by
    rw [hoff]
    exact Nat.mod_eq_zero_of_dvd (Nat.dvd_add hbase hal)
  rw [targetOf_dmem h3 halign (by omega) (by omega), hoff, Nat.add_sub_cancel_left]

/-- One operation that writes the bytes `v` to DMEM at `a`, and then the others. -/
theorem StoresBytes.cons {o : HostOp} {ops : List HostOp} {a : Nat} {v w : Bytes} (hwe : (busOp o).we = true)
    (haddr : (busOp o).addr = BitVec.ofNat 17 (dmemBase + a)) (h3 : (busOp o).size ≠ 3)
    (hlen : v.length = 2 ^ (busOp o).size.toNat) (hal : v.length ∣ a)
    (hdata : laneBytes v.length (busOp o).wdata = v) (h : StoresBytes ops (a + v.length) w) :
    StoresBytes (o :: ops) a (v ++ w) := by
  intro s rest hr hb hsize hfit hi
  rw [List.length_append] at hfit
  have ht : targetOf s.cfg.dmemSize (busOp o) = .dmem a v.length := by
    rw [hlen] at hal hfit ⊢
    exact targetOf_dmemOffset haddr h3 hal hsize (by omega)
  have hstep : step s = .next (afterStores s a v 1 (ops.map opEvent ++ rest)) := by
    rw [step_idle hb hi]
    refine (handle_write_dmem_idle (s := tick { s with inputs := _ }) hr hb hwe ht).trans ?_
    rw [hdata]
    rfl
  have hrun := h (afterStores s a v 1 (ops.map opEvent ++ rest)) rest hr hb hsize
    (by simpa [afterStores, Nat.add_assoc] using hfit) rfl
  refine (run_succ hstep).trans (hrun.trans ?_)
  simp [afterStores, writeBytes_append, Nat.sub_sub, Nat.add_comm]

theorem StoresBytes.wr8 {ops : List HostOp} {a : Nat} {b : Byte} {v : Bytes} (h : StoresBytes ops (a + 1) v) :
    StoresBytes (.wr8 a b :: ops) a (b :: v) := by
  have hb : (busOp (.wr8 a b)).wdata = laneWord [b] := by
    apply BitVec.eq_of_toNat_eq
    simp [busOp, laneWord, beInt, beNat]
  refine StoresBytes.cons (v := [b]) rfl rfl (show (0 : BitVec 2) ≠ 3 by decide) rfl (one_dvd a) ?_ h
  rw [hb]
  exact laneBytes_laneWord (by simp)

theorem StoresBytes.wr32 {ops : List HostOp} {a : Nat} {b0 b1 b2 b3 : Byte} {v : Bytes} (ha : a % 4 = 0)
    (h : StoresBytes ops (a + 4) v) :
    StoresBytes (.wr32 a (laneWord [b0, b1, b2, b3]) :: ops) a (b0 :: b1 :: b2 :: b3 :: v) :=
  StoresBytes.cons (v := [b0, b1, b2, b3]) rfl rfl (show (2 : BitVec 2) ≠ 3 by decide) rfl (Nat.dvd_of_mod_eq_zero ha)
    (laneBytes_laneWord (by simp)) h

theorem wrmBytes_cons (a : Nat) (b : Byte) (v : Bytes) : wrmBytes a (b :: v) = .wr8 a b :: wrmBytes (a + 1) v := by
  rw [wrmBytes, List.zipIdx_cons, List.map_cons, List.zipIdx_succ, List.map_map]
  simp [wrmBytes, Nat.add_assoc, Nat.add_comm 1, Function.comp_def]

theorem storesBytes_wrmBytes (a : Nat) (v : Bytes) : StoresBytes (wrmBytes a v) a v := by
  induction v generalizing a with
  | nil => exact .nil a
  | cons b v ih =>
    rw [wrmBytes_cons]
    exact .wr8 (ih (a + 1))

theorem storesBytes_wrmWords (a : Nat) (v : Bytes) (ha : a % 4 = 0) : StoresBytes (wrmWords a v) a v := by
  induction a, v using wrmWords.induct with
  | case1 a b0 b1 b2 b3 v ih => exact .wr32 ha (ih (by omega))
  | case2 a v h =>
    rw [wrmWords]
    · exact storesBytes_wrmBytes a v
    · exact h

end Sys2Proof.Machine

namespace Sys2Proof.Proofs

open Sys2Proof Sys2Proof.Machine

/-- Settles O1: the encoder's words for the five commands, and three words evaluated. -/
theorem knownWordsDecode : Obligations.KnownWordsDecode :=
  ⟨decode_encode .loadKey, decode_encode .blockI, decode_encode .runCfbD, decode_encode .inc32Bit,
    decode_encode .ghash, rfl, rfl, rfl⟩

/-- Settles O2: the table lists each command once, with the encoder's word, and `decode_eq_some` says decode is that. -/
theorem decodeExactlyTheTable : Obligations.DecodeExactlyTheTable := by
  refine ⟨decode_encode, fun w i => decode_eq_some.trans ?_⟩
  cases i <;> simp [encode]

/-- Settles O3: R96's conditions are `wellFormed_eq_false` read through R91's and R92's tables, and the completion of an
undecodable word is the effect `failure .illegal`. -/
theorem illegalWords : Obligations.IllegalWords := by
  intro w op fn illegal
  have hill : decode w = none ↔ illegal := by
    rw [decode_eq_none, wellFormed_eq_false, opClass_eq_none, exists_opClass, fnLegal_run_eq_false,
      fnLegal_block_eq_false, fnLegal_vector_eq_false, fnLegal_plain_eq_false]
    simp only [classOps, List.mem_singleton]
    rfl
  refine ⟨hill, fun h s hr hw => ⟨complete (failure .illegal) s, ?_, ?_, rfl, rfl, rfl⟩⟩
  · have hf : fetch s = none := by rw [fetch, hw, hill.mpr h]
    simp [step, hr, completeLatched, hf]
  · exact completes_complete (failure .illegal) s

/-- Settles O56: `step_wait_idle` is the first half, `waitEnds_of_busy` the second. -/
theorem waitEndsAfterTheCommand : Obligations.WaitEndsAfterTheCommand := fun _ _ hr hi =>
  ⟨fun hb => step_wait_idle hr hb hi, fun hb => waitEnds_of_busy hr hb hi⟩

/-- Settles O57: both of log 19's expansions of WRM are stores of its bytes at its address. -/
theorem writeMemoryPseudoStoresBytes : Obligations.WriteMemoryPseudoStoresBytes := by
  intro s a v words rest hr hb hsize hfit hi
  have hst : StoresBytes (if words && decide (a % 4 = 0) then wrmWords a v else wrmBytes a v) a v := by
    split
    · next h => exact storesBytes_wrmWords a v (by simp_all)
    · exact storesBytes_wrmBytes a v
  refine ⟨_, _, hst s rest hr hb hsize hfit ?_, rfl, readBytes_writeBytes_same _ _ _, fun x hx => ?_, rfl, rfl, rfl, rfl⟩
  · rw [hi]
    simp [hostProgram, expandPseudo, hostEvent, Function.comp_def]
  · exact readByte_writeBytes_outside _ _ _ _ hx

end Sys2Proof.Proofs
end

section
/-! PROOFS. The statements about the vector commands (40_vector_ops.md): what each container operation makes of its
operands, element by element or as an integer, and that a command whose checks pass stores that. -/

namespace Sys2Proof.Machine

/-! ### Elements of packed and unpacked vectors -/

theorem byteKind_unpack {v : Bytes} {n : Nat} (h : v.length = n) : byteKind.unpack n v = v :=
  List.take_of_length_le h.le

theorem vecBit_eq_getD_bits (v : Bytes) (i : Nat) : vecBit v i = (bits v).getD i false := by
  rw [vecBit, List.getD_eq_getElem?_getD, List.getD_eq_getElem?_getD, bits_getElem?]
  cases v[i / 8]? <;> simp

/-- R121: element `i` of the `n` bits read, none past them. -/
theorem bitKind_unpack_getD (v : Bytes) (n i : Nat) :
    (bitKind.unpack n v).getD i false = if i < n then vecBit v i else false := by
  rw [vecBit_eq_getD_bits, List.getD_eq_getElem?_getD, List.getD_eq_getElem?_getD]
  simp only [bitKind, List.getElem?_take]
  split <;> rfl

theorem bitKind_unpack_getD_lt (v : Bytes) {n i : Nat} (h : i < n) : (bitKind.unpack n v).getD i false = vecBit v i :=
  (bitKind_unpack_getD v n i).trans (if_pos h)

/-- R122: bit `i` of the bytes written is element `i`, and 0 past the vector. -/
theorem vecBit_bitKind_pack (v : Bits) (i : Nat) : vecBit (bitKind.pack v) i = v.getD i false := by
  have hpack : bitKind.pack v = bytes v := rfl
  rw [hpack, vecBit_eq_getD_bits]
  by_cases h : i < 8 * ((v.length + 7) / 8)
  · rw [List.getD_eq_getElem?_getD, bits_bytes_getElem? v i h, Option.getD_some]
  · rw [List.getD_eq_default _ _ (by rw [bits_length, bytes_length]; omega), List.getD_eq_default _ _ (by omega)]

theorem bitKind_pack_length {v : Bits} {n : Nat} (h : v.length = n) : (bitKind.pack v).length = bitBytes n :=
  (bitKind_lawful.pack_length v).trans (congrArg bitKind.nb h)

/-- The integer that the bytes written hold is that of the vector. -/
theorem vecInt_bitKind_pack {v : Bits} {n : Nat} (h : v.length = n) :
    vecInt (bitKind.pack v) n = kindInt bitKind v := by
  rw [← kindInt_unpack_bit _ _ (bitKind_pack_length h), ← h, bitKind_lawful.unpack_pack]

/-! ### Elements of the container operations -/

section elements
variable {α : Type} (v : List α) (i : Nat) (z : α)

theorem xorVec_getD (k : Kind α) (b : List α) :
    (xorVec k v b).getD i z =
      if i < v.length then k.xorElem (v.getD i z) (b.getD (i % b.length) k.zero) else z := by
  rw [List.getD_eq_getElem?_getD, xorVec_getElem?]
  split
  · next h => simp [h]
  · next h => simp [List.getElem?_eq_none (Nat.le_of_not_lt h)]

theorem permVec_getD (idx : List Nat) :
    (permVec z v idx).getD i z = if i < idx.length then v.getD (idx.getD i 0) z else z := by
  rw [List.getD_eq_getElem?_getD, permVec, List.getElem?_map]
  split
  · next h => simp [h]
  · next h => simp [List.getElem?_eq_none (Nat.le_of_not_lt h)]

/-- R132, element by element: cut on the left, or filled on the left. -/
theorem alignVec_getD (n : Nat) (f : α) :
    (alignVec v n f).getD i z =
      if n ≤ i then z
      else if n ≤ v.length then v.getD (v.length - n + i) z
      else if i < n - v.length then f else v.getD (i - (n - v.length)) z := by
  split
  · next h => exact List.getD_eq_default _ _ (by rwa [alignVec_length])
  · unfold alignVec
    split
    · rw [List.getD_eq_getElem?_getD, List.getElem?_drop, List.getD_eq_getElem?_getD]
    · split
      · next h => rw [List.getD_append _ _ _ _ (by simpa using h), List.getD_replicate _ h]
      · next h => rw [List.getD_append_right _ _ _ _ (by simpa using h), List.length_replicate]

end elements

theorem beInt_pair (a b : Byte) : beInt [a, b] = 256 * a.toNat + b.toNat := by
  simp [beInt, beNat, Nat.mul_comm]

/-- R127: index `i` is the `i`-th 16-bit big-endian entry. -/
theorem indexList_getD {ix : Bytes} {m i : Nat} (hl : ix.length = 2 * m) (hi : i < m) :
    (indexList ix).getD i 0 = entry16 ix i := by
  have hpair : (ix.drop (i * 2)).take 2 = [ix.getD (2 * i) 0, ix.getD (2 * i + 1) 0] := by
    rw [Nat.mul_comm, List.drop_eq_getElem_cons (by omega), List.drop_eq_getElem_cons (by omega), List.getD_eq_getElem,
      List.getD_eq_getElem]
    rfl
  rw [List.getD_eq_getElem?_getD, indexList, List.getElem?_map, chunks_getElem? (by decide), if_pos (by omega), hpair,
    Option.map_some, Option.getD_some, beInt_pair, entry16]

/-! ### The increments as integers -/

/-- A digit written as an element reads back. -/
def LawfulDigits {α : Type} (k : Kind α) : Prop := ∀ d < 2 ^ k.width, k.toDigit (k.ofDigit d) = d

theorem byteKind_digits : LawfulDigits byteKind := fun _ hd => by
  simpa [byteKind] using Nat.mod_eq_of_lt hd

theorem bitKind_digits : LawfulDigits bitKind := fun d hd => by
  have hd : d < 2 := hd
  interval_cases d <;> rfl

section increments
variable {α : Type} {k : Kind α} (hk : LawfulDigits k) (v : List α)

include hk in
/-- R135: one more, modulo what the length holds. -/
theorem kindInt_incVec : kindInt k (incVec k v) = (kindInt k v + 1) % (2 ^ k.width) ^ v.length := by
  rw [kindInt, incVec, map_map_of_lt hk (beDigits_lt (Nat.two_pow_pos _) _ _), beNat_beDigits]

/-- The digits past the first `n` decide a vector's integer, modulo what they hold. -/
theorem kindInt_mod_drop (n : Nat) :
    kindInt k v % (2 ^ k.width) ^ (v.length - n) = kindInt k (v.drop n) % (2 ^ k.width) ^ (v.length - n) := by
  have hsplit : kindInt k v = kindInt k (v.take n) * (2 ^ k.width) ^ (v.length - n) + kindInt k (v.drop n) := by
    rw [kindInt, ← List.take_append_drop n v, List.map_append, beNat_append, List.length_map, List.length_drop,
      List.take_append_drop]
    rfl
  rw [hsplit, Nat.mul_add_mod_self_right]

/-- R138: the last 32 bits, or the whole of a shorter vector, are incremented. -/
theorem inc32Vec_eq :
    inc32Vec k v = v.take (v.length - 32 / k.width) ++ incVec k (v.drop (v.length - 32 / k.width)) := by
  simp only [inc32Vec, tsub_min]

theorem inc32Vec_take : (inc32Vec k v).take (v.length - 32 / k.width) = v.take (v.length - 32 / k.width) := by
  rw [inc32Vec_eq, List.take_left' (by simp)]

theorem inc32Vec_drop :
    (inc32Vec k v).drop (v.length - 32 / k.width) = incVec k (v.drop (v.length - 32 / k.width)) := by
  rw [inc32Vec_eq, List.drop_left' (by simp)]

theorem inc32Vec_getD {i : Nat} (h : i < v.length - 32 / k.width) (z : α) :
    (inc32Vec k v).getD i z = v.getD i z := by
  have hi := congrArg (fun l => l.getD i z) (inc32Vec_take (k := k) v)
  simpa only [List.getD_eq_getElem?_getD, List.getElem?_take, if_pos h] using hi

include hk in
theorem kindInt_inc32Vec_drop :
    kindInt k ((inc32Vec k v).drop (v.length - 32 / k.width)) =
      (kindInt k (v.drop (v.length - 32 / k.width)) + 1) % (2 ^ k.width) ^ min v.length (32 / k.width) := by
  rw [inc32Vec_drop, kindInt_incVec hk, List.length_drop, tsub_tsub_eq_min]

include hk in
/-- The whole vector's integer, modulo the incremented part's width. -/
theorem kindInt_inc32Vec_mod :
    kindInt k (inc32Vec k v) % (2 ^ k.width) ^ min v.length (32 / k.width) =
      (kindInt k v + 1) % (2 ^ k.width) ^ min v.length (32 / k.width) := by
  have hn : v.length - (v.length - 32 / k.width) = min v.length (32 / k.width) := tsub_tsub_eq_min _ _
  have hnew := kindInt_mod_drop (k := k) (inc32Vec k v) (v.length - 32 / k.width)
  have hold := kindInt_mod_drop (k := k) v (v.length - 32 / k.width)
  rw [inc32Vec_length, hn, kindInt_inc32Vec_drop hk, Nat.mod_mod] at hnew
  rw [hn] at hold
  rw [hnew, Nat.add_mod, ← hold, ← Nat.add_mod]

end increments

/-! ### The data step of a command whose checks pass -/

section data
variable {α : Type} {k : Kind α} {i : Instr} {s : State}

theorem exec_of_passes {x : Except Stop Range} {f : Range → Except Stop Effect} (hi : exec i s = finish s (x >>= f))
    (hx : x = ruledChecks i s) (hp : Passes i s) : exec i s = finish s (f (destOf i s)) := by
  rw [hi, hx, checks_pass hp, ok_bind]

theorem readVec_of_readBytes {p n : Nat} {v : Bytes} (h : readBytes s.dmem p (k.nb n) = some v) :
    readVec k s p n = .ok (k.unpack n v) := by
  rw [readVec, readRange_eq_ok.mpr h]
  rfl

/-- A vector result of `n` elements is stored packed. -/
theorem stores_vecResult {v : List α} {n : Nat} (h : exec i s = .next (complete (vecResult k s v) s))
    (hn : v.length = n) : Stores i s (k.pack v) n := hn ▸ stores_result h

theorem stores_xor (hk : LawfulKind k) (hi : exec i s = execXor k s) (hx : preXor k s = ruledChecks i s)
    (hp : Passes i s) {a b : Bytes} (ha : readBytes s.dmem s.csr.srcPtr.toNat (k.nb s.csr.srcLen.toNat) = some a)
    (hb : readBytes s.dmem s.csr.auxPtr.toNat (k.nb s.csr.auxLen.toNat) = some b) :
    Stores i s (k.pack (xorVec k (k.unpack s.csr.srcLen.toNat a) (k.unpack s.csr.auxLen.toNat b)))
      s.csr.srcLen.toNat := by
  refine stores_vecResult ?_ (by rw [xorVec_length, hk.unpack_length _ _ (readBytes_length ha)])
  rw [exec_of_passes hi hx hp, readVec_of_readBytes ha, readVec_of_readBytes hb]
  rfl

theorem stores_perm (hi : exec i s = execPerm k s) (hx : prePerm k s = ruledChecks i s) (hp : Passes i s)
    {v ix : Bytes} (hv : readBytes s.dmem s.csr.srcPtr.toNat (k.nb s.csr.srcLen.toNat) = some v)
    (hix : readBytes s.dmem s.csr.auxPtr.toNat (2 * s.csr.auxLen.toNat) = some ix) :
    Stores i s (k.pack (permVec k.zero (k.unpack s.csr.srcLen.toNat v) (indexList ix))) s.csr.auxLen.toNat := by
  refine stores_vecResult ?_ (by rw [permVec_length, indexList_length (readBytes_length hix)])
  rw [exec_of_passes hi hx hp, readVec_of_readBytes hv, readRange_eq_ok.mpr hix]
  rfl

theorem stores_align {f : α} (hi : exec i s = execAlign k f s) (hx : preAlign k s = ruledChecks i s)
    (hp : Passes i s) {v : Bytes} (hv : readBytes s.dmem s.csr.srcPtr.toNat (k.nb s.csr.srcLen.toNat) = some v) :
    Stores i s (k.pack (alignVec (k.unpack s.csr.srcLen.toNat v) (alignLen s.csr.param) f))
      (alignLen s.csr.param) := by
  refine stores_vecResult ?_ (alignVec_length _ _ _)
  rw [exec_of_passes hi hx hp, readVec_of_readBytes hv]
  rfl

theorem stores_inc (hk : LawfulKind k) {f : List α → List α} (hf : ∀ v, (f v).length = v.length)
    (hi : exec i s = execIncWith k f s) (hx : preInc k s = ruledChecks i s) (hp : Passes i s) {v : Bytes}
    (hv : readBytes s.dmem s.csr.srcPtr.toNat (k.nb s.csr.srcLen.toNat) = some v) :
    Stores i s (k.pack (f (k.unpack s.csr.srcLen.toNat v))) s.csr.srcLen.toNat := by
  refine stores_vecResult ?_ (by rw [hf, hk.unpack_length _ _ (readBytes_length hv)])
  rw [exec_of_passes hi hx hp, readVec_of_readBytes hv]
  rfl

/-! ### SUBST -/

/-- SUBST, its operands read: the index is checked against the table, and a row is stored. -/
theorem substB_of_reads (hp : Passes .substB s) {v tab : Bytes}
    (hv : readBytes s.dmem s.csr.srcPtr.toNat s.csr.srcLen.toNat = some v)
    (ht : readBytes s.dmem s.csr.auxPtr.toNat (s.csr.auxLen.toNat * rowWidth s.csr.param) = some tab) :
    exec .substB s = finish s (check (decide (beInt v < s.csr.auxLen.toNat)) .len >>= fun _ =>
      .ok (vecResult byteKind s ((tab.drop (beInt v * rowWidth s.csr.param)).take (rowWidth s.csr.param)))) := by
  have hvec := readVec_of_readBytes (k := byteKind) (n := s.csr.srcLen.toNat) hv
  have htab : readRange s (auxRange s.csr (s.csr.auxLen.toNat * rowWidth s.csr.param)) = .ok tab :=
    readRange_eq_ok.mpr ht
  rw [exec_of_passes rfl (preSubstB_eq s) hp]
  simp only [hvec, htab, ok_bind, pure_eq_ok, byteKind_unpack (readBytes_length hv)]
  rfl

theorem substBit_of_reads (hp : Passes .substBit s) {v tab : Bytes}
    (hv : readBytes s.dmem s.csr.srcPtr.toNat (bitBytes s.csr.srcLen.toNat) = some v)
    (ht : readBytes s.dmem s.csr.auxPtr.toNat s.csr.auxLen.toNat = some tab) :
    exec .substBit s = finish s (check (decide (vecInt v s.csr.srcLen.toNat < s.csr.auxLen.toNat)) .len >>= fun _ =>
      .ok (vecResult bitKind s (beBits (rowWidth s.csr.param)
        ((tab.getD (vecInt v s.csr.srcLen.toNat) 0).toNat % 2 ^ rowWidth s.csr.param)))) := by
  have hvec := readVec_of_readBytes (k := bitKind) (n := s.csr.srcLen.toNat) hv
  have htab : readRange s (auxRange s.csr s.csr.auxLen.toNat) = .ok tab := readRange_eq_ok.mpr ht
  rw [exec_of_passes rfl (preSubstBit_eq s) hp]
  simp only [hvec, htab, ok_bind, pure_eq_ok, kindInt_unpack_bit v _ (readBytes_length hv)]

/-- SUBST's index past the end of the table. -/
theorem failsWith_len {j m : Nat} {f : Unit → Except Stop Effect}
    (h : exec i s = finish s (check (decide (j < m)) .len >>= f)) (hj : m ≤ j) : FailsWith i s .len :=
  failsWith_of_complete (by decide) (by rw [h, decide_eq_false (Nat.not_lt.mpr hj)]; rfl)

/-- SUBST's index inside the table. -/
theorem stores_row {j m n : Nat} {row : List α}
    (h : exec i s = finish s (check (decide (j < m)) .len >>= fun _ => .ok (vecResult k s row))) (hj : j < m)
    (hn : row.length = n) : Stores i s (k.pack row) n :=
  stores_vecResult (by rw [h, decide_eq_true hj]; rfl) hn

end data

/-- Row `j` of a table of `m` rows of `w` bytes is whole. -/
theorem row_length {tab : Bytes} {m w j : Nat} (ht : tab.length = m * w) (hj : j < m) :
    ((tab.drop (j * w)).take w).length = w := by
  have hfit : (j + 1) * w ≤ m * w := Nat.mul_le_mul_right w hj
  rw [Nat.add_mul, Nat.one_mul] at hfit
  rw [List.length_take, List.length_drop]
  omega

theorem row_getD (tab : Bytes) {w j i : Nat} (hi : i < w) :
    ((tab.drop (j * w)).take w).getD i 0 = tab.getD (j * w + i) 0 := by
  rw [List.getD_eq_getElem?_getD, List.getElem?_take, if_pos hi, List.getElem?_drop, List.getD_eq_getElem?_getD]

/-- R131: the low `w` bits of a byte, most significant first. -/
theorem beBits_low_getD (b : Byte) (w j : Nat) :
    (beBits w (b.toNat % 2 ^ w)).getD j false = if j < w then b.getLsbD (w - 1 - j) else false := by
  rw [beBits_mod, List.getD_eq_getElem?_getD]
  split
  · next h => rw [beBits_getElem? _ _ _ h, Option.getD_some, BitVec.testBit_toNat]
  · next h => rw [List.getElem?_eq_none (by simpa using h), Option.getD_none]

/-- R328: a row width that passes LEN takes one byte of bits. -/
theorem bitBytes_rowWidth {s : State} (hp : Passes .substBit s) : bitBytes (rowWidth s.csr.param) = 1 := by
  obtain ⟨-, -, hlen, -⟩ := hp
  simp only [lenBad, decide_eq_false_iff_not] at hlen
  rw [bitBytes]
  omega

end Sys2Proof.Machine

namespace Sys2Proof.Proofs

open Sys2Proof Sys2Proof.Machine

/-- Settles O37: both kinds store `xorVec` of their operands, read element by element. -/
theorem xorCyclesSecondOperand : Obligations.XorCyclesSecondOperand := by
  intro s
  refine ⟨checksRuled (by decide) s, checksRuled (by decide) s, fun a b hp ha hb => ?_, fun a b hp ha hb => ?_⟩
  · have hst := stores_xor byteKind_lawful rfl (preXor_byte_eq s) hp ha hb
    rw [byteKind_unpack (readBytes_length ha), byteKind_unpack (readBytes_length hb)] at hst
    refine ⟨_, (xorVec_length _ _ _).trans (readBytes_length ha), fun i hi => ?_, hst⟩
    rw [xorVec_getD, readBytes_length ha, readBytes_length hb, if_pos hi]
    rfl
  · have hal := bitKind_lawful.unpack_length _ a (readBytes_length ha)
    have hbl := bitKind_lawful.unpack_length _ b (readBytes_length hb)
    refine ⟨_, bitKind_pack_length ((xorVec_length _ _ _).trans hal), fun i _ => ?_,
      stores_xor bitKind_lawful rfl (preXor_bit_eq s) hp ha hb⟩
    rw [vecBit_bitKind_pack, xorVec_getD, hal, hbl]
    refine if_ctx_congr Iff.rfl (fun hi => ?_) fun _ => rfl
    have hm : 0 < s.csr.auxLen.toNat := by
      obtain ⟨-, -, hlen, -⟩ := hp
      simp only [lenBad, decide_eq_false_iff_not] at hlen
      omega
    rw [bitKind_unpack_getD_lt a hi]
    exact congrArg _ (bitKind_unpack_getD_lt b (Nat.mod_lt _ hm))

/-- Settles O38: both kinds store `permVec` of their operand and the index list. -/
theorem permGathersByIndex : Obligations.PermGathersByIndex := by
  intro s
  refine ⟨checksRuled (by decide) s, checksRuled (by decide) s, fun ix hix => ⟨fun v hp hv => ?_, fun v hp hv => ?_⟩⟩
  · have hm := indexList_length (readBytes_length hix)
    have hst := stores_perm rfl (prePerm_byte_eq s) hp hv hix
    rw [byteKind_unpack (readBytes_length hv)] at hst
    refine ⟨_, (permVec_length _ _ _).trans hm, fun i hi => ?_, hst⟩
    refine (permVec_getD _ _ _ _).trans ?_
    rw [hm, if_pos hi, indexList_getD (readBytes_length hix) hi]
    split
    · rfl
    · next h => exact List.getD_eq_default _ _ (by rw [readBytes_length hv]; omega)
  · have hm := indexList_length (readBytes_length hix)
    refine ⟨_, bitKind_pack_length ((permVec_length _ _ _).trans hm), fun i _ => ?_,
      stores_perm rfl (prePerm_bit_eq s) hp hv hix⟩
    rw [vecBit_bitKind_pack]
    refine (permVec_getD _ _ false _).trans ?_
    by_cases hi : i < s.csr.auxLen.toNat
    · rw [hm, if_pos hi, indexList_getD (readBytes_length hix) hi]
      simpa only [hi, true_and] using bitKind_unpack_getD _ _ _
    · rw [hm, if_neg hi, if_neg fun h => hi h.1]

/-- Settles O39: the index check decides, and the row stored is read element by element. -/
theorem substPicksTableRow : Obligations.SubstPicksTableRow := by
  intro s
  refine ⟨checksRuled (by decide) s, checksRuled (by decide) s, fun v tab hp hv ht => ?_, fun v tab hp hv ht => ?_⟩
  · have he := substB_of_reads hp hv ht
    refine ⟨failsWith_len he, fun hj => ?_⟩
    have hl := row_length (readBytes_length ht) hj
    exact ⟨_, hl, fun j hw => row_getD tab hw, stores_row he hj hl⟩
  · have he := substBit_of_reads hp hv ht
    refine ⟨failsWith_len he, fun hj => ⟨_, ?_, fun j _ => ?_, stores_row he hj (beBits_length _ _)⟩⟩
    · exact (bitKind_pack_length (beBits_length _ _)).trans (bitBytes_rowWidth hp)
    · exact (vecBit_bitKind_pack _ _).trans (beBits_low_getD _ _ _)

/-- Settles O40: both kinds store `alignVec` of their operand and fill. -/
theorem alignCutsOrFills : Obligations.AlignCutsOrFills := by
  intro s
  refine ⟨checksRuled (by decide) s, checksRuled (by decide) s, fun v hp hv => ?_, fun v hp hv => ?_⟩
  · have hst := stores_align rfl (preAlign_byte_eq s) hp hv
    rw [byteKind_unpack (readBytes_length hv)] at hst
    refine ⟨_, alignVec_length _ _ _, fun i hi => ?_, hst⟩
    rw [alignVec_getD, readBytes_length hv, if_neg (Nat.not_le.mpr hi)]
    rfl
  · have hl := bitKind_lawful.unpack_length _ v (readBytes_length hv)
    refine ⟨_, bitKind_pack_length (alignVec_length _ _ _), fun i _ => ?_,
      stores_align rfl (preAlign_bit_eq s) hp hv⟩
    rw [vecBit_bitKind_pack, alignVec_getD, hl]
    exact if_ctx_congr Iff.rfl (fun _ => rfl) fun _ =>
      if_ctx_congr Iff.rfl (fun _ => bitKind_unpack_getD_lt v (by omega)) fun _ =>
      if_ctx_congr Iff.rfl (fun _ => rfl) fun _ => bitKind_unpack_getD_lt v (by omega)

/-- Settles O41: `incVec` is one more modulo its length's digits, and packing keeps the integer. -/
theorem incAddsOne : Obligations.IncAddsOne := by
  intro s
  refine ⟨checksRuled (by decide) s, checksRuled (by decide) s, fun v hp hv => ?_, fun v hp hv => ?_⟩
  · have hst := stores_inc byteKind_lawful (incVec_length _) rfl (preInc_byte_eq (.inl rfl) s) hp hv
    rw [byteKind_unpack (readBytes_length hv)] at hst
    refine ⟨_, (incVec_length _ _).trans (readBytes_length hv), ?_, hst⟩
    rw [← readBytes_length hv, Nat.pow_mul]
    exact kindInt_incVec byteKind_digits v
  · have hl := bitKind_lawful.unpack_length _ v (readBytes_length hv)
    have hout := (incVec_length bitKind _).trans hl
    refine ⟨_, bitKind_pack_length hout, ?_, fun i _ hi => ?_,
      stores_inc bitKind_lawful (incVec_length _) rfl (preInc_bit_eq (.inl rfl) s) hp hv⟩
    · rw [vecInt_bitKind_pack hout, kindInt_incVec bitKind_digits, hl, kindInt_unpack_bit v _ (readBytes_length hv)]
      rfl
    · rw [vecBit_bitKind_pack, List.getD_eq_default _ _ (hout.trans_le hi)]

/-- Settles O42: `inc32Vec` keeps what is before its last 32 bits and increments those. -/
theorem inc32AddsToLastWord : Obligations.Inc32AddsToLastWord := by
  intro s
  refine ⟨checksRuled (by decide) s, checksRuled (by decide) s, fun v hp hv => ?_, fun v hp hv => ?_⟩
  · have hst := stores_inc byteKind_lawful (inc32Vec_length _) rfl (preInc_byte_eq (.inr rfl) s) hp hv
    rw [byteKind_unpack (readBytes_length hv)] at hst
    refine ⟨_, (inc32Vec_length _ _).trans (readBytes_length hv), ?_, ?_, hst⟩
    · rw [← readBytes_length hv]
      exact inc32Vec_take (k := byteKind) v
    · rw [← readBytes_length hv, Nat.pow_mul]
      exact kindInt_inc32Vec_drop byteKind_digits v
  · have hl := bitKind_lawful.unpack_length _ v (readBytes_length hv)
    have hout := (inc32Vec_length bitKind _).trans hl
    refine ⟨_, bitKind_pack_length hout, fun i hi => ?_, ?_, fun i _ hi => ?_,
      stores_inc bitKind_lawful (inc32Vec_length _) rfl (preInc_bit_eq (.inr rfl) s) hp hv⟩
    · rw [vecBit_bitKind_pack, inc32Vec_getD _ (hl.symm ▸ hi), bitKind_unpack_getD_lt v (by omega)]
    · rw [vecInt_bitKind_pack hout, ← kindInt_unpack_bit v _ (readBytes_length hv)]
      have := kindInt_inc32Vec_mod bitKind_digits (bitKind.unpack s.csr.srcLen.toNat v)
      rwa [hl] at this
    · rw [vecBit_bitKind_pack, List.getD_eq_default _ _ (hout.trans_le hi)]

end Sys2Proof.Proofs
end

section
/-! PROOFS. The statements about the DES and triple-DES engine (41_des_engine.md): the block transforms and their
inverses, the key schedule and its fused form, and what LOAD_KEY and BLOCK make of them. -/

namespace Sys2Proof.Machine

/-! ### Permutations -/

/-- R160: a permutation of a permuted vector is one by the permuted positions. -/
theorem permVec_permVec {α : Type} {z : α} {v : List α} {a b : List Nat} (h : ∀ i ∈ b, i < a.length) :
    permVec z (permVec z v a) b = permVec z v (permVec 0 a b) := by
  simp only [permVec, List.map_map]
  exact List.map_congr_left fun i hi => by simp [h i hi]

/-- Consecutive positions pick out a piece of the vector. -/
theorem permVec_range_add {α : Type} (z : α) {v : List α} {m n : Nat} (h : m + n ≤ v.length) :
    permVec z v ((List.range n).map (m + ·)) = (v.drop m).take n := by
  refine List.ext_getElem (by simp; omega) fun i hi _ => ?_
  have hi : m + i < v.length := by
    rw [permVec_length, List.length_map, List.length_range] at hi
    omega
  simp [permVec, hi]

theorem permVec_range {α : Type} (z : α) {v : List α} {n : Nat} (h : n ≤ v.length) :
    permVec z v (List.range n) = v.take n := by
  simpa using permVec_range_add z (m := 0) (by simpa using h)

/-- Two tables that are each other's inverse as lists of positions undo each other. -/
theorem permTable_permTable {v : Bits} {s t : List Nat} (hv : v.length = t.length)
    (hfit : ∀ i ∈ t.map (fun j => j - 1), i < s.length)
    (hinv : permVec 0 (s.map fun j => j - 1) (t.map fun j => j - 1) = List.range t.length) :
    permTable (permTable v s) t = v := by
  rw [permTable, permTable, permVec_permVec (by simpa using hfit), hinv, permVec_range _ hv.ge, ← hv,
    List.take_length]

/-- R161, R162: the final permutation undoes the initial one. -/
theorem permTable_IP_FP {v : Bits} (h : v.length = 64) : permTable (permTable v tableIP) tableFP = v :=
  permTable_permTable h (by decide) (by decide)

theorem permTable_FP_IP {v : Bits} (h : v.length = 64) : permTable (permTable v tableFP) tableIP = v :=
  permTable_permTable h (by decide) (by decide)

/-! ### The block transform and its inverse -/

/-- A round on the swapped halves undoes that round (R175). -/
theorem feistelRound_swap (lr : Bits × Bits) (k : SubKey) :
    feistelRound (feistelRound lr k).swap k = lr.swap := by
  simp only [feistelRound, Prod.swap, xorBits_xorBits]

/-- The rounds in reverse order on the swapped halves undo the rounds. -/
theorem foldl_feistelRound_reverse (ks : List SubKey) (lr : Bits × Bits) :
    ks.reverse.foldl feistelRound (ks.foldl feistelRound lr).swap = lr.swap := by
  induction ks generalizing lr with
  | nil => rfl
  | cons k ks ih =>
    rw [List.foldl_cons, List.reverse_cons, List.foldl_append, ih]
    exact feistelRound_swap lr k

/-- Both halves keep their 32 bits. -/
theorem foldl_feistelRound_length (ks : List SubKey) {lr : Bits × Bits} (h : lr.1.length = 32 ∧ lr.2.length = 32) :
    (ks.foldl feistelRound lr).1.length = 32 ∧ (ks.foldl feistelRound lr).2.length = 32 := by
  induction ks generalizing lr with
  | nil => exact h
  | cons k ks ih => exact ih ⟨h.2, by simpa [feistelRound] using h.1⟩

/-- Packing whole bytes of bits loses nothing. -/
theorem bits_bytes {v : Bits} (h : v.length % 8 = 0) : bits (bytes v) = v := by
  have hlen : (bits (bytes v)).length = v.length := by
    rw [bits_length, bytes_length]
    omega
  rw [← List.take_length (l := bits (bytes v)), hlen, take_bits_bytes]

/-- R175: the subkeys in reverse order undo the block transform. -/
theorem desBlock_reverse {x : Bytes} (hx : x.length = 8) (ks : List SubKey) :
    desBlock (desBlock x ks) ks.reverse = x := by
  generalize hb : permTable (bits x) tableIP = b
  have hlen : b.length = 64 := hb ▸ permTable_length _ _
  have hrounds := foldl_feistelRound_reverse ks (b.take 32, b.drop 32)
  obtain ⟨hl, hr⟩ := foldl_feistelRound_length ks (lr := (b.take 32, b.drop 32)) (by simp [hlen])
  simp only [desBlock, hb]
  generalize List.foldl feistelRound (b.take 32, b.drop 32) ks = lr at hrounds hl hr ⊢
  have hswap : ((lr.2 ++ lr.1).take 32, (lr.2 ++ lr.1).drop 32) = lr.swap := by
    rw [List.take_left' hr, List.drop_left' hr]
    rfl
  rw [bits_bytes (by rw [permTable_length]; decide), permTable_FP_IP (by simp [hl, hr]), hswap, hrounds, Prod.swap,
    List.take_append_drop, ← hb, permTable_IP_FP (by simp [hx]), bytes_bits]

section inverses
variable {x : Bytes}

theorem desD_desE (sk : Schedule) (h : x.length = 8) : desD sk (desE sk x) = x := desBlock_reverse h sk.toList

theorem desE_desD (sk : Schedule) (h : x.length = 8) : desE sk (desD sk x) = x := by
  have hrev := desBlock_reverse h sk.toList.reverse
  rwa [List.reverse_reverse] at hrev

/-- R178. -/
theorem tdesD_tdesE (k : KeyStore) (h : x.length = 8) : tdesD k (tdesE k x) = x := by
  rw [tdesD, tdesE, desD_desE _ (desD_length _ _), desE_desD _ (desE_length _ _), desD_desE _ h]

theorem tdesE_tdesD (k : KeyStore) (h : x.length = 8) : tdesE k (tdesD k x) = x := by
  rw [tdesD, tdesE, desE_desD _ (desE_length _ _), desD_desE _ (desD_length _ _), desE_desD _ h]

theorem extInv_extF (h : x.length = 16) : extInv (extF x) = x := by
  rw [extInv, extF, blockOf_bytesOf, Equiv.symm_apply_apply, bytesOf_blockOf h]

/-- R179: Tinv undoes T on a whole block, whatever CTRL.ALG selects. -/
theorem blockTinv_blockT (s : State) (h : x.length = blockSize (algOf s.csr.ctrl)) :
    blockTinv s (blockT s x) = x := by
  unfold blockTinv blockT
  generalize algOf s.csr.ctrl = a at h ⊢
  cases a with
  | des => exact desD_desE _ h
  | tdes => exact tdesD_tdesE _ h
  | ext128 => exact extInv_extF h
  | reserved => rfl

end inverses

/-! ### The key schedule -/

/-- R170: rotation by at most the length is the list's. -/
theorem rotl_eq_rotate {v : Bits} {n : Nat} (h : n ≤ v.length) : rotl v n = v.rotate n :=
  (List.rotate_eq_drop_append_take h).symm

/-- Round `r` of R170 works on the halves rotated by the sum of the amounts so far. -/
theorem roundKeys_getElem? {shifts : List Nat} {c d : Bits} (hc : ∀ n ∈ shifts, n ≤ c.length)
    (hd : ∀ n ∈ shifts, n ≤ d.length) {r : Nat} (hr : r < shifts.length) :
    (roundKeys shifts c d)[r]? = some (BitVec.ofNat 48 (beIntBits (permTable
      (c.rotate (shifts.take (r + 1)).sum ++ d.rotate (shifts.take (r + 1)).sum) tablePC2))) := by
  induction shifts generalizing c d r with
  | nil => cases hr
  | cons n shifts ih =>
    rw [roundKeys, rotl_eq_rotate (hc n (by simp)), rotl_eq_rotate (hd n (by simp))]
    cases r with
    | zero => simp
    | succ r =>
      have hc' : ∀ m ∈ shifts, m ≤ (c.rotate n).length := fun m hm => by simpa using hc m (.tail n hm)
      have hd' : ∀ m ∈ shifts, m ≤ (d.rotate n).length := fun m hm => by simpa using hd m (.tail n hm)
      rw [List.getElem?_cons_succ, ih hc' hd' (by simpa using hr)]
      simp only [List.rotate_rotate, List.take_succ_cons, List.sum_cons]

/-- A subkey of the schedule, from PC1's output (R170). -/
theorem schedule_getElem (k : Bytes) (r : Fin 16) :
    (schedule k)[r] = BitVec.ofNat 48 (beIntBits (permTable
      (((permTable (bits k) tablePC1).take 28).rotate (shiftSum r) ++
        ((permTable (bits k) tablePC1).drop 28).rotate (shiftSum r)) tablePC2)) := by
  have hlen : (permTable (bits k) tablePC1).length = 56 := permTable_length _ _
  have hshift : ∀ n ∈ keyShifts, n ≤ 28 := by decide
  have hkey := roundKeys_getElem? (shifts := keyShifts) (c := (permTable (bits k) tablePC1).take 28)
    (d := (permTable (bits k) tablePC1).drop 28) (by simpa [hlen] using hshift) (by simpa [hlen] using hshift) r.isLt
  simp [schedule, hkey, shiftSum]

/-- R171: where round r + 1 finds its two halves in PC1's output. -/
theorem fusedPositions_eq (r : Nat) :
    fusedPositions r = (List.range 28).rotate (shiftSum r) ++ ((List.range 28).rotate (shiftSum r)).map (28 + ·) := by
  rw [fusedPositions, List.rotate_eq_drop_append_take_mod, List.length_range]

@[simp] theorem fusedPositions_length (r : Nat) : (fusedPositions r).length = 56 := by simp [fusedPositions_eq]

theorem fusedPositions_lt {r i : Nat} (h : i ∈ fusedPositions r) : i < 56 := by
  simp only [fusedPositions_eq, List.mem_append, List.mem_map, List.mem_rotate, List.mem_range] at h
  omega

theorem permVec_fusedPositions {cd : Bits} (h : cd.length = 56) (r : Nat) :
    permVec false cd (fusedPositions r) =
      (cd.take 28).rotate (shiftSum r) ++ (cd.drop 28).rotate (shiftSum r) := by
  have hc : permVec false cd (List.range 28) = cd.take 28 := permVec_range false (by omega)
  have hd : permVec false cd ((List.range 28).map (28 + ·)) = cd.drop 28 := by
    rw [permVec_range_add false (by omega), List.take_of_length_le (by simp [h])]
  rw [fusedPositions_eq, ← hc, ← hd]
  simp only [permVec, List.map_append, List.map_rotate]

/-- R171: the fused table is the composition of PC1, the rotated positions and PC2. -/
theorem fusedTable_eq (r : Nat) :
    fusedTable r =
      permVec 0 (tablePC1.map fun j => j - 1) (permVec 0 (fusedPositions r) (tablePC2.map fun j => j - 1)) := by
  simp only [fusedTable, permVec, List.map_map]
  refine List.map_congr_left fun j _ => ?_
  exact (List.getD_map tablePC1 0 fun j => j - 1).symm

theorem permVec_fusedTable (v : Bits) (r : Nat) :
    permVec false v (fusedTable r) =
      permTable (permVec false (permTable v tablePC1) (fusedPositions r)) tablePC2 := by
  have hpc2 : ∀ i ∈ tablePC2.map (fun j => j - 1), i < 56 := by decide
  have hpos : ∀ i ∈ permVec 0 (fusedPositions r) (tablePC2.map fun j => j - 1), i < 56 := by
    simp only [permVec, List.mem_map]
    rintro _ ⟨j, hj, rfl⟩
    have hj : j < (fusedPositions r).length := by simpa using hpc2 j (by simpa using hj)
    rw [List.getD_eq_getElem _ _ hj]
    exact fusedPositions_lt (List.getElem_mem hj)
  rw [fusedTable_eq, ← permVec_permVec (by simpa [tablePC1] using hpos), ← permVec_permVec (by simpa using hpc2)]
  rfl

/-- R172: the bits PC1 selects do not hold a byte's least significant one. -/
theorem permTable_PC1_congr {k k' : Bytes} (h : ∀ j < 8, k.getD j 0 >>> 1 = k'.getD j 0 >>> 1) :
    permTable (bits k) tablePC1 = permTable (bits k') tablePC1 := by
  have hpc1 : ∀ i ∈ tablePC1.map (fun j => j - 1), i / 8 < 8 ∧ i % 8 < 7 := by decide
  rw [permTable, permTable, permVec, permVec]
  refine List.map_congr_left fun i hi => ?_
  obtain ⟨hbyte, hbit⟩ := hpc1 i hi
  rw [← vecBit_eq_getD_bits, ← vecBit_eq_getD_bits, vecBit, vecBit]
  have hshift : ∀ b : Byte, b.getMsbD (i % 8) = (b >>> 1).getLsbD (6 - i % 8) := by
    intro b
    rw [BitVec.getLsbD_ushiftRight, BitVec.getMsbD]
    simp only [show i % 8 < 8 by omega, decide_true, Bool.true_and]
    congr 1
    omega
  rw [hshift, hshift, h _ hbyte]

/-! ### CTRL.ALG -/

theorem algOf_des {ctrl : Word} (h : ctrl.extractLsb' 0 2 = 0) : algOf ctrl = .des := by simp [algOf, h]

theorem algOf_tdes {ctrl : Word} (h : ctrl.extractLsb' 0 2 = 1) : algOf ctrl = .tdes := by simp [algOf, h]

theorem algOf_ext128 {ctrl : Word} (h : ctrl.extractLsb' 0 2 = 2) : algOf ctrl = .ext128 := by simp [algOf, h]

/-! ### LOAD_KEY -/

/-- R176: two keys. -/
theorem tdesKeys_two {k : Bytes} (h : k.length = 16) : tdesKeys k = (k.take 8, k.drop 8, k.take 8) := if_pos h

/-- R176: three keys. -/
theorem tdesKeys_three {k : Bytes} (h : k.length ≠ 16) :
    tdesKeys k = ((alignVec k 24 0).take 8, ((alignVec k 24 0).drop 8).take 8, (alignVec k 24 0).drop 16) := if_neg h

/-- LOAD_KEY, its checks passed and its key read: the key store alone changes (R182). -/
theorem loadKey_of_read {s : State} (hp : Passes .loadKey s) {k : Bytes}
    (hk : readBytes s.dmem s.csr.keyPtr.toNat s.csr.keyLen.toNat = some k) :
    exec .loadKey s = .next (complete { success with keys := some (loadedKeys s.csr.ctrl k) } s) := by
  have hread : readRange s (keyRange s.csr) = .ok k := readRange_eq_ok.mpr hk
  change finish s (preLoadKey s >>= fun _ => readRange s (keyRange s.csr) >>= fun k => _) = _
  rw [preLoadKey_of_passes hp, hread]
  rfl

theorem loadedKeys_des {ctrl : Word} (h : algOf ctrl = .des) (k : Bytes) :
    loadedKeys ctrl k =
      { sk1 := schedule (alignVec k 8 0), sk2 := Vector.replicate 16 0, sk3 := Vector.replicate 16 0,
        kvalid := true, kalg := algCode ctrl } := by simp [loadedKeys, h]

theorem loadedKeys_tdes {ctrl : Word} (h : algOf ctrl = .tdes) (k : Bytes) :
    loadedKeys ctrl k =
      { sk1 := schedule (tdesKeys k).1, sk2 := schedule (tdesKeys k).2.1, sk3 := schedule (tdesKeys k).2.2,
        kvalid := true, kalg := algCode ctrl } := by simp [loadedKeys, h]

theorem loadedKeys_kvalid (ctrl : Word) (k : Bytes) : (loadedKeys ctrl k).kvalid = true := by
  unfold loadedKeys
  split <;> rfl

/-! ### BLOCK -/

section block
variable {i : Instr} {s : State}

theorem isBlock_iff : isBlock i = true ↔ i = .blockF ∨ i = .blockI := by simp [isBlock]

/-- R183: a SRC_LEN that passes LEN is one block. -/
theorem srcLen_of_passes_block (hb : isBlock i = true) (hp : Passes i s) :
    s.csr.srcLen.toNat = blockSize (algOf s.csr.ctrl) := by
  obtain ⟨-, -, hlen, -⟩ := hp
  rcases isBlock_iff.mp hb with rfl | rfl <;> simpa [lenBad] using hlen

theorem alg_ne_reserved_of_passes_block (hb : isBlock i = true) (hp : Passes i s) : algOf s.csr.ctrl ≠ .reserved := by
  obtain ⟨hc, -⟩ := hp
  exact alg_ne_reserved (by simpa [configBad_block hb] using hc)

/-- R183, R184: BLOCK, its checks passed and its block read, stages the transform's answer. -/
theorem block_of_read {t : Bytes → Bytes} (hi : exec i s = execBlock t s) (hb : isBlock i = true) (hp : Passes i s)
    {x : Bytes} (hx : readBytes s.dmem s.csr.srcPtr.toNat s.csr.srcLen.toNat = some x) :
    exec i s = .next (complete (result s (t x) (blockSize (algOf s.csr.ctrl))) s) := by
  have hd : (destOf i s).len = blockSize (algOf s.csr.ctrl) := by
    rcases isBlock_iff.mp hb with rfl | rfl <;> rfl
  have hread : readRange s (srcRange s.csr (blockSize (algOf s.csr.ctrl))) = .ok x :=
    readRange_eq_ok.mpr (srcLen_of_passes_block hb hp ▸ hx)
  rw [exec_of_passes hi (preBlock_eq hb s) hp, hd, hread]
  rfl

theorem stores_block {t : Bytes → Bytes} (hi : exec i s = execBlock t s) (hb : isBlock i = true) (hp : Passes i s)
    {x : Bytes} (hx : readBytes s.dmem s.csr.srcPtr.toNat s.csr.srcLen.toNat = some x) :
    Stores i s (t x) (blockSize (algOf s.csr.ctrl)) := stores_result (block_of_read hi hb hp hx)

/-- With SRC_PTR at the block BLOCK.F wrote, the checks of BLOCK.I pass as those of BLOCK.F did. -/
theorem passes_blockI_at_result {u : State} (hp : Passes .blockF s) (hcfg : u.cfg = s.cfg) (hkeys : u.keys = s.keys)
    (hcsr : u.csr = { s.csr with srcPtr := s.csr.dstPtr }) : Passes .blockI u := by
  obtain ⟨hc, hk, hl, ⟨hfit, -⟩, -, -⟩ := hp
  have hdest : destOf .blockI u = destOf .blockF s := by simp only [destOf, hcsr]
  have hin : inputsOf .blockI u = [(destOf .blockF s, .inPlace)] := by simp only [inputsOf, destOf, hcsr]
  refine ⟨?_, ?_, ?_, ?_, ?_, rfl⟩
  · rw [configBad_block rfl] at hc ⊢
    simpa only [cipherConfigOk, hcfg, hcsr] using hc
  · rw [keyBad_eq (.inl rfl)] at hk ⊢
    simpa only [keyOk, hkeys, hcsr] using hk
  · simpa only [lenBad, hcsr] using hl
  · simpa [Fits, AllFit, hdest, hin, hcfg] using hfit
  · simp [NoOverlap, MayWrite, hdest, hin]

/-- There BLOCK.I stores the block BLOCK.F transformed. -/
theorem stores_blockI_at_result {u : State} (hp : Passes .blockF s) (hcfg : u.cfg = s.cfg) (hkeys : u.keys = s.keys)
    (hcsr : u.csr = { s.csr with srcPtr := s.csr.dstPtr }) {x : Bytes} (hx : x.length = blockSize (algOf s.csr.ctrl))
    (hread : readBytes u.dmem u.csr.srcPtr.toNat u.csr.srcLen.toNat = some (blockT s x)) :
    Stores .blockI u x x.length := by
  have hst := stores_block (t := blockTinv u) rfl rfl (passes_blockI_at_result hp hcfg hkeys hcsr) hread
  have hinv : blockTinv u (blockT s x) = blockTinv s (blockT s x) := by simp only [blockTinv, hkeys, hcsr]
  have hctrl : u.csr.ctrl = s.csr.ctrl := by rw [hcsr]
  rwa [hinv, blockTinv_blockT s hx, hctrl, ← hx] at hst

end block

end Sys2Proof.Machine

namespace Sys2Proof.Proofs

open Sys2Proof Sys2Proof.Machine

/-- Settles O33: the Feistel rounds run backwards. -/
theorem desRoundTrip : Obligations.DesRoundTrip :=
  fun sk _ => ⟨rfl, rfl, fun h => ⟨desD_desE sk h, desE_desD sk h⟩⟩

/-- Settles O34, from the inverse pairs of single DES. -/
theorem tripleDesComposes : Obligations.TripleDesComposes := by
  refine ⟨fun k x => ⟨rfl, rfl, fun h => ⟨tdesD_tdesE k h, tdesE_tdesD k h⟩, fun h hk => ?_⟩, fun k hk => ?_⟩
  · rw [tdesE, hk, desD_desE _ h]
  · have halign : alignVec k 24 0 = List.replicate 8 0 ++ (List.replicate 8 0 ++ k) := by
      simp [alignVec, hk]
    rw [tdesKeys_three (by omega), halign]
    simp

/-- Settles O35: the fused positions give the rotated halves, and PC1, positions and PC2 compose. -/
theorem fusedScheduleAgrees : Obligations.FusedScheduleAgrees := by
  intro k r _
  rw [schedule_getElem, fusedKey, permVec_fusedTable, permVec_fusedPositions (permTable_length _ _)]

/-- Settles O36: the schedule reads the key through PC1 alone. -/
theorem parityBitsIgnored : Obligations.ParityBitsIgnored := by
  intro k k' _ _ h
  simp only [schedule, permTable_PC1_congr h]

/-- Settles O30: the checks, then the key store that `loadedKeys` gives for each algorithm. -/
theorem loadKeyBuildsSchedule : Obligations.LoadKeyBuildsSchedule := by
  intro s
  refine ⟨checksRuled (by decide) s, fun k hp hk => ⟨_, loadKey_of_read hp hk, completes_complete _ s, rfl, rfl,
    loadedKeys_kvalid _ _, fun ha => ?_, fun ha => ?_⟩⟩
  · simp [loadedKeys_des (algOf_des ha), ha, algCode]
  · simp only [complete_keys, Option.getD_some, loadedKeys_tdes (algOf_tdes ha)]
    exact ⟨ha, fun h => by simp [tdesKeys_two h], fun h => by simp [tdesKeys_three h]⟩

/-- Settles O31: BLOCK stores what the transform pair of CTRL.ALG answers. -/
theorem blockTransformsOneBlock : Obligations.BlockTransformsOneBlock := by
  intro s
  refine ⟨checksRuled (by decide) s, checksRuled (by decide) s, fun x hx => ⟨fun hp => ?_, fun hp => ?_⟩⟩
  · have hst := stores_block rfl rfl hp hx
    exact ⟨fun ha => by rw [blockT, algOf_des ha] at hst; exact hst,
      fun ha => by rw [blockT, algOf_tdes ha] at hst; exact hst,
      fun ha => by rw [blockT, algOf_ext128 ha] at hst; exact hst⟩
  · have hst := stores_block rfl rfl hp hx
    exact ⟨fun ha => by rw [blockTinv, algOf_des ha] at hst; exact hst,
      fun ha => by rw [blockTinv, algOf_tdes ha] at hst; exact hst,
      fun ha => by rw [blockTinv, algOf_ext128 ha] at hst; exact hst⟩

/-- Settles O32: BLOCK.I's checks pass at the result, and Tinv undoes T. -/
theorem blockInverseUndoesForward : Obligations.BlockInverseUndoesForward := by
  intro s t x hp hx ht
  cases (block_of_read rfl rfl hp hx).symm.trans ht
  have hlen := srcLen_of_passes_block rfl hp
  have hxl : x.length = blockSize (algOf s.csr.ctrl) := (readBytes_length hx).trans hlen
  have hread : readBytes (writeBytes s.dmem s.csr.dstPtr.toNat (blockT s x)) s.csr.dstPtr.toNat s.csr.srcLen.toNat =
      some (blockT s x) := by
    rw [hlen, ← blockT_length (alg_ne_reserved_of_passes_block rfl hp) x]
    exact readBytes_writeBytes_same _ _ _
  refine stores_blockI_at_result hp ?_ ?_ ?_ hxl hread <;> rfl

end Sys2Proof.Proofs
end

section
/-! PROOFS. The statements about the plain modes of RUN (42_modes.md): each block the sequencer writes, as its mode's
formula over the feedback register before it. -/

namespace Sys2Proof.Machine

/-! ### Blocks of a byte string -/

theorem chunks_eq_cons {α : Type} {n : Nat} (hn : 0 < n) {v : List α} (hv : 0 < v.length) :
    chunks n v = v.take n :: chunks n (v.drop n) := by
  refine List.ext_getElem? fun i => ?_
  cases i with
  | zero => simp [chunks_getElem? hn, hv]
  | succ i =>
    have hlt : n + i * n < v.length ↔ i * n < v.length - n := by omega
    simp [chunks_getElem? hn, hlt, Nat.succ_mul, Nat.add_comm]

@[simp] theorem nthBlock_zero (b : Nat) (v : Bytes) : nthBlock b v 0 = v.take b := by simp [nthBlock]

theorem nthBlock_succ (b : Nat) (v : Bytes) (j : Nat) : nthBlock b v (j + 1) = nthBlock b (v.drop b) j := by
  simp [nthBlock, Nat.succ_mul, Nat.add_comm]

/-! ### The block loop -/

section loop
variable {t tinv : Bytes → Bytes} {m : Mode} {d : Dir} {b : Nat} {fb v : Bytes}

/-- The lengths under which the loop cuts its output as it cuts its input: T and Tinv answer whole blocks, and ECB and
CBC meet no other (R210 step 4, R214). -/
structure BlocksFit (t tinv : Bytes → Bytes) (m : Mode) (b : Nat) (v : Bytes) : Prop where
  pos : 0 < b
  forward : ∀ x, (t x).length = b
  inverse : ∀ x, (tinv x).length = b
  whole : wholeBlocks m = true → ∀ x ∈ chunks b v, x.length = b

theorem BlocksFit.drop (h : BlocksFit t tinv m b v) (hv : 0 < v.length) : BlocksFit t tinv m b (v.drop b) where
  pos := h.pos
  forward := h.forward
  inverse := h.inverse
  whole hm x hx := h.whole hm x (by rw [chunks_eq_cons h.pos hv]; exact .tail _ hx)

theorem BlocksFit.step_length (h : BlocksFit t tinv m b v) (hv : 0 < v.length) :
    (modeStep t tinv m d fb (v.take b)).1.length = min b v.length := by
  rw [modeStep_length h.forward h.inverse m d fb _ fun hm =>
    h.whole hm _ (by rw [chunks_eq_cons h.pos hv]; exact .head _), List.length_take]

theorem modeBlocks_chunks (hb : 0 < b) (hv : 0 < v.length) :
    (modeBlocks t tinv m d fb (chunks b v)).1 = (modeStep t tinv m d fb (v.take b)).1 ++
      (modeBlocks t tinv m d (modeStep t tinv m d fb (v.take b)).2 (chunks b (v.drop b))).1 := by
  rw [chunks_eq_cons hb hv]
  rfl

theorem BlocksFit.output_zero (h : BlocksFit t tinv m b v) (hv : 0 < v.length) :
    nthBlock b (modeBlocks t tinv m d fb (chunks b v)).1 0 = (modeStep t tinv m d fb (nthBlock b v 0)).1 := by
  have hl := h.step_length (d := d) (fb := fb) hv
  simp only [nthBlock_zero, modeBlocks_chunks h.pos hv]
  by_cases hle : b ≤ v.length
  · exact List.take_left' (hl.trans (min_eq_left hle))
  · rw [List.drop_eq_nil_of_le (by omega)]
    simp [chunks, chunksUpTo, modeBlocks, hl]

theorem BlocksFit.output_succ (h : BlocksFit t tinv m b v) (hle : b ≤ v.length) (j : Nat) :
    nthBlock b (modeBlocks t tinv m d fb (chunks b v)).1 (j + 1) =
      nthBlock b (modeBlocks t tinv m d (modeStep t tinv m d fb (nthBlock b v 0)).2 (chunks b (v.drop b))).1 j := by
  have hv : 0 < v.length := h.pos.trans_le hle
  rw [modeBlocks_chunks h.pos hv, nthBlock_succ, nthBlock_zero,
    List.drop_left' ((h.step_length hv).trans (min_eq_left hle))]

/-- Block `j` of the output is the mode's step on block `j` of the input, a short last block included (R214). `f j` is
FB before block `j`; that it is so may be shown from the output blocks before, which CBC and CFB feed back. -/
theorem BlocksFit.output_eq_step (h : BlocksFit t tinv m b v) {f : Nat → Bytes}
    (hf : ∀ j, nthBlock b (modeBlocks t tinv m d (f 0) (chunks b v)).1 j =
        (modeStep t tinv m d (f j) (nthBlock b v j)).1 → f (j + 1) = (modeStep t tinv m d (f j) (nthBlock b v j)).2)
    {j : Nat} (hj : j * b < v.length) :
    nthBlock b (modeBlocks t tinv m d (f 0) (chunks b v)).1 j = (modeStep t tinv m d (f j) (nthBlock b v j)).1 := by
  induction j generalizing v f with
  | zero => exact h.output_zero (by omega)
  | succ j ih =>
    rw [Nat.succ_mul] at hj
    have hv : 0 < v.length := by omega
    have hout := h.output_succ (d := d) (fb := f 0) (by omega)
    rw [← hf 0 (h.output_zero hv)] at hout
    rw [hout, nthBlock_succ]
    refine ih (h.drop hv) (f := fun k => f (k + 1)) (fun k hk => ?_) (by rw [List.length_drop]; omega)
    rw [← nthBlock_succ] at hk ⊢
    exact hf (k + 1) ((hout k).trans hk)

end loop

/-! ### What a mode feeds back -/

/-- `F out j` is FB before block `j` of `v`, `out` the output: the seed, and then what the step answers. -/
structure FeedbackIs (t tinv : Bytes → Bytes) (m : Mode) (d : Dir) (b : Nat) (fb v : Bytes)
    (F : Bytes → Nat → Bytes) : Prop where
  seed : ∀ out, F out 0 = fb
  next : ∀ out j, nthBlock b out j = (modeStep t tinv m d (F out j) (nthBlock b v j)).1 →
    F out (j + 1) = (modeStep t tinv m d (F out j) (nthBlock b v j)).2

/-- The block of `v` before block `j`, the seed before the first. -/
def blockBefore (b : Nat) (seed v : Bytes) (j : Nat) : Bytes := if j = 0 then seed else nthBlock b v (j - 1)

section feedback
variable {t tinv : Bytes → Bytes} {d : Dir} {b : Nat} {fb v : Bytes}

/-- ECB has no feedback (R217, R218). -/
theorem feedbackIs_ecb : FeedbackIs t tinv .ecb d b fb v fun _ _ => fb where
  seed _ := rfl
  next _ _ _ := by cases d <;> rfl

/-- CBC and CFB encrypt feed the output block back (R219, R221). -/
theorem feedbackIs_output {m : Mode} (hm : m = .cbc ∨ m = .cfb) :
    FeedbackIs t tinv m .encrypt b fb v fun out => blockBefore b fb out where
  seed _ := rfl
  next _ _ h := by rcases hm with rfl | rfl <;> exact h

/-- CBC and CFB decrypt feed the input block back (R220, R222). -/
theorem feedbackIs_input {m : Mode} (hm : m = .cbc ∨ m = .cfb) :
    FeedbackIs t tinv m .decrypt b fb v fun _ => blockBefore b fb v where
  seed _ := rfl
  next _ _ _ := by rcases hm with rfl | rfl <;> rfl

/-- OFB iterates T (R223, R224). -/
theorem feedbackIs_ofb : FeedbackIs t tinv .ofb d b fb v fun _ j => t^[j] fb where
  seed _ := rfl
  next _ j _ := by cases d <;> exact Function.iterate_succ_apply' t j fb

/-- CTR counts in the low 32 bits (R225, R226). -/
theorem feedbackIs_ctr : FeedbackIs t tinv .ctr d b fb v fun _ j => (inc32Vec byteKind)^[j] fb where
  seed _ := rfl
  next _ j _ := by cases d <;> exact Function.iterate_succ_apply' _ j fb

end feedback

/-! ### RUN, its checks passed and its inputs read -/

/-- What the block loop runs over: an encrypt pads first (R210 step 5, R215). -/
def runMessage (d : Dir) (ctrl : Word) (p : Bytes) : Bytes :=
  match d with
  | .encrypt => padBytes (padCfg ctrl) p
  | .decrypt => p

section run
variable {i : Instr} {m : Mode} {d : Dir} {s : State} {fb p : Bytes}

theorem runEffect_staged (m : Mode) (d : Dir) (s : State) (fb p : Bytes) :
    (runEffect m d s fb p).staged = (modeBlocks (blockT s) (blockTinv s) m d fb
      (chunks (blockSize (algOf s.csr.ctrl)) (runMessage d s.csr.ctrl p))).1 := by
  cases d <;> simp only [runEffect, runMessage]
  · rfl
  · split <;> rfl

theorem runMessage_length (d : Dir) (ctrl : Word) (p : Bytes) :
    (runMessage d ctrl p).length = runExtent d ctrl p.length := by
  cases d
  · exact padBytes_length _ _
  · rfl

theorem checksRuled_run (hi : plainRun i = some (m, d)) (s : State) : ChecksRuled i s :=
  checksRuled (by constructor <;> (rintro rfl; cases hi)) s

theorem exec_run (hi : plainRun i = some (m, d)) (s : State) : exec i s = execRun m d s := by
  cases i <;> simp [plainRun] at hi <;> obtain ⟨rfl, rfl⟩ := hi <;> rfl

theorem seedFB_of_read (hm : m ≠ .ecb) {iv : Bytes}
    (hiv : readBytes s.dmem s.csr.ivPtr.toNat s.csr.ivLen.toNat = some iv) :
    seedFB m s = .ok (alignVec iv (blockSize (algOf s.csr.ctrl)) 0) := by
  have hr : readRange s (ivRange s.csr) = .ok iv := readRange_eq_ok.mpr hiv
  cases m with
  | ecb => exact absurd rfl hm
  | cbc | cfb | ofb | ctr => rw [seedFB, hr]; rfl

section passed
variable (hi : plainRun i = some (m, d)) (hp : Passes i s)
  (hread : readBytes s.dmem s.csr.srcPtr.toNat s.csr.srcLen.toNat = some p)
include hi hp hread

theorem run_of_reads (hfb : seedFB m s = .ok fb) : exec i s = .next (complete (runEffect m d s fb p) s) := by
  have hr : readRange s (srcRange s.csr s.csr.srcLen.toNat) = .ok p := readRange_eq_ok.mpr hread
  rw [exec_of_passes (exec_run hi s) (preRun_eq hi s) hp, hfb, hr]
  rfl

theorem preRun_of_passes : cipherConfigOk s = true ∧ alignOk m d s.csr.ctrl p.length = true := by
  obtain ⟨-, hc, -, -, -, ha⟩ := preRun_eq_ok.mp ((preRun_eq hi s).trans (checks_pass hp))
  exact ⟨hc, readBytes_length hread ▸ ha⟩

theorem runEffect_length : (runEffect m d s fb p).staged.length = (runMessage d s.csr.ctrl p).length := by
  obtain ⟨hc, ha⟩ := preRun_of_passes hi hp hread
  rw [runEffect_staged_length hc ha, runMessage_length]

theorem blocksFit_run : BlocksFit (blockT s) (blockTinv s) m (blockSize (algOf s.csr.ctrl))
    (runMessage d s.csr.ctrl p) := by
  obtain ⟨hc, ha⟩ := preRun_of_passes hi hp hread
  have hr := alg_ne_reserved hc
  have hb := blockSize_pos (algOf s.csr.ctrl)
  exact ⟨hb, blockT_length hr, blockTinv_length hr, fun hm x hx =>
    length_of_mem_chunks hb (by rw [runMessage_length]; exact alignOk_whole ha hm) hx⟩

theorem nthBlock_runEffect {F : Bytes → Nat → Bytes}
    (hF : FeedbackIs (blockT s) (blockTinv s) m d (blockSize (algOf s.csr.ctrl)) fb (runMessage d s.csr.ctrl p) F)
    {j : Nat} (hj : j * blockSize (algOf s.csr.ctrl) < (runMessage d s.csr.ctrl p).length) :
    nthBlock (blockSize (algOf s.csr.ctrl)) (runEffect m d s fb p).staged j =
      (modeStep (blockT s) (blockTinv s) m d (F (runEffect m d s fb p).staged j)
        (nthBlock (blockSize (algOf s.csr.ctrl)) (runMessage d s.csr.ctrl p) j)).1 := by
  have hstep := (blocksFit_run hi hp hread).output_eq_step (d := d) (j := j)
    (f := F (runEffect m d s fb p).staged)
  rw [hF.seed, ← runEffect_staged] at hstep
  exact hstep (hF.next _) hj

end passed

/-- A RUN encrypt of `p` that passes its checks: the result is as long as the padded message, and each of its blocks is
the mode's step. -/
theorem encrypt_blocks (hi : plainRun i = some (m, .encrypt)) (hp : Passes i s)
    (hread : readBytes s.dmem s.csr.srcPtr.toNat s.csr.srcLen.toNat = some p) (hfb : seedFB m s = .ok fb)
    {F : Bytes → Nat → Bytes} (hF : FeedbackIs (blockT s) (blockTinv s) m .encrypt (blockSize (algOf s.csr.ctrl)) fb
      (padBytes (padCfg s.csr.ctrl) p) F) :
    ∃ out : Bytes, out.length = (padBytes (padCfg s.csr.ctrl) p).length ∧ Stores i s out out.length ∧
      ∀ j, j * blockSize (algOf s.csr.ctrl) < (padBytes (padCfg s.csr.ctrl) p).length →
        nthBlock (blockSize (algOf s.csr.ctrl)) out j = (modeStep (blockT s) (blockTinv s) m .encrypt (F out j)
          (nthBlock (blockSize (algOf s.csr.ctrl)) (padBytes (padCfg s.csr.ctrl) p) j)).1 :=
  ⟨(runEffect m .encrypt s fb p).staged, runEffect_length hi hp hread,
    storesWith_of_complete (run_of_reads hi hp hread hfb) rfl (.inr rfl),
    fun _ hj => nthBlock_runEffect hi hp hread hF hj⟩

theorem runEffect_of_unpads {r : Bytes}
    (h : unpadBytes (padCfg s.csr.ctrl) (runEffect m .decrypt s fb p).staged = some r) :
    (runEffect m .decrypt s fb p).code = .ok ∧ (runEffect m .decrypt s fb p).outLen = r.length := by
  rw [runEffect_staged] at h
  simp only [runMessage] at h
  simp only [runEffect, h]
  exact ⟨rfl, trivial⟩

theorem runEffect_of_malformed
    (h : unpadBytes (padCfg s.csr.ctrl) (runEffect m .decrypt s fb p).staged = none) :
    (runEffect m .decrypt s fb p).code = .pad := by
  rw [runEffect_staged] at h
  simp only [runMessage] at h
  simp only [runEffect, h]

/-- How a RUN decrypt ends that wrote `out` (R215, R216, R332). -/
def DecryptEnds (i : Instr) (s : State) (out : Bytes) : Prop :=
  match unpadBytes (padCfg s.csr.ctrl) out with
  | some r => Stores i s out r.length
  | none => StoresWith i s out .pad 0

theorem decryptEnds_run (hi : plainRun i = some (m, .decrypt)) (hp : Passes i s)
    (hread : readBytes s.dmem s.csr.srcPtr.toNat s.csr.srcLen.toNat = some p) (hfb : seedFB m s = .ok fb) :
    DecryptEnds i s (runEffect m .decrypt s fb p).staged := by
  have hst := storesWith_of_complete (run_of_reads hi hp hread hfb) (runEffect_keys _ _ _ _ _)
    (.inr (runEffect_dst _ _ _ _ _))
  rw [DecryptEnds]
  split
  · next r h =>
    obtain ⟨hc, hl⟩ := runEffect_of_unpads h
    simpa [hc, hl] using hst
  · next h =>
    simpa [runEffect_of_malformed h] using hst

/-- A RUN decrypt of `p` that passes its checks: the stream is as long as `p`, each of its blocks is the mode's step,
and the padding decides the end. -/
theorem decrypt_blocks (hi : plainRun i = some (m, .decrypt)) (hp : Passes i s)
    (hread : readBytes s.dmem s.csr.srcPtr.toNat s.csr.srcLen.toNat = some p) (hfb : seedFB m s = .ok fb)
    {F : Bytes → Nat → Bytes}
    (hF : FeedbackIs (blockT s) (blockTinv s) m .decrypt (blockSize (algOf s.csr.ctrl)) fb p F) :
    ∃ out : Bytes, (out.length = p.length ∧ DecryptEnds i s out) ∧
      ∀ j, j * blockSize (algOf s.csr.ctrl) < p.length →
        nthBlock (blockSize (algOf s.csr.ctrl)) out j = (modeStep (blockT s) (blockTinv s) m .decrypt (F out j)
          (nthBlock (blockSize (algOf s.csr.ctrl)) p j)).1 :=
  ⟨(runEffect m .decrypt s fb p).staged, ⟨runEffect_length hi hp hread, decryptEnds_run hi hp hread hfb⟩,
    fun _ hj => nthBlock_runEffect hi hp hread hF hj⟩

end run

end Sys2Proof.Machine

namespace Sys2Proof.Proofs

open Sys2Proof Sys2Proof.Machine

/-- Settles O43: each block is its mode's step on FB, which is the seed, the output block before, or T or INC32
iterated. -/
theorem runEncrypt : Obligations.RunEncrypt := by
  intro s
  refine ⟨fun i m hi => checksRuled_run hi s, fun p hread =>
    ⟨fun hp => encrypt_blocks rfl hp hread rfl feedbackIs_ecb, fun iv hiv => ?_⟩⟩
  have hseed {m : Mode} (hm : m ≠ .ecb) := seedFB_of_read hm hiv
  refine ⟨fun hp => ?_, fun hp => ?_, fun hp => ?_, fun hp => ?_⟩
  · exact encrypt_blocks rfl hp hread (hseed (by decide)) (feedbackIs_output (.inl rfl))
  · exact encrypt_blocks rfl hp hread (hseed (by decide)) (feedbackIs_output (.inr rfl))
  · simp only [Function.iterate_succ_apply']
    exact encrypt_blocks rfl hp hread (hseed (by decide)) feedbackIs_ofb
  · exact encrypt_blocks rfl hp hread (hseed (by decide)) feedbackIs_ctr

/-- Settles O44: as the encrypts, but CBC and CFB feed the input block back, and the stream's padding decides the
end. -/
theorem runDecrypt : Obligations.RunDecrypt := by
  intro s
  refine ⟨fun i m hi => checksRuled_run hi s, fun c hread =>
    ⟨fun hp => decrypt_blocks rfl hp hread rfl feedbackIs_ecb, fun iv hiv => ?_⟩⟩
  have hseed {m : Mode} (hm : m ≠ .ecb) := seedFB_of_read hm hiv
  refine ⟨fun hp => ?_, fun hp => ?_, fun hp => ?_, fun hp => ?_⟩
  · exact decrypt_blocks rfl hp hread (hseed (by decide)) (feedbackIs_input (.inl rfl))
  · exact decrypt_blocks rfl hp hread (hseed (by decide)) (feedbackIs_input (.inr rfl))
  · simp only [Function.iterate_succ_apply']
    exact decrypt_blocks rfl hp hread (hseed (by decide)) feedbackIs_ofb
  · exact decrypt_blocks rfl hp hread (hseed (by decide)) feedbackIs_ctr

end Sys2Proof.Proofs
end

section
/-! PROOFS. The statements about the GCM unit (43_gcm.md): the field of R251, GHASH, and RUN.GCM as counter mode and a
tag. -/

namespace Sys2Proof.Machine

/-! ### The field of R251 -/

theorem gfHalve_xor (a b : Block128) : gfHalve (a ^^^ b) = gfHalve a ^^^ gfHalve b := by
  simp only [gfHalve, BitVec.getMsbD_xor, BitVec.ushiftRight_xor_distrib]
  cases a.getMsbD 127 <;> cases b.getMsbD 127
  case true.true =>
    change a >>> 1 ^^^ b >>> 1 = a >>> 1 ^^^ gfR ^^^ (b >>> 1 ^^^ gfR)
    rw [BitVec.xor_assoc, BitVec.xor_comm gfR, BitVec.xor_assoc, BitVec.xor_self, BitVec.xor_zero]
  case true.false =>
    change a >>> 1 ^^^ b >>> 1 ^^^ gfR = a >>> 1 ^^^ gfR ^^^ b >>> 1
    ac_rfl
  case false.true => exact BitVec.xor_assoc _ _ _
  case false.false => rfl

/-- A map on field elements that keeps sums and multiplication by x, and so each turn of R251's loop. -/
structure GfLinear (f : Block128 → Block128) : Prop where
  xor : ∀ a b, f (a ^^^ b) = f a ^^^ f b
  halve : ∀ a, f (gfHalve a) = gfHalve (f a)

theorem gfLinear_gfHalve : GfLinear gfHalve := ⟨gfHalve_xor, fun _ => rfl⟩

/-- The product is a sum of multiples of its second operand by powers of x, so a linear map goes through it. -/
theorem GfLinear.map_gfMul {f : Block128 → Block128} (hf : GfLinear f) (x y : Block128) :
    f (gfMul x y) = gfMul x (f y) := by
  have hzero : f 0 = 0 := by simpa using hf.xor 0 0
  have hloop := List.foldl_hom (Prod.map f f) (g₁ := gfStep x) (g₂ := gfStep x) (l := List.range 128)
    (init := (0, y)) fun zv i => by
      simp only [gfStep, Prod.map, hf.halve]
      split <;> simp only [hf.xor]
  rw [Prod.map_apply, hzero] at hloop
  exact (congrArg Prod.fst hloop).symm

/-- The loop on a sum is the sum of two loops. -/
theorem gfMul_xor (x y z : Block128) : gfMul x (y ^^^ z) = gfMul x y ^^^ gfMul x z := by
  have hloop := List.foldl_hom₂ (List.range 128)
    (fun p q : Block128 × Block128 => (p.1 ^^^ q.1, p.2 ^^^ q.2)) (gfStep x) (gfStep x) (gfStep x) (0, y) (0, z)
    fun p q i => by
      simp only [gfStep, gfHalve_xor]
      split
      · congr 1; ac_rfl
      · rfl
  rw [BitVec.xor_self] at hloop
  exact congrArg Prod.fst hloop

theorem gfLinear_gfMul (x : Block128) : GfLinear (gfMul x) :=
  ⟨gfMul_xor x, fun y => (gfLinear_gfHalve.map_gfMul x y).symm⟩

theorem gfMul_left_comm (x y z : Block128) : gfMul x (gfMul y z) = gfMul y (gfMul x z) :=
  (gfLinear_gfMul x).map_gfMul y z

/-- The field element x^k for `k` below 128: bit `k` of R250's numbering alone. -/
def gfPow (k : Nat) : Block128 := BitVec.twoPow 128 (127 - k)

theorem getMsbD_gfPow {k : Nat} (hk : k < 128) (i : Nat) : (gfPow k).getMsbD i = decide (i = k) := by
  have hpos : 128 - (127 - k) - 1 = k := by omega
  rw [gfPow, BitVec.getMsbD_twoPow, hpos, decide_eq_true (by omega : 127 - k < 128), Bool.true_and]

theorem gfHalve_gfPow {k : Nat} (hk : k + 1 < 128) : gfHalve (gfPow k) = gfPow (k + 1) := by
  have hbit : (gfPow k).getMsbD 127 = false := by
    rw [getMsbD_gfPow (by omega)]
    exact decide_eq_false (by omega)
  rw [gfHalve, hbit, if_neg Bool.false_ne_true]
  refine BitVec.eq_of_getMsbD_eq fun i hi => ?_
  rw [BitVec.getMsbD_ushiftRight, getMsbD_gfPow (by omega), getMsbD_gfPow hk]
  grind

/-- After `k` turns from V = 1 the loop holds x^k in V, while that needs no reduction, and the first `k` bits of X
in Z. -/
theorem foldl_gfStep_one (x : Block128) {k : Nat} (hk : k ≤ 128) :
    (k < 128 → ((List.range k).foldl (gfStep x) (0, gfPow 0)).2 = gfPow k) ∧
      ∀ i, ((List.range k).foldl (gfStep x) (0, gfPow 0)).1.getMsbD i = (decide (i < k) && x.getMsbD i) := by
  induction k with
  | zero => exact ⟨fun _ => rfl, fun i => by simp⟩
  | succ k ih =>
    obtain ⟨hv, hz⟩ := ih (by omega)
    simp only [List.range_succ, List.foldl_append, List.foldl_cons, List.foldl_nil, gfStep, hv (by omega)]
    refine ⟨gfHalve_gfPow, fun i => ?_⟩
    split
    · rw [BitVec.getMsbD_xor, hz, getMsbD_gfPow (by omega)]
      grind
    · rw [hz]
      grind

theorem gfMul_one (x : Block128) : gfMul x (gfPow 0) = x := by
  obtain ⟨-, hz⟩ := foldl_gfStep_one x (le_refl 128)
  refine BitVec.eq_of_getMsbD_eq fun i hi => ?_
  rw [gfMul, hz, decide_eq_true hi, Bool.true_and]

theorem gfMul_comm (x y : Block128) : gfMul x y = gfMul y x := by
  calc gfMul x y = gfMul x (gfMul y (gfPow 0)) := by rw [gfMul_one]
    _ = gfMul y (gfMul x (gfPow 0)) := gfMul_left_comm _ _ _
    _ = gfMul y x := by rw [gfMul_one]

theorem gfMul_assoc (x y z : Block128) : gfMul (gfMul x y) z = gfMul x (gfMul y z) := by
  rw [gfMul_comm, gfMul_left_comm, gfMul_comm z]

/-- Multiplication by x is the loop's own halving of V. -/
theorem gfMul_x (x : Block128) : gfMul x (gfPow 1) = gfHalve x := by
  rw [← gfHalve_gfPow (by decide), ← gfLinear_gfHalve.map_gfMul, gfMul_one]

/-! ### GFMUL and GHASH -/

section products
variable {s : State} {x : Bytes}

theorem stores_gfmul (hp : Passes .gfmul s) (hx : readBytes s.dmem s.csr.srcPtr.toNat 16 = some x) {y : Bytes}
    (hy : readBytes s.dmem s.csr.auxPtr.toNat 16 = some y) :
    Stores .gfmul s (bytesOf (gfMul (blockOf x) (blockOf y))) 16 := by
  have hx : readRange s (srcRange s.csr 16) = .ok x := readRange_eq_ok.mpr hx
  have hy : readRange s (auxRange s.csr 16) = .ok y := readRange_eq_ok.mpr hy
  refine stores_result ?_
  rw [exec_of_passes rfl (preGfmul_eq s) hp, hx, hy]
  rfl

theorem stores_ghash (hp : Passes .ghash s)
    (hx : readBytes s.dmem s.csr.srcPtr.toNat s.csr.srcLen.toNat = some x) {h : Bytes}
    (hh : readBytes s.dmem s.csr.auxPtr.toNat 16 = some h) :
    Stores .ghash s (bytesOf (ghashBytes (blockOf h) (zpad x))) 16 := by
  have hx : readRange s (srcRange s.csr s.csr.srcLen.toNat) = .ok x := readRange_eq_ok.mpr hx
  have hh : readRange s (auxRange s.csr 16) = .ok h := readRange_eq_ok.mpr hh
  refine stores_result ?_
  rw [exec_of_passes rfl (preGhash_eq s) hp, hx, hh]
  rfl

end products

/-- The blocks of whole-block data, by their number (R214). -/
theorem chunks_eq_map_nthBlock {v : Bytes} (hv : v.length % 16 = 0) :
    chunks 16 v = (List.range (v.length / 16)).map (nthBlock 16 v) := by
  refine List.ext_getElem? fun i => ?_
  rw [chunks_getElem? (by decide), List.getElem?_map]
  by_cases hi : i * 16 < v.length
  · rw [if_pos hi, List.getElem?_range (by omega)]
    rfl
  · rw [if_neg hi, List.getElem?_eq_none (by rw [List.length_range]; omega)]
    rfl

/-- Y of R252 after the first `j` blocks. -/
def ghashUpTo (h : Block128) (v : Bytes) (j : Nat) : Block128 :=
  (List.range j).foldl (fun y i => gfMul (y ^^^ blockOf (nthBlock 16 v i)) h) 0

theorem ghashUpTo_succ (h : Block128) (v : Bytes) (j : Nat) :
    ghashUpTo h v (j + 1) = gfMul (ghashUpTo h v j ^^^ blockOf (nthBlock 16 v j)) h := by
  simp only [ghashUpTo, List.range_succ, List.foldl_append, List.foldl_cons, List.foldl_nil]

theorem ghashBytes_eq_upTo (h : Block128) {v : Bytes} (hv : v.length % 16 = 0) :
    ghashBytes h v = ghashUpTo h v (v.length / 16) := by
  rw [ghashBytes, ghashBlocks, chunks_eq_map_nthBlock hv, List.map_map, List.foldl_map]
  rfl

theorem zpad_length_mod (v : Bytes) : (zpad v).length % 16 = 0 := by
  rw [zpad, List.length_append, List.length_replicate]
  omega

/-! ### GCTR -/

/-- R255: GCTR is the counter mode of R225 from its counter. -/
theorem gctrBlocks_eq_modeBlocks (t : Bytes → Bytes) (c : Bytes) (ms : List Bytes) :
    gctrBlocks t c ms = modeBlocks t t .ctr .encrypt c ms := by
  induction ms generalizing c with
  | nil => rfl
  | cons m ms ih => simp only [gctrBlocks, modeBlocks, modeStep, ih]

/-- Blocks with the same numbers are the same bytes. -/
theorem eq_of_nthBlock_eq {v w : Bytes} (hl : v.length = w.length)
    (h : ∀ j, j * 16 < w.length → nthBlock 16 v j = nthBlock 16 w j) : v = w := by
  have hchunks : chunks 16 v = chunks 16 w := by
    refine List.ext_getElem? fun j => ?_
    rw [chunks_getElem? (by decide), chunks_getElem? (by decide), hl]
    split
    · next hj => exact congrArg some (h j hj)
    · rfl
  rw [← chunks_flatten (by decide : 0 < 16) v, hchunks, chunks_flatten (by decide)]

section gctr
variable {t : Bytes → Bytes} (ht : ∀ x, (t x).length = 16) (j0 v : Bytes)
include ht

theorem nthBlock_gctr {j : Nat} (hj : j * 16 < v.length) :
    nthBlock 16 (gctr t j0 v).1 j = xorBytes (nthBlock 16 v j) (t ((inc32Vec byteKind)^[j + 1] j0)) := by
  have hfit : BlocksFit t t .ctr 16 v := ⟨by decide, ht, ht, fun h => nomatch h⟩
  have hctr : FeedbackIs t t .ctr .encrypt 16 (inc32Vec byteKind j0) v _ := feedbackIs_ctr
  rw [gctr, gctrBlocks_eq_modeBlocks]
  exact hfit.output_eq_step (hctr.next _) hj

/-- The same pass takes the message back (R258). -/
theorem gctr_gctr : (gctr t j0 (gctr t j0 v).1).1 = v := by
  refine eq_of_nthBlock_eq (by simp) fun j hj => ?_
  rw [nthBlock_gctr ht _ _ (by simpa using hj), nthBlock_gctr ht _ _ hj, xorBytes_xorBytes]

end gctr

/-! ### RUN.GCM, its checks passed and its inputs read -/

theorem extF_length (x : Bytes) : (extF x).length = 16 := bytesOf_length _

/-- R253 over EXT128. -/
theorem gcmH_extF : gcmH extF = Config.ext128 0 := by
  have hzero : blockOf (List.replicate 16 0) = 0 := by decide
  rw [gcmH, extF, hzero, blockOf_bytesOf]

/-- J0 of R254 over EXT128. -/
def extJ0 (iv : Bytes) : Bytes := gcmJ0 (Config.ext128 0) iv

theorem gcmJ0_extF (iv : Bytes) : gcmJ0 (gcmH extF) iv = extJ0 iv := by
  rw [gcmH_extF, extJ0]

/-- R256 over EXT128. -/
theorem gcmTag_extF (j0 aad c : Bytes) :
    gcmTag extF j0 aad c = bytesOf (gcmS (Config.ext128 0) aad c ^^^ blockOf (extF j0)) := by
  rw [gcmTag, gcmH_extF]

/-- R323: RUN.GCM passes CONFIG with EXT128 alone. -/
theorem blockT_of_passes_gcm {i : Instr} {s : State} (hi : isGcm i = true) (hp : Passes i s) : blockT s = extF := by
  obtain ⟨hc, -⟩ := hp
  simp only [configBad_gcm hi, gcmConfigOk, Bool.not_eq_false', Bool.and_eq_true, decide_eq_true_eq] at hc
  obtain ⟨⟨-, halg⟩, -⟩ := hc
  funext x
  rw [blockT, halg]

/-- The inputs of RUN.GCM hold these bytes. -/
structure GcmReads (s : State) (x iv aad : Bytes) : Prop where
  src : readBytes s.dmem s.csr.srcPtr.toNat s.csr.srcLen.toNat = some x
  iv : readBytes s.dmem s.csr.ivPtr.toNat s.csr.ivLen.toNat = some iv
  aad : readBytes s.dmem s.csr.aadPtr.toNat s.csr.aadLen.toNat = some aad

theorem GcmReads.readRanges {s : State} {x iv aad : Bytes} (h : GcmReads s x iv aad) :
    readRange s (srcRange s.csr s.csr.srcLen.toNat) = .ok x ∧ readRange s (ivRange s.csr) = .ok iv ∧
      readRange s (aadRange s.csr) = .ok aad :=
  ⟨readRange_eq_ok.mpr h.src, readRange_eq_ok.mpr h.iv, readRange_eq_ok.mpr h.aad⟩

/-- What RUN.GCM.E writes: the ciphertext and its tag (R257). -/
def gcmSealed (j0 aad p : Bytes) : Bytes := (gctr extF j0 p).1 ++ gcmTag extF j0 aad (gctr extF j0 p).1

@[simp] theorem gcmSealed_length (j0 aad p : Bytes) : (gcmSealed j0 aad p).length = p.length + 16 := by
  simp [gcmSealed]

/-- A byte of the tag is a byte of the output after the ciphertext. -/
theorem gcmSealed_modify (j0 aad p : Bytes) (j : Nat) (f : Byte → Byte) :
    (gcmSealed j0 aad p).modify (p.length + j) f =
      (gctr extF j0 p).1 ++ (gcmTag extF j0 aad (gctr extF j0 p).1).modify j f := by
  rw [gcmSealed, ← gctr_length extF j0 p]
  exact List.modifyTailIdx_add _ _ _ _

section run
variable {s : State} {p c tag iv aad : Bytes}

theorem stores_gcmE (hp : Passes .runGcmE s) (hr : GcmReads s p iv aad) :
    Stores .runGcmE s (gcmSealed (extJ0 iv) aad p) (p.length + 16) := by
  obtain ⟨hsrc, hiv, haad⟩ := hr.readRanges
  have hexec := exec_of_passes (s := s) rfl (preGcm_ruled rfl rfl) hp
  simp only [hsrc, hiv, haad, ok_bind, pure_eq_ok, finish_ok, blockT_of_passes_gcm rfl hp, gcmJ0_extF] at hexec
  have hst := storesWith_of_complete hexec rfl (.inr rfl)
  rw [readBytes_length hr.src]
  exact hst

/-- R258: an input with no room for a tag. -/
theorem failsWith_gcmD_short (hp : Passes .runGcmD s) (h : s.csr.srcLen.toNat < 16) : FailsWith .runGcmD s .auth := by
  refine failsWith_of_complete (by decide) ?_
  rw [exec_of_passes rfl (preGcm_ruled rfl rfl) hp, decide_eq_false (by omega)]
  rfl

section verified
variable (hp : Passes .runGcmD s) (htag : tag.length = 16) (hr : GcmReads s (c ++ tag) iv aad)
include hp htag hr

/-- R258, R261: with 16 bytes or more the recomputed tag alone decides the effect. -/
theorem runGcmD_of_reads : ∃ q : RunRegs, exec .runGcmD s = .next (complete
    (if gcmTag extF (extJ0 iv) aad c = tag then
      { result s (gctr extF (extJ0 iv) c).1 c.length with regs := some q }
    else { failure .auth with regs := some q }) s) := by
  obtain ⟨hsrc, hiv, haad⟩ := hr.readRanges
  have hlen : c.length + 16 = s.csr.srcLen.toNat := by
    rw [← readBytes_length hr.src, List.length_append, htag]
  have hd : (destOf .runGcmD s).len = c.length := by
    have : (destOf .runGcmD s).len = s.csr.srcLen.toNat - 16 := rfl
    omega
  have hexec := exec_of_passes (s := s) rfl (preGcm_ruled rfl rfl) hp
  simp only [decide_eq_true (show 16 ≤ s.csr.srcLen.toNat by omega), check_true, hsrc, hiv, haad, ok_bind, pure_eq_ok,
    hd, List.take_left, List.drop_left, blockT_of_passes_gcm rfl hp, gcmJ0_extF] at hexec
  by_cases hgood : gcmTag extF (extJ0 iv) aad c = tag
  · simp only [if_pos hgood, finish_ok] at hexec ⊢
    exact ⟨_, hexec⟩
  · simp only [if_neg hgood, finish_ok] at hexec ⊢
    exact ⟨_, hexec⟩

theorem stores_gcmD (hgood : gcmTag extF (extJ0 iv) aad c = tag) :
    Stores .runGcmD s (gctr extF (extJ0 iv) c).1 c.length := by
  obtain ⟨q, hexec⟩ := runGcmD_of_reads hp htag hr
  rw [if_pos hgood] at hexec
  exact storesWith_of_complete hexec rfl (.inr rfl)

theorem failsWith_gcmD_tag (hbad : gcmTag extF (extJ0 iv) aad c ≠ tag) :
    FailsWith .runGcmD s .auth := by
  obtain ⟨q, hexec⟩ := runGcmD_of_reads hp htag hr
  rw [if_neg hbad] at hexec
  exact ⟨_, hexec, completes_complete _ s, rfl, rfl⟩

end verified
end run

/-! ### RUN.GCM.D at the result of RUN.GCM.E -/

/-- A range that the written one does not meet reads as before. -/
theorem readBytes_of_not_meets {s u : State} {p n q m : Nat} (hw : OnlyWrote s u p n) (hm : ¬Meets ⟨p, n⟩ ⟨q, m⟩)
    {v : Bytes} (h : readBytes s.dmem q m = some v) : readBytes u.dmem q m = some v := by
  obtain ⟨hl, hv⟩ := readBytes_eq_some.mp h
  refine readBytes_eq_some.mpr ⟨hl, fun i hi => ?_⟩
  rw [hw _ fun hin => hm (by dsimp only [Meets]; omega)]
  exact hv i hi

/-- A change of the byte at index `k` of a range changes element `k` of what it reads as. -/
theorem readBytes_modify {m m' : Memory} {p n k : Nat} {v : Bytes} {f : Byte → Byte}
    (h : readBytes m p n = some v)
    (hm : ∀ a, readByte m' a = if a = p + k then (readByte m a).map f else readByte m a) :
    readBytes m' p n = some (v.modify k f) := by
  obtain ⟨hl, hv⟩ := readBytes_eq_some.mp h
  refine readBytes_eq_some.mpr ⟨by rw [List.length_modify, hl], fun i hi => ?_⟩
  rw [List.length_modify] at hi
  rw [hm, hv i hi, List.getElem_modify]
  by_cases hk : k = i
  · rw [if_pos hk, if_pos (by rw [hk]), Option.map_some]
  · rw [if_neg hk, if_neg (by omega)]

theorem modify_xor_ne {v : Bytes} {k : Nat} (hk : k < v.length) {x : Byte} (hx : x ≠ 0) :
    v.modify k (· ^^^ x) ≠ v := by
  intro h
  have hbyte : v[k] ^^^ x = v[k] := by
    have hget := List.getElem_of_eq h (by simpa using hk)
    rwa [List.getElem_modify, if_pos rfl] at hget
  refine hx ?_
  calc x = v[k] ^^^ (v[k] ^^^ x) := by rw [← BitVec.xor_assoc, BitVec.xor_self, BitVec.zero_xor]
    _ = v[k] ^^^ v[k] := congrArg (v[k] ^^^ ·) hbyte
    _ = 0 := BitVec.xor_self

/-- `u` holds `out` where a RUN.GCM.E from `s` wrote its result, its other memory as in `s`, and SRC there. -/
structure GcmResultAt (s u : State) (out : Bytes) : Prop where
  cfg : u.cfg = s.cfg
  csr : u.csr = { s.csr with srcPtr := s.csr.dstPtr, srcLen := BitVec.ofNat 32 out.length }
  length : out.length = s.csr.srcLen.toNat + 16
  wrote : OnlyWrote s u s.csr.dstPtr.toNat out.length
  holds : readBytes u.dmem s.csr.dstPtr.toNat out.length = some out

/-- A change of one byte of the result, and of nothing else. -/
theorem GcmResultAt.modify {s u w : State} {out : Bytes} (hu : GcmResultAt s u out) (hcfg : w.cfg = u.cfg)
    (hcsr : w.csr = u.csr) {k : Nat} (hk : k < out.length) {f : Byte → Byte}
    (hm : ∀ a, readByte w.dmem a = if a = s.csr.dstPtr.toNat + k then (readByte u.dmem a).map f else readByte u.dmem a) :
    GcmResultAt s w (out.modify k f) where
  cfg := hcfg.trans hu.cfg
  csr := by rw [hcsr, hu.csr, List.length_modify]
  length := (List.length_modify _ _ _).trans hu.length
  wrote a ha := by
    rw [List.length_modify] at ha
    rw [hm, if_neg (by omega), hu.wrote a ha]
  holds := by
    rw [List.length_modify]
    exact readBytes_modify hu.holds hm

section roundTrip
variable {s u : State} {out p iv aad : Bytes}

/-- IV and AAD lie apart from the result of a RUN.GCM.E. -/
theorem not_meets_of_passes_gcmE (hp : Passes .runGcmE s) {r : Range} (hr : r = ivRange s.csr ∨ r = aadRange s.csr) :
    ¬Meets (destOf .runGcmE s) r := by
  obtain ⟨-, -, -, -, hover, -⟩ := hp
  have hmem : (r, Mark.disjoint) ∈ inputsOf .runGcmE s := by
    rcases hr with rfl | rfl <;> simp [inputsOf, ivRange, aadRange]
  exact fun hm => nomatch (hover _ hmem hm).1

variable (hp : Passes .runGcmE s) (hsize : s.cfg.dmemSize < 2 ^ 32) (hu : GcmResultAt s u out)
include hp hsize hu

/-- A result that fits in DMEM has its length in 32 bits (log 17). -/
theorem GcmResultAt.srcLen : u.csr.srcLen.toNat = out.length := by
  obtain ⟨-, -, -, ⟨hfit, -⟩, -, -⟩ := hp
  simp only [FitsIn, destOf, ← hu.length] at hfit
  rw [hu.csr]
  exact Nat.mod_eq_of_lt (by omega)

theorem GcmResultAt.inputsOf_gcmD :
    inputsOf .runGcmD u =
      [(destOf .runGcmE s, .inPlace), (ivRange s.csr, .disjoint), (aadRange s.csr, .disjoint)] := by
  rw [inputsOf, hu.srcLen hp hsize, hu.length, hu.csr]
  rfl

/-- The checks of RUN.GCM.D pass there: its destination is the front of RUN.GCM.E's, and SRC is in place. -/
theorem GcmResultAt.passes : Passes .runGcmD u := by
  have hdest : destOf .runGcmD u = ⟨s.csr.dstPtr.toNat, s.csr.srcLen.toNat⟩ := by
    rw [destOf, hu.srcLen hp hsize, hu.length, hu.csr]
    rfl
  have hin := hu.inputsOf_gcmD hp hsize
  have hiv := not_meets_of_passes_gcmE hp (.inl rfl)
  have haad := not_meets_of_passes_gcmE hp (.inr rfl)
  obtain ⟨hc, -, -, ⟨hfit, hfits⟩, -, -⟩ := hp
  have hconfig : configBad .runGcmD u = false := by
    rw [configBad_gcm rfl] at hc ⊢
    simpa only [gcmConfigOk, cipherConfigOk, hu.cfg, hu.csr] using hc
  refine ⟨hconfig, keyBad_gcm rfl hconfig, rfl, ⟨?_, ?_⟩, ?_, rfl⟩
  · rw [hdest, hu.cfg]
    simp only [FitsIn, destOf] at hfit ⊢
    omega
  · rw [hin, hu.cfg]
    exact List.forall_mem_cons.mpr ⟨hfit, fun r hr => hfits r (.tail _ hr)⟩
  · rw [NoOverlap, hin, hdest]
    have hfront (r : Range) (h : Meets ⟨s.csr.dstPtr.toNat, s.csr.srcLen.toNat⟩ r) : Meets (destOf .runGcmE s) r := by
      simp only [Meets, destOf] at h ⊢
      omega
    simp only [MayWrite, List.forall_mem_cons]
    exact ⟨fun _ => ⟨trivial, rfl⟩, fun h => absurd (hfront _ h) hiv, fun h => absurd (hfront _ h) haad, nofun⟩

/-- RUN.GCM.D reads `out` there, and the IV and AAD of RUN.GCM.E. -/
theorem GcmResultAt.reads (hr : GcmReads s p iv aad) : GcmReads u out iv aad := by
  have hiv := not_meets_of_passes_gcmE hp (.inl rfl)
  have haad := not_meets_of_passes_gcmE hp (.inr rfl)
  rw [destOf, ← hu.length] at hiv haad
  refine ⟨?_, ?_, ?_⟩
  · rw [hu.srcLen hp hsize, hu.csr]
    exact hu.holds
  · rw [hu.csr]
    exact readBytes_of_not_meets hu.wrote hiv hr.iv
  · rw [hu.csr]
    exact readBytes_of_not_meets hu.wrote haad hr.aad

end roundTrip

end Sys2Proof.Machine

namespace Sys2Proof.Proofs

open Sys2Proof Sys2Proof.Machine

/-- Settles O46: multiplication by any element is linear, so two of them commute; at 1 the loop copies X. -/
theorem fieldMultiplication : Obligations.FieldMultiplication :=
  ⟨gfMul_comm, gfMul_assoc, gfMul_xor, gfMul_one, gfMul_x⟩

/-- Settles O47. -/
theorem gfmulStoresProduct : Obligations.GfmulStoresProduct :=
  fun s => ⟨checksRuled (by decide) s, fun _ _ hp hx hy => stores_gfmul hp hx hy⟩

/-- Settles O48: Y after `j` blocks is the fold over their numbers. -/
theorem ghashFoldsBlocks : Obligations.GhashFoldsBlocks := by
  intro s
  refine ⟨checksRuled (by decide) s, fun x h hp hx hh => ⟨ghashUpTo (blockOf h) (zpad x), rfl,
    ghashUpTo_succ _ _, ?_⟩⟩
  have hst := stores_ghash hp hx hh
  rwa [ghashBytes_eq_upTo _ (zpad_length_mod x)] at hst

/-- Settles O49: GCTR is counter mode from inc32(J0), and the tag follows it. -/
theorem gcmEncrypt : Obligations.GcmEncrypt := by
  intro s
  refine ⟨checksRuled (by decide) s, fun p iv aad hp hsrc hiv haad => ?_⟩
  have hst := stores_gcmE hp ⟨hsrc, hiv, haad⟩
  rw [gcmSealed, gcmTag_extF] at hst
  exact ⟨_, gctr_length _ _ _, fun j hj => nthBlock_gctr extF_length _ p hj, hst⟩

/-- Settles O50: the recomputed tag alone decides between AUTH and the plaintext. -/
theorem gcmDecrypt : Obligations.GcmDecrypt := by
  intro s
  refine ⟨checksRuled (by decide) s, failsWith_gcmD_short, fun c tag iv aad hp htag hsrc hiv haad =>
    ⟨fun hbad => ?_, fun hgood => ?_⟩⟩
  · exact failsWith_gcmD_tag hp htag ⟨hsrc, hiv, haad⟩ (by rw [gcmTag_extF]; exact Ne.symm hbad)
  · have hst := stores_gcmD hp htag ⟨hsrc, hiv, haad⟩ (by rw [gcmTag_extF]; exact Eq.symm hgood)
    rw [← gctr_length extF (extJ0 iv) c] at hst
    exact ⟨_, gctr_length _ _ _, fun j hj => nthBlock_gctr extF_length _ c hj, hst⟩

/-- Settles O51: RUN.GCM.D passes its checks at the result and recomputes the tag from the same ciphertext. -/
theorem gcmDecryptUndoesEncrypt : Obligations.GcmDecryptUndoesEncrypt := by
  intro s t p iv aad hp hsrc hiv haad hsize hexec
  have hr : GcmReads s p iv aad := ⟨hsrc, hiv, haad⟩
  obtain ⟨t', hexec', hcomp, -, hwrote, hholds⟩ := stores_gcmE hp hr
  cases hexec.symm.trans hexec'
  have hlen := gcmSealed_length (extJ0 iv) aad p
  have hs' : GcmResultAt s { t with csr := { t.csr with srcPtr := t.csr.dstPtr, srcLen := t.outLen } }
      (gcmSealed (extJ0 iv) aad p) :=
    ⟨hcomp.kept.cfg, by rw [hcomp.outLen, hcomp.kept.csr, hlen], by rw [hlen, readBytes_length hsrc], hwrote, hholds⟩
  refine ⟨?_, fun u j x hj hx hcsr hcfg hm => ?_⟩
  · have hst := stores_gcmD (hs'.passes hp hsize) (gcmTag_length _ _ _ _) (hs'.reads hp hsize hr) rfl
    rwa [gctr_gctr extF_length, gctr_length] at hst
  · have hu := hs'.modify (k := p.length + j) (f := (· ^^^ x)) hcfg hcsr (by omega)
      (by simpa only [hcomp.kept.csr, Nat.add_assoc] using hm)
    rw [gcmSealed_modify] at hu
    exact failsWith_gcmD_tag (hu.passes hp hsize) (by simp) (hu.reads hp hsize hr)
      (modify_xor_ne (by simpa using hj) hx).symm

end Sys2Proof.Proofs
end

section
/-! PROOFS. The statements about the padding (44_padding.md): what each scheme appends and strips, the course of PAD and
UNPAD, and RUN decrypt at the result of RUN encrypt. -/

namespace Sys2Proof.Machine

/-! ### The fields of CTRL -/

theorem blockSize_algOf (ctrl : Word) :
    blockSize (algOf ctrl) = if ctrl.extractLsb' 0 2 = 2 then 16 else 8 := by
  rcases algOf_cases ctrl with ⟨ha, hb⟩ | ⟨ha, hb⟩ | ⟨ha, hb⟩ | ⟨ha, hb⟩ <;> rw [ha, hb] <;> rfl

theorem blockSize_le (a : Alg) : blockSize a ≤ 16 := by cases a <;> decide

section scheme
variable {ctrl : Word}

theorem schemeOf_none (h : ctrl.extractLsb' 2 2 = 0) : schemeOf ctrl = .none := by simp [schemeOf, h]

theorem schemeOf_pkcs7 (h : ctrl.extractLsb' 2 2 = 1) : schemeOf ctrl = .pkcs7 := by simp [schemeOf, h]

theorem schemeOf_zero (h : ctrl.extractLsb' 2 2 = 2) : schemeOf ctrl = .zero := by simp [schemeOf, h]

theorem schemeOf_bit (h : ctrl.extractLsb' 2 2 = 3) : schemeOf ctrl = .bit := by simp [schemeOf, h]

end scheme

/-! ### What each scheme appends, and what it strips -/

/-- The message length a padded message's length field states, in bytes (R287). -/
def statedLength (p : PadCfg) (m : Bytes) : Nat :=
  beInt (if p.little then (m.drop (m.length - p.field)).reverse else m.drop (m.length - p.field)) / 8

section schemes
variable {p : PadCfg} (m : Bytes) (n : Nat)

theorem padTail_none (h : p.scheme = .none) : padTail p n = [] := by rw [padTail, h]

theorem padTail_pkcs7 (h : p.scheme = .pkcs7) :
    padTail p n = List.replicate (p.block - n % p.block) (BitVec.ofNat 8 (p.block - n % p.block)) := by rw [padTail, h]

theorem padTail_zero (h : p.scheme = .zero) :
    padTail p n = List.replicate ((p.block - n % p.block) % p.block) 0 := by rw [padTail, h]

theorem padTail_bit (h : p.scheme = .bit) :
    padTail p n = 0x80 :: (List.replicate (bitZeros p n) 0 ++ lengthField p n) := by rw [padTail, h]

theorem paddedLen_bit (h : p.scheme = .bit) : paddedLen p n = n + 1 + bitZeros p n + p.field := by rw [paddedLen, h]

theorem bitZeros_lt (hb : 0 < p.block) : bitZeros p n < p.block := by
  have h := Int.emod_lt_of_pos ((p.block : Int) - p.field - (n + 1)) (by omega : 0 < (p.block : Int))
  rw [bitZeros]
  omega

@[simp] theorem lengthField_length : (lengthField p n).length = p.field := by
  unfold lengthField
  split <;> simp

/-- The field read in its byte order is the bit length, cut to the field (R286). -/
theorem beInt_lengthField :
    beInt (if p.little then (lengthField p n).reverse else lengthField p n) = 8 * n % 2 ^ (8 * p.field) := by
  have h : (if p.little then (lengthField p n).reverse else lengthField p n) = beBytes p.field (8 * n) := by
    unfold lengthField
    split
    · exact List.reverse_reverse _
    · rfl
  rw [h, beInt_beBytes, Nat.pow_mul]

/-- R286: the zeros are fewer than a block, and with the field they fill blocks up. -/
theorem padTail_bit_fills (h : p.scheme = .bit) (hb : 0 < p.block) :
    ∃ (z : Nat) (field : Bytes), padTail p n = 0x80 :: (List.replicate z 0 ++ field) ∧ z < p.block ∧
      field.length = p.field ∧ (n + (padTail p n).length) % p.block = 0 ∧
      beInt (if p.little then field.reverse else field) = 8 * n % 2 ^ (8 * p.field) := by
  refine ⟨_, _, padTail_bit n h, bitZeros_lt n hb, lengthField_length n, ?_, beInt_lengthField n⟩
  rw [padTail_length]
  exact paddedLen_mod p hb (by rw [h]; decide) n

theorem unpadBytes_none (h : p.scheme = .none) : unpadBytes p m = some m := by rw [unpadBytes, h]

theorem unpadBytes_pkcs7 (h : p.scheme = .pkcs7) :
    unpadBytes p m = if m.length = 0 ∨ m.length < (m.getD (m.length - 1) 0).toNat then none
      else some (m.take (m.length - (m.getD (m.length - 1) 0).toNat)) := by
  rw [unpadBytes, h]
  induction m using List.reverseRecOn with
  | nil => rfl
  | append_singleton v b => simp

theorem unpadBytes_zero (h : p.scheme = .zero) : unpadBytes p m = some (m.rdropWhile (· == 0)) := by
  rw [unpadBytes, h]
  rfl

theorem unpadBytes_bit (h : p.scheme = .bit) :
    unpadBytes p m = if m.length < p.field + 1 ∨ m.length - p.field - 1 < statedLength p m then none
      else some (m.take (statedLength p m)) := by
  rw [unpadBytes, h]
  by_cases hl : m.length < p.field + 1
  · simp [hl]
  · simp [hl, statedLength]

end schemes

/-! ### Trailing zeros (R285) -/

/-- A message is what ZERO keeps of it, and then zeros. -/
theorem exists_append_zeros (m : Bytes) : ∃ u z, m = u ++ List.replicate z 0 ∧ u.getLast? ≠ some 0 := by
  induction m using List.reverseRecOn with
  | nil => exact ⟨[], 0, rfl, nofun⟩
  | append_singleton v b ih =>
    by_cases hb : b = 0
    · obtain ⟨u, z, rfl, hu⟩ := ih
      exact ⟨u, z + 1, by rw [hb, List.replicate_succ', List.append_assoc], hu⟩
    · exact ⟨v ++ [b], 0, (List.append_nil _).symm, by simpa using hb⟩

/-- ZERO strips those zeros and no more. -/
theorem rdropWhile_append_zeros {u : Bytes} (hu : u.getLast? ≠ some 0) (z : Nat) :
    (u ++ List.replicate z 0).rdropWhile (· == 0) = u := by
  induction z with
  | zero =>
    rw [List.replicate_zero, List.append_nil, List.rdropWhile_eq_self_iff]
    intro hne hlast
    exact hu (by rw [List.getLast?_eq_some_getLast hne, eq_of_beq hlast])
  | succ z ih => rw [List.replicate_succ', ← List.append_assoc, List.rdropWhile_concat_pos _ _ _ (by rfl), ih]

theorem getD_append_zeros (u : Bytes) (z : Nat) {i : Nat} (hi : u.length ≤ i) :
    (u ++ List.replicate z 0).getD i 0 = 0 := by
  rw [List.getD_append_right _ _ _ _ hi, List.getD_eq_getElem?_getD, List.getElem?_replicate]
  split <;> rfl

theorem getD_last_append_ne_zero {u : Bytes} (hu : u.getLast? ≠ some 0) (hpos : 0 < u.length) (v : Bytes) :
    (u ++ v).getD (u.length - 1) 0 ≠ 0 := by
  have hlt : u.length - 1 < u.length := by omega
  rw [List.getLast?_eq_getElem?, List.getElem?_eq_getElem hlt, Ne, Option.some.injEq] at hu
  rwa [List.getD_append _ _ _ _ hlt, List.getD_eq_getElem _ _ hlt]

/-! ### Unpad after pad (R290) -/

section undoes
variable {p : PadCfg} {m : Bytes}

theorem unpadBytes_padBytes_none (h : p.scheme = .none) : unpadBytes p (padBytes p m) = some m := by
  rw [unpadBytes_none _ h, padBytes, padTail_none _ h, List.append_nil]

/-- The last byte counts the bytes appended, of which there are 1 to B. -/
theorem unpadBytes_padBytes_pkcs7 (h : p.scheme = .pkcs7) (hpos : 0 < p.block) (hle : p.block ≤ 16) :
    unpadBytes p (padBytes p m) = some m := by
  have hmod := Nat.mod_lt m.length hpos
  obtain ⟨k, hk⟩ : ∃ k, p.block - m.length % p.block = k + 1 := ⟨p.block - m.length % p.block - 1, by omega⟩
  have hlast : ((m ++ List.replicate (k + 1) (BitVec.ofNat 8 (k + 1))).getD (m.length + (k + 1) - 1) 0).toNat =
      k + 1 := by
    rw [← Nat.add_assoc, Nat.add_sub_cancel, List.getD_append_right _ _ _ _ (Nat.le_add_right _ _),
      Nat.add_sub_cancel_left, List.getD_replicate _ (Nat.lt_succ_self k), BitVec.toNat_ofNat]
    omega
  rw [unpadBytes_pkcs7 _ h, padBytes, padTail_pkcs7 _ h, hk]
  simp only [List.length_append, List.length_replicate, hlast]
  rw [if_neg (by omega), Nat.add_sub_cancel, List.take_left]

/-- The last L bytes are the field, and the bit length fits it. -/
theorem unpadBytes_padBytes_bit (h : p.scheme = .bit) (hfit : 8 * m.length < 2 ^ (8 * p.field)) :
    unpadBytes p (padBytes p m) = some m := by
  have hpad : padBytes p m =
      m ++ (0x80 :: List.replicate (bitZeros p m.length) 0) ++ lengthField p m.length := by
    rw [padBytes, padTail_bit _ h, List.append_assoc, List.cons_append]
  have hstated : statedLength p (padBytes p m) = m.length := by
    rw [statedLength, hpad, List.length_append, lengthField_length, Nat.add_sub_cancel, List.drop_left,
      beInt_lengthField, Nat.mod_eq_of_lt hfit]
    omega
  rw [unpadBytes_bit _ h, hstated, padBytes_length, paddedLen_bit _ h, if_neg (by omega), padBytes, List.take_left]

/-- The zeros appended join the message's own. -/
theorem unpadBytes_padBytes_zero (h : p.scheme = .zero) {u : Bytes} {z : Nat} (hm : m = u ++ List.replicate z 0)
    (hu : u.getLast? ≠ some 0) : unpadBytes p (padBytes p m) = some u := by
  rw [unpadBytes_zero _ h, padBytes, padTail_zero _ h, hm, List.append_assoc, List.replicate_append_replicate,
    rdropWhile_append_zeros hu]

end undoes

/-! ### The course of PAD and UNPAD (R288, R289, R331) -/

/-- How PAD or UNPAD ends on its result `u`: the checks of the destination in R331's order, and then the store. -/
def EndsOnResult (i : Instr) (s : State) (u : Bytes) : Prop :=
  let d := dstRange s.csr u.length
  (¬FitsIn s.cfg.dmemSize d → FailsWith i s .bounds) ∧
    (FitsIn s.cfg.dmemSize d → ¬MayWrite d [(srcRange s.csr s.csr.srcLen.toNat, .inPlace)] → FailsWith i s .overlap) ∧
    (FitsIn s.cfg.dmemSize d → MayWrite d [(srcRange s.csr s.csr.srcLen.toNat, .inPlace)] → Stores i s u u.length)

theorem exec_pad (s : State) : exec .pad s = finish s
    (padCommand (fun m => some (padBytes (padCfg s.csr.ctrl) m)) s >>= fun x => .ok (result s x.2 x.2.length)) := rfl

theorem exec_unpad (s : State) : exec .unpad s = finish s
    (padCommand (unpadBytes (padCfg s.csr.ctrl)) s >>= fun x => .ok (result s x.2 x.2.length)) := rfl

theorem padCommandConfigOk_of_configBad {i : Instr} {s : State} (hi : i = .pad ∨ i = .unpad)
    (hc : configBad i s = false) : padCommandConfigOk s.csr.ctrl = true := by
  simpa [configBad_pad hi] using hc

section course
variable {i : Instr} {s : State} {f : Bytes → Option Bytes} {m : Bytes}
  (hexec : exec i s = finish s (padCommand f s >>= fun x => .ok (result s x.2 x.2.length)))
  (hi : i = .pad ∨ i = .unpad)
include hexec

theorem failsWith_of_padCommand {c : Code} (hc : c ≠ .ok) (h : padCommand f s = .error (.code c)) :
    FailsWith i s c :=
  failsWith_of_complete hc (by rw [hexec, h, error_bind, finish_code])

include hi

theorem padCommand_failsWith_config (hc : configBad i s = true) : FailsWith i s .config := by
  rw [configBad_pad hi, Bool.not_eq_true'] at hc
  exact failsWith_of_padCommand hexec (by decide) (by simp [padCommand, checkPadSource, hc])

variable (hc : configBad i s = false)
include hc

theorem padCommand_failsWith_bounds (hs : ¬FitsIn s.cfg.dmemSize (srcRange s.csr s.csr.srcLen.toNat)) :
    FailsWith i s .bounds := by
  have hok := padCommandConfigOk_of_configBad hi hc
  rw [← inBounds_iff, Bool.not_eq_true] at hs
  exact failsWith_of_padCommand hexec (by decide) (by simp [padCommand, checkPadSource, checkBounds_one, hok, hs])

variable (hs : FitsIn s.cfg.dmemSize (srcRange s.csr s.csr.srcLen.toNat))
include hs

theorem padCommand_faults (hu : HoldsUnwritten s (srcRange s.csr s.csr.srcLen.toNat)) :
    exec i s = .fault .unwrittenInput := by
  rw [hexec, padCommand_of_source (padCommandConfigOk_of_configBad hi hc) hs, readRange_eq_error.mpr ⟨rfl, hu⟩]
  rfl

variable (hread : readBytes s.dmem s.csr.srcPtr.toNat s.csr.srcLen.toNat = some m)
include hread

theorem padCommand_failsWith_pad (hu : f m = none) : FailsWith i s .pad := by
  refine failsWith_of_padCommand hexec (by decide) ?_
  rw [padCommand_of_source (padCommandConfigOk_of_configBad hi hc) hs, readRange_eq_ok.mpr hread]
  simp only [ok_bind, hu]

theorem padCommand_endsOnResult {u : Bytes} (hu : f m = some u) : EndsOnResult i s u := by
  have hcourse : padCommand f s = checkPadDest s u.length >>= fun d => .ok (d, u) := by
    rw [padCommand_of_source (padCommandConfigOk_of_configBad hi hc) hs, readRange_eq_ok.mpr hread]
    simp only [ok_bind, hu]
  obtain ⟨hbounds, hover⟩ := checkPadDest_eq_error (s := s) (len := u.length)
  refine ⟨fun h => ?_, fun hfit h => ?_, fun hfit h => ?_⟩
  · exact failsWith_of_padCommand hexec (by decide) (by rw [hcourse, hbounds h, error_bind])
  · exact failsWith_of_padCommand hexec (by decide) (by rw [hcourse, hover hfit h, error_bind])
  · exact stores_result (by rw [hexec, hcourse, checkPadDest_eq_ok.mpr ⟨rfl, hfit, h⟩]; rfl)

end course

/-! ### The decrypt of a mode undoes its encrypt (R215, R290) -/

theorem chunks_append {α : Type} {n : Nat} {v w : List α} (hv : 0 < v.length) (hle : v.length ≤ n)
    (hw : v.length = n ∨ w = []) : chunks n (v ++ w) = v :: chunks n w := by
  rw [chunks_eq_cons (hv.trans_le hle) (by rw [List.length_append]; omega)]
  rcases hw with hn | rfl
  · rw [List.take_left' hn, List.drop_left' hn]
  · rw [List.append_nil, List.take_of_length_le hle, List.drop_eq_nil_of_le hle]

section modes
variable {t tinv : Bytes → Bytes} {m : Mode} {b : Nat} {v : Bytes} (hinv : ∀ x, x.length = b → tinv (t x) = x)
include hinv

/-- The decrypt step takes the block back and feeds on the same FB: Tinv undoes T in ECB and CBC, and the others add
the same bytes twice. -/
theorem modeStep_decrypt_encrypt (fb : Bytes) {x : Bytes} (hx : wholeBlocks m = true → x.length = b) :
    modeStep t tinv m .decrypt fb (modeStep t tinv m .encrypt fb x).1 =
      (x, (modeStep t tinv m .encrypt fb x).2) := by
  cases m with
  | ecb => simp only [modeStep, hinv x (hx rfl)]
  | cbc => simp only [modeStep, hinv _ ((xorBytes_length x fb).trans (hx rfl)), xorBytes_xorBytes]
  | cfb | ofb | ctr => simp only [modeStep, xorBytes_xorBytes]

/-- So the decrypt loop from the same seed takes the message back. -/
theorem BlocksFit.decrypt_encrypt (h : BlocksFit t tinv m b v) (fb : Bytes) :
    (modeBlocks t tinv m .decrypt fb (chunks b (modeBlocks t tinv m .encrypt fb (chunks b v)).1)).1 = v := by
  induction hn : v.length using Nat.strong_induction_on generalizing v fb with
  | _ n ih =>
    by_cases hv : 0 < v.length
    · have hstep := h.step_length (d := .encrypt) (fb := fb) hv
      have hb := h.pos
      have hdrop := h.drop hv
      have htake : wholeBlocks m = true → (v.take b).length = b := fun hm =>
        h.whole hm _ (by rw [chunks_eq_cons hb hv]; exact .head _)
      have hrest : b ≤ v.length ∨ v.drop b = [] := (le_total b v.length).imp id List.drop_eq_nil_of_le
      rw [modeBlocks_chunks hb hv, chunks_append (by omega) (by omega)
        (hrest.imp (fun hle => by omega) fun hnil => by rw [hnil]; rfl)]
      simp only [modeBlocks, modeStep_decrypt_encrypt hinv fb htake]
      rw [ih _ (by rw [List.length_drop]; omega) hdrop _ rfl, List.take_append_drop]
    · obtain rfl : v = [] := List.length_eq_zero_iff.mp (by omega)
      rfl

end modes

/-! ### RUN decrypt at the result of RUN encrypt -/

/-- The seed can fail only by the fault of an unwritten IV byte. -/
theorem seedFB_eq_error {m : Mode} {s : State} {e : Stop} (h : seedFB m s = .error e) : e = .fault .unwrittenInput := by
  cases m with
  | ecb => cases h
  | cbc | cfb | ofb | ctr =>
    rcases bind_eq_error.mp h with h | ⟨_, _, h⟩
    · exact (readRange_eq_error.mp h).1
    · cases h

theorem seedFB_of_next {i : Instr} {m : Mode} {d : Dir} {s t : State} (hi : plainRun i = some (m, d))
    (hp : Passes i s) (h : exec i s = .next t) : ∃ fb, seedFB m s = .ok fb := by
  match hs : seedFB m s with
  | .ok fb => exact ⟨fb, rfl⟩
  | .error e =>
    obtain rfl := seedFB_eq_error hs
    rw [exec_of_passes (exec_run hi s) (preRun_eq hi s) hp, hs] at h
    cases h

/-- What `Passes` says of a plain RUN. -/
theorem passes_run {i : Instr} {m : Mode} {d : Dir} {s : State} (hi : plainRun i = some (m, d)) :
    Passes i s ↔ cipherConfigOk s = true ∧ padConfigOk s.csr.ctrl = true ∧ keyOk s = true ∧
      RangesOk s (dstRange s.csr (runExtent d s.csr.ctrl s.csr.srcLen.toNat)) (runInputs m s.csr) ∧
      alignOk m d s.csr.ctrl s.csr.srcLen.toNat = true := by
  have hpre := preRun_eq_ok (m := m) (d := d) (s := s) (r := destOf i s)
  rw [preRun_eq hi, (ruledChecks_prechecked i s).eq_ok, destOf_run hi] at hpre
  simpa using hpre

/-- `u` holds `out` where a RUN encrypt from `s` wrote its result, its other memory and its key as in `s`, and SRC
there. -/
structure RunResultAt (s u : State) (out : Bytes) : Prop where
  cfg : u.cfg = s.cfg
  keys : u.keys = s.keys
  csr : u.csr = { s.csr with srcPtr := s.csr.dstPtr, srcLen := BitVec.ofNat 32 out.length }
  length : out.length = runExtent .encrypt s.csr.ctrl s.csr.srcLen.toNat
  wrote : OnlyWrote s u s.csr.dstPtr.toNat out.length
  holds : readBytes u.dmem s.csr.dstPtr.toNat out.length = some out

theorem RunResultAt.blockT_eq {s u : State} {out : Bytes} (hu : RunResultAt s u out) :
    blockT u = blockT s ∧ blockTinv u = blockTinv s := by
  constructor <;> funext x
  · simp only [blockT, hu.csr, hu.keys]
  · simp only [blockTinv, hu.csr, hu.keys]

/-- There a RUN decrypt reads the result and what the RUN encrypt read but for its source. -/
theorem RunResultAt.runInputs_subset {s u : State} {out : Bytes} (hu : RunResultAt s u out)
    (hsrc : u.csr.srcLen.toNat = out.length) (m : Mode) :
    ∀ x ∈ runInputs m u.csr, x = (dstRange s.csr out.length, .inPlace) ∨ x ∈ runInputs m s.csr := by
  have hfirst : srcRange u.csr u.csr.srcLen.toNat = dstRange s.csr out.length := by
    rw [hsrc, hu.csr]
    rfl
  have hiv : ivRange u.csr = ivRange s.csr := by
    rw [hu.csr]
    rfl
  cases m <;> simp [runInputs, hfirst, hiv]

section roundTrip
variable {e d : Instr} {m : Mode} {s u : State} {out fb p : Bytes} (he : plainRun e = some (m, .encrypt))
  (hp : Passes e s) (hsize : s.cfg.dmemSize < 2 ^ 32) (hu : RunResultAt s u out)
include he hp hu

theorem RunResultAt.seeds (hfb : seedFB m s = .ok fb) : seedFB m u = .ok fb := by
  obtain ⟨-, -, -, ⟨-, hmay⟩, -⟩ := (passes_run he).mp hp
  rw [← hu.length] at hmay
  have hread (hmem : (ivRange s.csr, Mark.disjoint) ∈ runInputs m s.csr) (iv : Bytes)
      (hiv : readRange s (ivRange s.csr) = .ok iv) : readRange u (ivRange u.csr) = .ok iv := by
    rw [hu.csr]
    exact readRange_eq_ok.mpr (readBytes_of_not_meets hu.wrote (fun hm => nomatch (hmay _ hmem hm).1)
      (readRange_eq_ok.mp hiv))
  cases m with
  | ecb => exact hfb
  | cbc | cfb | ofb | ctr =>
    obtain ⟨iv, hiv, halign⟩ := bind_eq_ok.mp hfb
    refine bind_eq_ok.mpr ⟨iv, hread (by simp [runInputs]) iv hiv, ?_⟩
    rw [hu.csr]
    exact halign

/-- From the same seed the decrypted stream is the padded message. -/
theorem RunResultAt.undoes (hread : readBytes s.dmem s.csr.srcPtr.toNat s.csr.srcLen.toNat = some p)
    (hout : out = (runEffect m .encrypt s fb p).staged) :
    (runEffect m .decrypt u fb out).staged = padBytes (padCfg s.csr.ctrl) p := by
  have hctrl : u.csr.ctrl = s.csr.ctrl := by rw [hu.csr]
  obtain ⟨ht, htinv⟩ := hu.blockT_eq
  rw [runEffect_staged, ht, htinv, hctrl, hout, runEffect_staged]
  exact (blocksFit_run he hp hread).decrypt_encrypt (fun x hx => blockTinv_blockT s hx) fb

include hsize

/-- A result that fits in DMEM has its length in 32 bits (log 17). -/
theorem RunResultAt.srcLen : u.csr.srcLen.toNat = out.length := by
  obtain ⟨-, -, -, ⟨⟨hfit, -⟩, -⟩, -⟩ := (passes_run he).mp hp
  simp only [FitsIn, dstRange, ← hu.length] at hfit
  rw [hu.csr]
  exact Nat.mod_eq_of_lt (by omega)

/-- The checks of the RUN decrypt pass there: its destination is the RUN encrypt's, and SRC is in place. -/
theorem RunResultAt.passes (hd : plainRun d = some (m, .decrypt)) : Passes d u := by
  have hsrc := hu.srcLen he hp hsize
  have hin := hu.runInputs_subset hsrc m
  obtain ⟨hc, hpad, hk, ⟨⟨hfit, hfits⟩, hmay⟩, ha⟩ := (passes_run he).mp hp
  rw [← hu.length] at hfit hmay
  have hdest : dstRange u.csr (runExtent .decrypt u.csr.ctrl u.csr.srcLen.toNat) = dstRange s.csr out.length := by
    rw [runExtent, hsrc, hu.csr]
    rfl
  rw [passes_run hd, hdest]
  refine ⟨?_, ?_, ?_, ⟨⟨?_, fun x hx => ?_⟩, fun x hx hm => ?_⟩, ?_⟩
  · simpa only [cipherConfigOk, hu.cfg, hu.csr] using hc
  · simpa only [hu.csr] using hpad
  · simpa only [keyOk, hu.keys, hu.csr] using hk
  · rwa [hu.cfg]
  · rw [hu.cfg]
    rcases hin x hx with rfl | hx
    · exact hfit
    · exact hfits x hx
  · rcases hin x hx with rfl | hx
    · exact ⟨rfl, rfl⟩
    · exact hmay x hx hm
  · have hwhole := alignOk_whole ha
    rw [hsrc, hu.csr, hu.length]
    cases m with
    | ecb | cbc => exact decide_eq_true (hwhole rfl)
    | cfb | ofb | ctr => rfl

/-- There the RUN decrypt reads the result. -/
theorem RunResultAt.reads : readBytes u.dmem u.csr.srcPtr.toNat u.csr.srcLen.toNat = some out := by
  rw [hu.srcLen he hp hsize, hu.csr]
  exact hu.holds

/-- There the RUN decrypt writes the padded message back. -/
theorem RunResultAt.stores (hd : plainRun d = some (m, .decrypt))
    (hread : readBytes s.dmem s.csr.srcPtr.toNat s.csr.srcLen.toNat = some p) (hfb : seedFB m s = .ok fb)
    (hout : out = (runEffect m .encrypt s fb p).staged) {r : Bytes}
    (hunpads : unpadBytes (padCfg s.csr.ctrl) (padBytes (padCfg s.csr.ctrl) p) = some r) :
    Stores d u (padBytes (padCfg s.csr.ctrl) p) r.length := by
  have hends := decryptEnds_run hd (hu.passes he hp hsize hd) (hu.reads he hp hsize) (hu.seeds he hp hfb)
  have hctrl : u.csr.ctrl = s.csr.ctrl := by rw [hu.csr]
  rw [DecryptEnds, hu.undoes he hp hread hout, hctrl, hunpads] at hends
  exact hends

end roundTrip

end Sys2Proof.Machine

namespace Sys2Proof.Proofs

open Sys2Proof Sys2Proof.Machine

/-- Settles O45: the RUN decrypt passes its checks at the result, from the same seed, and each of its steps undoes the
RUN encrypt's. -/
theorem runDecryptUndoesEncrypt : Obligations.RunDecryptUndoesEncrypt := by
  intro m e d s t p r he hd hp hread hexec hunpads hsize
  obtain ⟨fb, hfb⟩ := seedFB_of_next he hp hexec
  have hst : Stores e s (runEffect m .encrypt s fb p).staged (runEffect m .encrypt s fb p).staged.length :=
    storesWith_of_complete (run_of_reads he hp hread hfb) rfl (.inr rfl)
  obtain ⟨t', hexec', hcomp, hkeys, hwrote, hholds⟩ := hst
  cases hexec.symm.trans hexec'
  have hlen : (runEffect m .encrypt s fb p).staged.length = runExtent .encrypt s.csr.ctrl s.csr.srcLen.toNat := by
    rw [runEffect_length he hp hread, runMessage_length, readBytes_length hread]
  have hu : RunResultAt s { t with csr := { t.csr with srcPtr := t.csr.dstPtr, srcLen := t.outLen } }
      (runEffect m .encrypt s fb p).staged :=
    ⟨hcomp.kept.cfg, hkeys, by rw [hcomp.outLen, hcomp.kept.csr], hlen, hwrote, hholds⟩
  exact hu.stores he hp hsize hd hread hfb rfl hunpads

/-- Settles O52: PAD's course, on what `padTail` appends. -/
theorem padAppendsScheme : Obligations.PadAppendsScheme := by
  intro s
  have hpad := exec_pad s
  refine ⟨padCommand_failsWith_config hpad (.inl rfl), padCommand_failsWith_bounds hpad (.inl rfl),
    padCommand_faults hpad (.inl rfl), fun m hc hs hread => ?_⟩
  dsimp only
  rw [← blockSize_algOf]
  refine ⟨padTail (padCfg s.csr.ctrl) m.length, fun h => padTail_none _ (schemeOf_none h),
    fun h => padTail_pkcs7 _ (schemeOf_pkcs7 h), fun h => padTail_zero _ (schemeOf_zero h),
    fun h => padTail_bit_fills (p := padCfg s.csr.ctrl) _ (schemeOf_bit h) (blockSize_pos _), ?_⟩
  have hends := padCommand_endsOnResult hpad (.inl rfl) hc hs hread rfl
  rwa [EndsOnResult, padBytes, List.length_append] at hends

/-- Settles O53: UNPAD's course, on what `unpadBytes` keeps. -/
theorem unpadStripsScheme : Obligations.UnpadStripsScheme := by
  intro s
  have hunpad := exec_unpad s
  refine ⟨padCommand_failsWith_config hunpad (.inr rfl), padCommand_failsWith_bounds hunpad (.inr rfl),
    padCommand_faults hunpad (.inr rfl), fun m hc hs hread => ?_⟩
  have hfails := padCommand_failsWith_pad hunpad (.inr rfl) hc hs hread
  have hgives {u : Bytes} := padCommand_endsOnResult hunpad (.inr rfl) hc hs hread (u := u)
  refine ⟨fun h => ?_, fun h => ?_, fun h => ?_, fun h => ?_⟩
  · exact hgives (unpadBytes_none m (schemeOf_none h))
  · rw [unpadBytes_pkcs7 m (schemeOf_pkcs7 h)] at hfails hgives
    exact ⟨fun hbad => hfails (if_pos hbad), fun hpos hle => hgives (if_neg (by omega))⟩
  · obtain ⟨u, z, rfl, hu⟩ := exists_append_zeros m
    have hkeeps := hgives (unpadBytes_zero _ (schemeOf_zero h))
    rw [rdropWhile_append_zeros hu] at hkeeps
    refine ⟨u.length, by simp, ?_, fun i _ hi => getD_append_zeros u z hi, fun hpos =>
      getD_last_append_ne_zero hu hpos _⟩
    rw [List.take_left]
    exact hkeeps
  · rw [unpadBytes_bit m (schemeOf_bit h)] at hfails hgives
    exact ⟨fun hbad => hfails (if_pos hbad), fun hlen hle =>
      hgives (if_neg (not_or.mpr ⟨Nat.not_lt.mpr hlen, Nat.not_lt.mpr hle⟩))⟩

/-- Settles O54, scheme by scheme. -/
theorem unpadUndoesPad : Obligations.UnpadUndoesPad := by
  intro ctrl m _
  refine ⟨?_, fun hzero => ?_⟩
  · rintro (hnone | hpkcs7 | ⟨hbit, hfit⟩)
    · exact unpadBytes_padBytes_none hnone
    · exact unpadBytes_padBytes_pkcs7 hpkcs7 (blockSize_pos _) (blockSize_le _)
    · exact unpadBytes_padBytes_bit hbit hfit
  · obtain ⟨u, z, hm, hu⟩ := exists_append_zeros m
    exact ⟨u, z, hm, hu, unpadBytes_padBytes_zero hzero hm hu⟩

end Sys2Proof.Proofs
end

section
/-! PROOFS. The statements about the control commands (45_control.md): NOP, and ZEROIZE with the NOKEY that follows. -/

namespace Sys2Proof.Machine

theorem exec_nop (s : State) : exec .nop s = .next (complete success s) := rfl

theorem exec_zeroize (s : State) :
    exec .zeroize s = .next (complete { success with keys := some KeyStore.reset } s) := rfl

/-- R311: the reset key store holds 48 zero subkeys. -/
theorem subkeys_reset (k : Fin 16) :
    KeyStore.reset.sk1[k] = 0 ∧ KeyStore.reset.sk2[k] = 0 ∧ KeyStore.reset.sk3[k] = 0 := by
  simp [KeyStore.reset]

/-- R324: under DES and TDES no key passes while KVALID is 0. -/
theorem keyOk_of_not_kvalid {s : State} (hv : s.keys.kvalid = false)
    (ha : algOf s.csr.ctrl = .des ∨ algOf s.csr.ctrl = .tdes) : keyOk s = false := by
  rcases ha with ha | ha <;> simp [keyOk, ha, hv]

/-- R324: BLOCK and a plain RUN under DES or TDES, with no CONFIG cause, end with NOKEY while KVALID is 0. -/
theorem failsWith_nokey_of_not_kvalid {i : Instr} {s : State} (hi : isBlock i = true ∨ (plainRun i).isSome = true)
    (hv : s.keys.kvalid = false) (ha : algOf s.csr.ctrl = .des ∨ algOf s.csr.ctrl = .tdes)
    (hc : configBad i s = false) : FailsWith i s .nokey := by
  have hpads : i ≠ .pad ∧ i ≠ .unpad := by constructor <;> rintro rfl <;> simp [isBlock, plainRun] at hi
  exact (checksRuled hpads s).key hc (by rw [keyBad_eq hi, keyOk_of_not_kvalid hv ha, Bool.not_false])

end Sys2Proof.Machine

namespace Sys2Proof.Proofs

open Sys2Proof Sys2Proof.Machine

/-- Settles O28: NOP's effect is the empty success. -/
theorem nopDoesNothing : Obligations.NopDoesNothing :=
  fun s => ⟨_, exec_nop s, completes_complete success s, rfl, rfl, rfl⟩

/-- Settles O29: ZEROIZE's effect is the reset key store, under which KVALID is 0. -/
theorem zeroizeClearsKeys : Obligations.ZeroizeClearsKeys :=
  fun s => ⟨_, exec_zeroize s, completes_complete _ s, rfl, rfl, rfl, rfl, subkeys_reset,
    fun _ hi ha hc => failsWith_nokey_of_not_kvalid hi rfl ha hc⟩

end Sys2Proof.Proofs
end

section
/-! PROOFS. The statements about completion codes, acceptance and ordering (60_exceptions.md): how a command ends, how a
step orders a completion and the host's accesses, and the overrun bit. -/

namespace Sys2Proof.Machine

/-! ### One step: a completion, or a clock cycle (R340) -/

section step
variable {s t : State}

theorem step_of_ready (h : ready s = true) : step s = completeLatched s := if_pos h

theorem step_of_not_ready (h : ready s = false) : step s = clockCycle s := by simp [step, h]

theorem completeLatched_of_decode {i : Instr} (h : decode s.latch = some i) : completeLatched s = exec i s := by
  simp [completeLatched, fetch, h]

theorem clockCycle_nil (h : s.inputs = []) : clockCycle s = .next (tick s) := by simp [clockCycle, h]

theorem clockCycle_cons {e : Event} {rest : List Event} (h : s.inputs = e :: rest) :
    clockCycle s = handle e (tick { s with inputs := rest }) := by simp [clockCycle, h]

/-- A command's 32-bit word is its own number in the table (R98). -/
theorem tableWord_toNat (w : Word) : tableWord 32 w.toNat = w := by
  simp [tableWord, Nat.mod_eq_of_lt w.isLt]

theorem ready_withFetchWord (s : State) (nbits w : Nat) : ready (s.withFetchWord nbits w) = true :=
  ready_of_elapsed rfl rfl rfl

/-- A clock cycle of a running command leaves as the next `n` inputs none but the `n + 1` that were next. -/
theorem mem_take_succ_of_running {l l' : List Event} {n : Nat} {e : Event}
    (h : l' = if l.head? = some .wait then l else l.tail) (he : e ∈ l'.take n) : e ∈ l.take (n + 1) := by
  rw [h] at he
  split at he
  · exact List.take_subset_take_left _ n.le_succ he
  · cases l with
    | nil => simp at he
    | cons x rest => exact List.mem_cons_of_mem x he

end step

/-! ### How a command ends -/

/-- A command that completes has a code whose cause holds (R331). -/
theorem exec_cause {i : Instr} {s t : State} (h : exec i s = .next t) :
    ∃ e, t = complete e s ∧ CauseHolds i s t e.code := by
  obtain ⟨x, hx, hends⟩ := exec_ends i s
  obtain ⟨e, rfl, rfl | ⟨c, rfl, rfl⟩⟩ := finish_eq_next.mp (hx.symm.trans h)
  · exact ⟨e, rfl, hends⟩
  · exact ⟨failure c, rfl, hends⟩

theorem plainRun_of_isPlainDecrypt {i : Instr} (h : isPlainDecrypt i = true) :
    ∃ m, plainRun i = some (m, .decrypt) := by
  cases i with
  | runEcbD | runCbcD | runCfbD | runOfbD | runCtrD => exact ⟨_, rfl⟩
  | _ => cases h

/-! ### The overrun bit (R336) -/

section overrun
variable {s t : State} {a : Access} {r : CsrName}

theorem unlessBusy_busy (hb : s.status.busy = true) (s' : State) : unlessBusy s s' = overrun s := if_pos hb

/-- While BUSY = 1 a write to a register of R336's list is an overrun. -/
theorem writeCsr_busy (hb : s.status.busy = true) (hr : r ∉ [CsrName.id, .status, .outLen, .dmemSize]) (v : Word) :
    writeCsr s r v = overrun s := by
  cases r with
  | id | status | outLen | dmemSize => simp at hr
  | ctrl | cmd | keyPtr | keyLen | ivPtr | ivLen | aadPtr | aadLen | srcPtr | srcLen | auxPtr | auxLen | dstPtr
  | param => exact unlessBusy_busy hb _

theorem writeCsr_readOnly (hr : r ∈ [CsrName.id, .outLen, .dmemSize]) (v : Word) : writeCsr s r v = s := by
  cases r with
  | id | outLen | dmemSize => rfl
  | _ => simp at hr

/-- While BUSY = 0 no register write but one to STATUS touches OVR. -/
theorem writeCsr_idle_ovr (hb : s.status.busy = false) (hr : r ≠ .status) (v : Word) :
    (writeCsr s r v).status.ovr = s.status.ovr := by
  by_cases hop : r ∈ [CsrName.id, .cmd, .status, .outLen, .dmemSize]
  · cases r with
    | status => exact absurd rfl hr
    | cmd => rw [writeCsr_cmd_idle hb]; rfl
    | id | outLen | dmemSize => rfl
    | _ => simp at hop
  · obtain ⟨c, hc, -⟩ := writeCsr_operand_idle hb hop v
    rw [hc]

theorem handle_write_dmem_busy {p n : Nat} (hr : s.rst = false) (hb : s.status.busy = true) (hw : a.we = true)
    (ht : targetOf s.cfg.dmemSize a = .dmem p n) : handle (.access a) s = .next (overrun s) := by
  simp [handle, hostAccess, writeData, unlessBusy_busy hb, hr, hw, ht]

theorem handle_write_reset (hr : s.rst = true) (hw : a.we = true) : handle (.access a) s = .next s := by
  simp [handle, hostAccess, writeData, hr, hw]

/-- The access is an overrun: a write, while BUSY = 1, to a register of R336's list or to the DMEM window. -/
def RaisesOvr (s : State) (a : Access) : Prop :=
  a.we = true ∧ s.status.busy = true ∧
    ((∃ r, targetOf s.cfg.dmemSize a = .csr r ∧ r ∉ [CsrName.id, .status, .outLen, .dmemSize]) ∨
      ∃ p n, targetOf s.cfg.dmemSize a = .dmem p n)

/-- The access writes STATUS with bit 4 set (R27). -/
def ClearsOvr (s : State) (a : Access) : Prop :=
  a.we = true ∧ targetOf s.cfg.dmemSize a = .csr .status ∧ a.wdata.getLsbD 4 = true

/-- What a register write does to OVR. -/
theorem writeCsr_ovr (hw : a.we = true) (ht : targetOf s.cfg.dmemSize a = .csr r) :
    (writeCsr s r a.wdata).status.ovr = s.status.ovr ∨
      (RaisesOvr s a ∧ (writeCsr s r a.wdata).status.ovr = true) ∨
      (ClearsOvr s a ∧ (writeCsr s r a.wdata).status.ovr = false) := by
  by_cases hr : r = .status
  · subst hr
    cases hv : a.wdata.getLsbD 4 with
    | true => exact .inr (.inr ⟨⟨hw, ht, hv⟩, by simp only [writeCsr, statusWrite, hv, Bool.not_true, Bool.and_false]⟩)
    | false => exact .inl (by simp only [writeCsr, statusWrite, hv, Bool.not_false, Bool.and_true])
  cases hb : s.status.busy with
  | false => exact .inl (writeCsr_idle_ovr hb hr _)
  | true =>
    by_cases hro : r ∈ [CsrName.id, .outLen, .dmemSize]
    · exact .inl (by rw [writeCsr_readOnly hro])
    · have hlist : r ∉ [CsrName.id, .status, .outLen, .dmemSize] := by simp_all
      exact .inr (.inl ⟨⟨hw, hb, .inl ⟨r, ht, hlist⟩⟩, by rw [writeCsr_busy hb hlist, overrun_ovr]⟩)

/-- R336: an access changes OVR only as an overrun, or as a write to STATUS with bit 4 set. -/
theorem handle_access_ovr (h : handle (.access a) s = .next t) :
    t.status.ovr = s.status.ovr ∨ (RaisesOvr s a ∧ t.status.ovr = true) ∨ (ClearsOvr s a ∧ t.status.ovr = false) := by
  cases hw : a.we with
  | false => exact .inl (by rw [handle_read_frame hw h])
  | true =>
    cases hr : s.rst with
    | true =>
      cases (handle_write_reset hr hw).symm.trans h
      exact .inl rfl
    | false =>
      cases ht : targetOf s.cfg.dmemSize a with
      | csr r =>
        cases (handle_write_csr hr hw ht).symm.trans h
        exact writeCsr_ovr hw ht
      | dmem p n =>
        cases hb : s.status.busy with
        | true =>
          cases (handle_write_dmem_busy hr hb hw ht).symm.trans h
          exact .inr (.inl ⟨⟨hw, hb, .inr ⟨p, n, ht⟩⟩, rfl⟩)
        | false =>
          cases (handle_write_dmem_idle hr hb hw ht).symm.trans h
          exact .inl rfl
      | nothing =>
        cases (handle_write_nothing hr hw ht).symm.trans h
        exact .inl rfl

/-- WAIT only reads. -/
theorem waitTurn_status (h : waitTurn s = .next t) : t.status = s.status := by
  cases hx : hostAccess statusRead s with
  | next u =>
    have hu : u.status = s.status := by rw [handle_read_frame (a := statusRead) rfl hx]
    simp only [waitTurn, hx] at h
    cases h
    split <;> exact hu
  | fault f => simp [waitTurn, hx] at h
  | refused r => simp [waitTurn, hx] at h

/-- Of all inputs only reset, power-on and a write to STATUS with bit 4 set clear OVR. -/
theorem handle_keeps_ovr {e : Event} (hs : s.status.ovr = true) (h : handle e s = .next t) :
    t.status.ovr = true ∨ e = .rst true ∨ e = .powerOn ∨ ∃ a, e = .access a ∧ ClearsOvr s a := by
  cases e with
  | access a =>
    obtain hsame | ⟨-, ht⟩ | ⟨hc, -⟩ := handle_access_ovr h
    · exact .inl (hsame.trans hs)
    · exact .inl ht
    · exact .inr (.inr (.inr ⟨a, rfl, hc⟩))
  | cycle =>
    cases h
    exact .inl hs
  | wait => exact .inl (by rw [waitTurn_status h, hs])
  | rst level =>
    cases level with
    | true => exact .inr (.inl rfl)
    | false =>
      cases h
      exact .inl hs
  | powerOn => exact .inr (.inr (.inl rfl))

end overrun

end Sys2Proof.Machine

namespace Sys2Proof.Proofs

open Sys2Proof Sys2Proof.Machine

/-- Settles O12: the busy write is `overrun`, `handle_access_ovr` says which accesses change OVR, and of the steps only
a clock cycle's input can clear it. -/
theorem overrun : Obligations.Overrun := by
  refine ⟨fun s a hr hw => ⟨fun r hb ht hlist => ?_, fun p n hb ht => handle_write_dmem_busy hr hb hw ht,
    fun r ht hro => ?_, fun ht => handle_write_nothing hr hw ht⟩, fun s t a h ht hs => ?_, fun s t hs h => ?_⟩
  · rw [handle_write_csr hr hw ht, writeCsr_busy hb hlist]
    rfl
  · rw [handle_write_csr hr hw ht, writeCsr_readOnly hro]
  · obtain hsame | ⟨hraise, -⟩ | ⟨-, hclear⟩ := handle_access_ovr h
    · simp [hsame, hs] at ht
    · exact hraise
    · simp [hclear] at ht
  · cases hready : ready s with
    | true =>
      obtain ⟨e, rfl⟩ := step_ready hready h
      exact .inl hs
    | false =>
      rw [step_of_not_ready hready] at h
      cases hin : s.inputs with
      | nil =>
        cases (clockCycle_nil hin).symm.trans h
        exact .inl hs
      | cons e rest =>
        obtain hkeep | he := handle_keeps_ovr (by exact hs) ((clockCycle_cons hin).symm.trans h)
        · exact .inl hkeep
        · exact .inr ⟨e, rfl, he⟩

/-- Settles O19: idle, the write is `accept`; busy, it is `overrun`. -/
theorem commandAccepted : Obligations.CommandAccepted := by
  intro s a hr hw ht
  have hwrite := handle_write_csr hr hw ht
  refine ⟨fun hb => ⟨accept a.wdata s, ?_, rfl, accept_cyclesLeft_pos _ _, rfl, rfl, rfl, rfl, rfl, rfl, rfl, rfl, rfl⟩,
    fun hb => ⟨Machine.overrun s, ?_, rfl, rfl, hb⟩⟩
  · rw [hwrite, writeCsr_cmd_idle hb]
  · rw [hwrite, writeCsr_busy hb (by decide)]

/-- Settles O20, by induction on the cycles the command still takes. -/
theorem runningCommandReachesCompletion : Obligations.RunningCommandReachesCompletion := by
  intro s hb hr hi
  induction hn : s.cyclesLeft generalizing s with
  | zero => exact ⟨0, s, le_rfl, Nat.zero_le 1, rfl, ready_of_elapsed hb hr hn, rfl, rfl, rfl, rfl, rfl, rfl⟩
  | succ n ih =>
    cases hready : ready s with
    | true =>
      obtain ⟨-, -, hlast⟩ := ready_running hready
      exact ⟨0, s, Nat.zero_le _, hn ▸ hlast, rfl, hready, rfl, rfl, rfl, rfl, rfl, rfl⟩
    | false =>
      rw [hn] at hi
      obtain ⟨u, hu, hk, hin⟩ := step_running hready hb hr fun e he =>
        hi e (List.mem_of_mem_head? (by simpa [List.head?_take] using he))
      have hleft : u.cyclesLeft = n := by simp [hk.cyclesLeft, hn]
      have hnext : ∀ e ∈ u.inputs.take u.cyclesLeft, e = .cycle ∨ e = .wait ∨ ∃ a, e = .access a :=
        fun e he => hi e (mem_take_succ_of_running hin (hleft ▸ he))
      obtain ⟨k, t, hle, hge, hrun, hdue, hlatch, hcsr, hkeys, hregs, hdmem, hcfg⟩ :=
        ih u (hk.busy.trans hb) (hk.rst.trans hr) hnext hleft
      exact ⟨k + 1, t, by omega, by omega, (run_succ hu).trans hrun, hdue, hlatch.trans hk.latch, hcsr.trans hk.csr,
        hkeys.trans hk.keys, hregs.trans hk.regs, hdmem.trans hk.dmem, hcfg.trans hk.cfg⟩

/-- Settles O24: the effect of a failed command, by `EffectOk.failed`. -/
theorem failedCommandChangesNothing : Obligations.FailedCommandChangesNothing := by
  intro i s t h herr
  obtain ⟨e, rfl, he⟩ := exec_effect h
  have hcode : e.code ≠ .ok := herr
  obtain ⟨hkeys, hstaged⟩ := he.failed hcode
  refine ⟨by simp [hcode], by simp [hkeys], rfl, ?_⟩
  obtain hnone | ⟨hpad, hd⟩ := hstaged
  · exact .inl (by rw [complete_dmem, hnone]; rfl)
  · exact .inr ⟨hpad, plainRun_of_isPlainDecrypt hd⟩

/-- Settles O25: the code's cause by `exec_cause`, the flags by what every completion sets. -/
theorem earliestErrorReported : Obligations.EarliestErrorReported := by
  intro i s t h
  obtain ⟨e, rfl, hcause⟩ := exec_cause h
  exact ⟨hcause, rfl, rfl, rfl, rfl⟩

/-- Settles O55: where the completion is due first it is the step; where it is not the access is, and with its last
cycle gone the command is due next. -/
theorem accessAtCompletionBeforeOrAfter : Obligations.AccessAtCompletionBeforeOrAfter := by
  intro s a rest hb hr hlast hin
  cases hready : ready s with
  | true =>
    refine .inr ⟨step_of_ready hready, fun t h => ?_⟩
    obtain ⟨e, rfl⟩ := step_ready hready h
    exact ⟨rfl, rfl, hin⟩
  | false =>
    obtain ⟨t, ht, hk, hrest⟩ := step_running hready hb hr (by simp [hin])
    have hbusy : t.status.busy = true := hk.busy.trans hb
    have hdue : t.cyclesLeft = 0 := by simp [hk.cyclesLeft, hlast]
    refine .inl ⟨t, ht, ?_, hbusy, ready_of_elapsed hbusy (hk.rst.trans hr) hdue, by simp [hrest, hin], hk.latch,
      hk.csr, hk.dmem⟩
    rw [step_of_not_ready hready, clockCycle_cons hin, tick, hlast]

/-- Settles O4: `ready` and `completeLatched`, and a word placed by `withFetchWord` is due. -/
theorem stepRunsTheLatchedCommand : Obligations.StepRunsTheLatchedCommand := by
  have hrun (s : State) (i : Instr) (hr : ready s = true) (hd : decode s.latch = some i) : step s = exec i s :=
    (step_of_ready hr).trans (completeLatched_of_decode hd)
  refine ⟨hrun, fun s => ⟨ready_of_elapsed, ready_running⟩, fun s i => ?_⟩
  have hlatch : (s.withFetchWord 32 (encode i).toNat).latch = encode i := tableWord_toNat (encode i)
  rw [hrun _ i (ready_withFetchWord ..) (by rw [hlatch, decode_encode]), State.withFetchWord, tableWord_toNat]
  rfl

/-- Settles O5, by the two branches of `clockCycle`. -/
theorem stepTakesOneInput : Obligations.StepTakesOneInput := fun _ hn =>
  ⟨fun hin => (step_of_not_ready hn).trans (clockCycle_nil hin),
    fun _ _ hin => (step_of_not_ready hn).trans (clockCycle_cons hin)⟩

end Sys2Proof.Proofs
end

section
/-! PROOFS. The statements about reset and power-on (70_reset_and_hazards.md): what the block does while rst is asserted,
and what a reset leaves of the DMEM of a command it abandons. -/

namespace Sys2Proof.Machine

/-! ### While rst is asserted (R360) -/

section reset
variable {s : State} {a : Access}

theorem ready_of_rst (hr : s.rst = true) : ready s = false := by simp [ready, hr]

theorem handle_read_reset (hr : s.rst = true) (hw : a.we = false) :
    handle (.access a) s = .next { s with rdata := 0 } := by
  simp [handle, hostAccess, readData, hr, hw]

/-- Releasing the line leaves what the reset made. -/
theorem handle_release (m : Memory) (s : State) :
    handle (.rst false) (resetTo true m s) = .next (resetTo false m s) := rfl

theorem handle_assert_of_memory {m : Memory} (h : memoryAfterReset s = .ok m) :
    handle (.rst true) s = .next (resetTo true m s) := by
  simp [handle, driveReset, h]

end reset

/-! ### What the checks of an abandoned command answer (R361) -/

/-- PAD and UNPAD check the source, then the destination: the codes are those of BOUNDS over both, then OVERLAP. -/
theorem checkPadSource_checkPadDest_eq {i : Instr} (hi : i = .pad ∨ i = .unpad) {s : State} {len : Nat}
    (hd : destOf i s = dstRange s.csr len) :
    (checkPadSource s >>= fun _ => checkPadDest s len) = ruledChecks i s := by
  have hk : keyBad i s = false := by rcases hi with rfl | rfl <;> simp [keyBad, isBlock, isGcm, plainRun]
  have hl : lenBad i s = false := by rcases hi with rfl | rfl <;> rfl
  have ha : alignBad i s = false := by rcases hi with rfl | rfl <;> rfl
  have hin : inputsOf i s = [(srcRange s.csr s.csr.srcLen.toNat, .inPlace)] := by rcases hi with rfl | rfl <;> rfl
  simp only [ruledChecks, configBad_pad hi, hk, hl, ha, hd, hin, checkPadSource, checkPadDest, checkRanges,
    checkBounds, List.map_cons, List.map_nil, List.all_cons, List.all_nil, Bool.and_true, Bool.not_not]
  cases padCommandConfigOk s.csr.ctrl <;> cases inBounds s.cfg.dmemSize (srcRange s.csr s.csr.srcLen.toNat) <;>
    cases inBounds s.cfg.dmemSize (dstRange s.csr len) <;> simp

/-- UNPAD's destination starts at DST_PTR, however long it is. -/
theorem destOf_unpad_eq (s : State) : destOf .unpad s = dstRange s.csr (destOf .unpad s).len := by
  simp only [destOf]
  split <;> rfl

/-- An UNPAD with nothing to write has an empty destination. -/
theorem destOf_unpad_len_zero {s : State}
    (h : (readBytes s.dmem s.csr.srcPtr.toNat s.csr.srcLen.toNat).bind (unpadBytes (padCfg s.csr.ctrl)) = none) :
    (destOf .unpad s).len = 0 := by
  simp [destOf, h]

/-- Where UNPAD's source is written if it is to be read, its checks answer as the rules say, or the message does not
unpad and nothing is to be written. -/
theorem destination_unpad {s : State} (hw : configBad .unpad s = false ∧ Fits .unpad s →
      Written s (srcRange s.csr s.csr.srcLen.toNat)) :
    destination .unpad s = ruledChecks .unpad s ∨
      ((destOf .unpad s).len = 0 ∧ destination .unpad s = .error (.code .pad)) := by
  rw [← checkPadSource_checkPadDest_eq (.inr rfl) (destOf_unpad_eq s)]
  cases hsource : checkPadSource s with
  | error e => exact .inl (by simp [destination, preUnpad, padCommand, hsource])
  | ok u =>
    obtain ⟨hc, hs⟩ := checkPadSource_eq_ok.mp hsource
    have hpre := padCommand_of_source (f := unpadBytes (padCfg s.csr.ctrl)) hc hs
    cases hread : readRange s (srcRange s.csr s.csr.srcLen.toNat) with
    | error e =>
      obtain ⟨-, hunwritten⟩ := readRange_eq_error.mp hread
      have hlen : (destOf .unpad s).len = 0 := destOf_unpad_len_zero (by rw [readBytes_eq_none.mpr hunwritten]; rfl)
      have hfits : Fits .unpad s := ⟨.inl hlen, by simpa [inputsOf, srcRange] using hs⟩
      obtain ⟨v, hv⟩ := readRange_of_written (hw ⟨by simp [configBad_pad, hc], hfits⟩)
      cases hread.symm.trans hv
    | ok m =>
      have hm : readBytes s.dmem s.csr.srcPtr.toNat s.csr.srcLen.toNat = some m := readRange_eq_ok.mp hread
      rw [hread, ok_bind] at hpre
      cases hu : unpadBytes (padCfg s.csr.ctrl) m with
      | none =>
        exact .inr ⟨destOf_unpad_len_zero (by simp [hm, hu]), by simp [destination, preUnpad, hpre, hu]⟩
      | some u =>
        refine .inl ?_
        simp only [destination, preUnpad, hpre, hu, destOf_unpad hm hu, dstRange, ok_bind, pure_eq_ok, bind_assoc,
          bind_ok_self]

/-- What the checks of a command that a reset abandons answer: what the rules say, but where its destination is empty. -/
theorem destination_ruled_or_empty {i : Instr} {s : State} (hw : i = .unpad → configBad i s = false ∧ Fits i s →
      Written s (srcRange s.csr s.csr.srcLen.toNat)) :
    destination i s = ruledChecks i s ∨
      ((destOf i s).len = 0 ∧ (destination i s = .ok (destOf i s) ∨ ∃ c, destination i s = .error (.code c))) := by
  by_cases hu : i = .unpad
  · subst hu
    exact (destination_unpad (hw rfl)).imp id fun ⟨hlen, h⟩ => ⟨hlen, .inr ⟨_, h⟩⟩
  by_cases hl : i = .loadKey
  · subst hl
    exact .inr ⟨rfl, .inl rfl⟩
  · exact .inl (destination_eq hu hl s)

/-! ### DMEM after a command is abandoned (R361) -/

section abandon
variable {i : Instr} {s : State}

theorem abandonRange_of_len_zero {r : Range} (h : r.len = 0) : abandonRange s r = s.dmem := by
  simp [abandonRange, h, writeBytes]

theorem readByte_abandonRange_outside {r : Range} {a : Nat} (h : ¬(r.ptr ≤ a ∧ a < r.ptr + r.len)) :
    readByte (abandonRange s r) a = readByte s.dmem a :=
  readByte_writeBytes_outside _ _ _ _ (by simpa using h)

theorem readByte_abandonRange_inside {r : Range} {k : Nat} (h : k < r.len) :
    (readByte (abandonRange s r) (r.ptr + k)).isSome = true := by
  rw [abandonRange, readByte_writeBytes_inside _ _ _ k (by simpa using h), Option.isSome_some]

theorem memoryAfterReset_illegal (hd : decode s.latch = none) : memoryAfterReset s = .ok s.dmem := by
  simp [memoryAfterReset, fetch, hd]

theorem memoryAfterReset_of_ok {r : Range} (hb : s.status.busy = true) (hd : decode s.latch = some i)
    (h : destination i s = .ok r) : memoryAfterReset s = .ok (abandonRange s r) := by
  simp [memoryAfterReset, fetch, hb, hd, h]

theorem memoryAfterReset_of_code {c : Code} (hb : s.status.busy = true) (hd : decode s.latch = some i)
    (h : destination i s = .error (.code c)) : memoryAfterReset s = .ok s.dmem := by
  simp [memoryAfterReset, fetch, hb, hd, h]

/-- A reset abandons the destination range of a command whose checks pass, and nothing else. -/
theorem memoryAfterReset_busy (hb : s.status.busy = true) (hd : decode s.latch = some i)
    (hw : i = .unpad → configBad i s = false ∧ Fits i s → Written s (srcRange s.csr s.csr.srcLen.toNat)) :
    (Passes i s ∧ memoryAfterReset s = .ok (abandonRange s (destOf i s))) ∨
      ((Passes i s → (destOf i s).len = 0) ∧ memoryAfterReset s = .ok s.dmem) := by
  obtain hruled | ⟨hlen, hok | ⟨c, hcode⟩⟩ := destination_ruled_or_empty hw
  · cases hx : ruledChecks i s with
    | ok r =>
      obtain ⟨hp, rfl⟩ := (ruledChecks_prechecked i s).eq_ok.mp hx
      exact .inl ⟨hp, memoryAfterReset_of_ok hb hd (hruled.trans hx)⟩
    | error e =>
      obtain ⟨c, rfl, -, hfails, -⟩ := (ruledChecks_prechecked i s).cause hx
      exact .inr ⟨fun hp => absurd hp hfails, memoryAfterReset_of_code hb hd (hruled.trans hx)⟩
  · exact .inr ⟨fun _ => hlen, (memoryAfterReset_of_ok hb hd hok).trans (by rw [abandonRange_of_len_zero hlen])⟩
  · exact .inr ⟨fun _ => hlen, memoryAfterReset_of_code hb hd hcode⟩

end abandon

end Sys2Proof.Machine

namespace Sys2Proof.Proofs

open Sys2Proof Sys2Proof.Machine

/-- Settles O7: an idle reset keeps DMEM, and under rst both directions of an access and `ready` ask for rst first. -/
theorem resetHoldsTheBlock : Obligations.ResetHoldsTheBlock :=
  ⟨fun s hb => ⟨_, _, handle_assert_idle hb, rfl, handle_release s.dmem s, rfl, rfl, rfl, rfl, rfl, rfl,
    irq_of_not_done rfl, rfl, rfl⟩,
    fun _ _ hr => ⟨ready_of_rst hr, handle_write_reset hr, handle_read_reset hr⟩⟩

/-- Settles O8, by `memoryAfterReset_busy`: the range is abandoned where the checks pass, and DMEM stays where they do
not or the range is empty. -/
theorem resetAbandonsTheCommand : Obligations.ResetAbandonsTheCommand := by
  refine fun s hb => ⟨fun i hd hw => ?_, fun hd =>
    ⟨_, handle_assert_of_memory (memoryAfterReset_illegal hd), rfl, rfl, rfl⟩⟩
  obtain ⟨hp, hmem⟩ | ⟨hempty, hmem⟩ := memoryAfterReset_busy hb hd hw
  · exact ⟨_, handle_assert_of_memory hmem, rfl, rfl, rfl, rfl, rfl, fun _ => readByte_abandonRange_outside,
      fun _ _ => readByte_abandonRange_inside, fun hfails => absurd hp hfails⟩
  · refine ⟨_, handle_assert_of_memory hmem, rfl, rfl, rfl, rfl, rfl, fun _ _ => rfl, fun hp k hk => ?_, fun _ => rfl⟩
    rw [hempty hp] at hk
    exact absurd hk k.not_lt_zero

/-- Settles O9: power-on resets onto the empty DMEM, whatever the state. -/
theorem powerOnUnwritesDmem : Obligations.PowerOnUnwritesDmem :=
  fun s => ⟨applyPower s, rfl, rfl, rfl, rfl, rfl, rfl, rfl, readByte_nil⟩

end Sys2Proof.Proofs
end

section
/-! PROOFS. The invariant of the machine (10_state.md sections 2, 3 and 5; 60_exceptions.md sections 1 to 3;
70_reset_and_hazards.md section 1): each operation a step is made of keeps it, and so does a step. -/

namespace Sys2Proof.Machine

variable {s t : State}

/-! ### DMEM: writes that stay inside it (R37) -/

/-- What the invariant says of DMEM. -/
structure MemoryOk (size : Nat) (m : Memory) : Prop where
  wf : Memory.wf m
  inside : Memory.inside m size

theorem Inv.memoryOk (h : Inv s) : MemoryOk s.cfg.dmemSize s.dmem := ⟨h.memWf, h.memInside⟩

theorem memoryOk_nil (size : Nat) : MemoryOk size [] := ⟨List.Pairwise.nil, List.forall_mem_nil _⟩

theorem MemoryOk.write {size : Nat} {m : Memory} (h : MemoryOk size m) {p : Nat} {v : Bytes}
    (hv : FitsIn size ⟨p, v.length⟩) : MemoryOk size (writeBytes m p v) :=
  ⟨writeBytes_wf h.wf p v, writeBytes_inside h.inside hv⟩

theorem MemoryOk.abandon (h : MemoryOk s.cfg.dmemSize s.dmem) {r : Range} (hr : FitsIn s.cfg.dmemSize r) :
    MemoryOk s.cfg.dmemSize (abandonRange s r) :=
  h.write (by simpa using hr)

/-- R62: an access reaches no byte past DMEM. -/
theorem targetOf_dmem_le {size p n : Nat} {a : Access} (h : targetOf size a = .dmem p n) : p + n ≤ size := by
  by_cases h3 : a.size = 3
  · rw [targetOf_size3 h3] at h
    cases h
  · rw [targetOf_sized h3] at h
    split_ifs at h with _ _ _ hdmem
    · cases hc : csrAt a.addr.toNat <;> simp [hc] at h
    · simp only [Target.dmem.injEq] at h
      omega

/-- What a command stages lies in DMEM, as the range its checks answer does. -/
theorem EffectOk.staged_fit {i : Instr} {e : Effect} (h : EffectOk i s e) :
    FitsIn s.cfg.dmemSize ⟨e.dst, e.staged.length⟩ := by
  obtain hnone | ⟨r, hr, hdst, hlen⟩ := h.writes
  · exact .inl (by rw [hnone, List.length_nil])
  · rw [hdst, hlen]
    exact (destination_eq_ok hr).2

/-- R361: a reset leaves DMEM as it was, or abandons a range inside it. -/
theorem MemoryOk.afterReset (h : MemoryOk s.cfg.dmemSize s.dmem) {m : Memory} (hm : memoryAfterReset s = .ok m) :
    MemoryOk s.cfg.dmemSize m := by
  unfold memoryAfterReset at hm
  split at hm
  · split at hm
    · cases hm
      exact h
    · split at hm
      · next hd =>
        cases hm
        exact h.abandon (destination_eq_ok hd).2
      · cases hm
        exact h
      · cases hm
  · cases hm
    exact h

/-! ### The key store (R33, R182, R311) -/

/-- What the invariant says of the key store. -/
structure KeyStoreOk (k : KeyStore) : Prop where
  noKey : k.kvalid = false → k = KeyStore.reset
  keyAlg : k.kvalid = true → k.kalg = 0 ∨ k.kalg = 1
  desKeys : k.kvalid = true → k.kalg = 0 → k.sk2 = Vector.replicate 16 0 ∧ k.sk3 = Vector.replicate 16 0

theorem Inv.keyStoreOk (h : Inv s) : KeyStoreOk s.keys := ⟨h.noKey, h.keyAlg, h.desKeys⟩

theorem keyStoreOk_reset : KeyStoreOk KeyStore.reset := ⟨fun _ => rfl, nofun, nofun⟩

/-- R182: LOAD_KEY passes its first check under DES and TDES alone. -/
theorem preLoadKey_alg (h : preLoadKey s = .ok ()) : algOf s.csr.ctrl = .des ∨ algOf s.csr.ctrl = .tdes := by
  simp only [preLoadKey, bind_eq_ok, check_eq_ok, Bool.or_eq_true, decide_eq_true_eq] at h
  obtain ⟨-, halg, -⟩ := h
  exact halg

/-- R182: a DES key fills SK1 alone, and KALG is the algorithm's number. -/
theorem keyStoreOk_loadedKeys {ctrl : Word} (h : algOf ctrl = .des ∨ algOf ctrl = .tdes) (k : Bytes) :
    KeyStoreOk (loadedKeys ctrl k) := by
  obtain ⟨hcode, halg⟩ | ⟨hcode, halg⟩ | ⟨-, halg⟩ | ⟨-, halg⟩ := algOf_cases ctrl
  · rw [loadedKeys_des halg]
    exact ⟨nofun, fun _ => .inl hcode, fun _ _ => ⟨rfl, rfl⟩⟩
  · rw [loadedKeys_tdes halg]
    refine ⟨nofun, fun _ => .inr hcode, fun _ hdes => ?_⟩
    exact absurd (hcode.symm.trans hdes) (by decide)
  all_goals simp [halg] at h

theorem EffectOk.keyStoreOk {i : Instr} {e : Effect} (h : EffectOk i s e) {k : KeyStore} (hk : e.keys = some k) :
    KeyStoreOk k := by
  obtain ⟨-, rfl⟩ | ⟨-, hpre, b, rfl⟩ := h.keys k hk
  · exact keyStoreOk_reset
  · exact keyStoreOk_loadedKeys (preLoadKey_alg hpre) b

/-! ### The operations of a step -/

/-- The invariant does not speak of the ports. -/
theorem inv_withPorts (h : Inv s) (v : Word) (l : List Event) : Inv { s with rdata := v, inputs := l } := { h with }

theorem inv_tick (h : Inv s) : Inv (tick s) :=
  { h with idleNoCycles := fun hb => by simp [h.idleNoCycles hb] }

/-- R335: a completion keeps the invariant whenever its effect keeps DMEM and the key store legal. -/
theorem inv_complete (h : Inv s) (hr : s.rst = false) {e : Effect}
    (hw : FitsIn s.cfg.dmemSize ⟨e.dst, e.staged.length⟩) (hk : ∀ k, e.keys = some k → KeyStoreOk k) :
    Inv (complete e s) := by
  have hmem := h.memoryOk.write hw
  have hkeys : KeyStoreOk (complete e s).keys := by
    rw [complete_keys]
    cases hek : e.keys with
    | none => exact h.keyStoreOk
    | some k => exact hk k hek
  exact {
    paramsLegal := h.paramsLegal, memWf := hmem.wf, memInside := hmem.inside, ctrlReserved := h.ctrlReserved
    errIsCode := rfl, authIsCode := rfl, errorEmpty := fun hc => if_neg hc, busyClear := nofun
    idleNoCycles := fun _ => rfl, noKey := hkeys.noKey, keyAlg := hkeys.keyAlg, desKeys := hkeys.desKeys
    resetHeld := fun ht => nomatch hr.symm.trans ht }

/-- R40: the reset values meet every clause but those on the parameters and on DMEM. -/
theorem inv_resetTo (h : Inv s) {m : Memory} (hm : MemoryOk s.cfg.dmemSize m) (level : Bool) :
    Inv (resetTo level m s) where
  paramsLegal := h.paramsLegal
  memWf := hm.wf
  memInside := hm.inside
  ctrlReserved := BitVec.zero_and
  errIsCode := rfl
  authIsCode := rfl
  errorEmpty _ := rfl
  busyClear := nofun
  idleNoCycles _ := rfl
  noKey _ := rfl
  keyAlg := nofun
  desKeys := nofun
  resetHeld _ := ⟨rfl, rfl, rfl, rfl, rfl⟩

/-- Releasing the line: the state the reset made stays. -/
theorem inv_release (h : Inv s) : Inv { s with rst := false } := { h with resetHeld := nofun }

/-! ### Host writes outside reset -/

/-- R23, R24: an idle write leaves CTRL[31:9] zero, since a write to CTRL discards those bits. -/
theorem writeCsr_idle_ctrlReserved (h : Inv s) {r : CsrName} {v : Word} {c : Csrs}
    (hself : readCsr { s with csr := c } r = if r = .ctrl then v &&& 0x1FF else v)
    (hother : ∀ q, q ≠ r → readCsr { s with csr := c } q = readCsr s q) : c.ctrl &&& ~~~ctrlMask = 0 := by
  by_cases hr : r = .ctrl
  · subst hr
    have hc : c.ctrl = v &&& ctrlMask := hself
    rw [hc, BitVec.and_assoc, BitVec.and_not_self]
    exact BitVec.and_zero
  · have hc : c.ctrl = s.csr.ctrl := hother .ctrl (Ne.symm hr)
    rw [hc, h.ctrlReserved]

section write
variable (h : Inv s) (hr : s.rst = false)
include h hr

theorem inv_overrun : Inv (overrun s) :=
  { h with resetHeld := fun ht => nomatch hr.symm.trans ht }

theorem inv_unlessBusy (ht : s.status.busy = false → Inv t) : Inv (unlessBusy s t) := by
  cases hb : s.status.busy with
  | true =>
    rw [unlessBusy_busy hb]
    exact inv_overrun h hr
  | false =>
    rw [unlessBusy_idle hb]
    exact ht hb

/-- R334: acceptance clears what a completion reports. -/
theorem inv_accept (w : Word) : Inv (accept w s) :=
  { h with
    errIsCode := rfl, authIsCode := rfl, errorEmpty := fun _ => rfl, busyClear := fun _ => ⟨rfl, rfl, rfl⟩
    idleNoCycles := nofun, resetHeld := fun ht => nomatch hr.symm.trans ht }

/-- R27: a write to STATUS at most clears DONE and OVR. -/
theorem inv_statusWrite (v : Word) : Inv { s with status := statusWrite s.status v } :=
  { h with
    busyClear := fun hb => by
      obtain ⟨hdone, hrest⟩ := h.busyClear hb
      exact ⟨by simp [statusWrite, hdone], hrest⟩
    resetHeld := fun ht => nomatch hr.symm.trans ht }

theorem inv_withCsr {c : Csrs} (hc : c.ctrl &&& ~~~ctrlMask = 0) : Inv { s with csr := c } :=
  { h with ctrlReserved := hc, resetHeld := fun ht => nomatch hr.symm.trans ht }

theorem inv_writeDmem {p : Nat} {v : Bytes} (hv : p + v.length ≤ s.cfg.dmemSize) :
    Inv { s with dmem := writeBytes s.dmem p v } :=
  have hmem := h.memoryOk.write (.inr hv)
  { h with memWf := hmem.wf, memInside := hmem.inside, resetHeld := fun ht => nomatch hr.symm.trans ht }

/-- Every register write keeps the invariant. -/
theorem inv_writeCsr (r : CsrName) (v : Word) : Inv (writeCsr s r v) := by
  by_cases hro : r ∈ [CsrName.id, .outLen, .dmemSize]
  · rw [writeCsr_readOnly hro]
    exact h
  by_cases hst : r = .status
  · subst hst
    exact inv_statusWrite h hr v
  cases hb : s.status.busy with
  | true =>
    rw [writeCsr_busy hb (by simp_all)]
    exact inv_overrun h hr
  | false =>
    by_cases hcmd : r = .cmd
    · rw [hcmd, writeCsr_cmd_idle hb]
      exact inv_accept h hr v
    · obtain ⟨c, hc, hself, hother⟩ := writeCsr_operand_idle (r := r) hb (by simp_all) v
      rw [hc]
      exact inv_withCsr h hr (writeCsr_idle_ctrlReserved h hself hother)

end write

/-! ### One step -/

theorem inv_writeData (h : Inv s) (a : Access) : Inv (writeData s a) := by
  cases hr : s.rst with
  | true => simpa [writeData, hr] using h
  | false =>
    cases ht : targetOf s.cfg.dmemSize a with
    | csr r => simpa [writeData, hr, ht] using inv_writeCsr h hr r a.wdata
    | dmem p n =>
      have hw : Inv { s with dmem := writeBytes s.dmem p (laneBytes n a.wdata) } :=
        inv_writeDmem h hr (by simpa using targetOf_dmem_le ht)
      simpa [writeData, hr, ht] using inv_unlessBusy h hr fun _ => hw
    | nothing => simpa [writeData, hr, ht] using h

theorem inv_hostAccess (h : Inv s) {a : Access} (ht : hostAccess a s = .next t) : Inv t := by
  cases hw : a.we with
  | true =>
    simp only [hostAccess, hw, if_true] at ht
    cases ht
    exact inv_writeData h a
  | false =>
    rw [handle_read_frame hw ht]
    exact inv_withPorts h t.rdata s.inputs

theorem inv_waitTurn (h : Inv s) (ht : waitTurn s = .next t) : Inv t := by
  cases hx : hostAccess statusRead s with
  | next u =>
    have hu := inv_hostAccess h hx
    simp only [waitTurn, hx] at ht
    cases ht
    split
    · exact inv_withPorts hu u.rdata _
    · exact hu
  | fault f => simp [waitTurn, hx] at ht
  | refused r => simp [waitTurn, hx] at ht

theorem inv_driveReset (h : Inv s) {level : Bool} (ht : driveReset level s = .next t) : Inv t := by
  cases level with
  | true =>
    cases hm : memoryAfterReset s with
    | ok m =>
      cases (handle_assert_of_memory hm).symm.trans ht
      exact inv_resetTo h (h.memoryOk.afterReset hm) true
    | error f => simp [driveReset, hm] at ht
  | false =>
    cases ht
    exact inv_release h

/-- Every input keeps the invariant. -/
theorem inv_handle (h : Inv s) {e : Event} (ht : handle e s = .next t) : Inv t := by
  cases e with
  | access a => exact inv_hostAccess h ht
  | cycle =>
    cases ht
    exact h
  | wait => exact inv_waitTurn h ht
  | rst level => exact inv_driveReset h ht
  | powerOn =>
    cases ht
    exact inv_resetTo h (memoryOk_nil _) true

theorem inv_clockCycle (h : Inv s) (ht : clockCycle s = .next t) : Inv t := by
  cases hin : s.inputs with
  | nil =>
    cases (clockCycle_nil hin).symm.trans ht
    exact inv_tick h
  | cons e rest =>
    exact inv_handle (inv_tick (inv_withPorts h s.rdata rest)) ((clockCycle_cons hin).symm.trans ht)

/-- Every completion outside reset keeps the invariant, an illegal word's included. -/
theorem inv_completeLatched (h : Inv s) (hr : s.rst = false) (ht : completeLatched s = .next t) : Inv t := by
  cases hd : decode s.latch with
  | none =>
    simp only [completeLatched, fetch, hd] at ht
    cases ht
    exact inv_complete h hr (.inl rfl) nofun
  | some i =>
    obtain ⟨e, rfl, he⟩ := exec_effect ((completeLatched_of_decode hd).symm.trans ht)
    exact inv_complete h hr he.staged_fit fun _ => he.keyStoreOk

end Sys2Proof.Machine

namespace Sys2Proof.Proofs

open Sys2Proof Sys2Proof.Machine

/-- Settles O22: a due completion keeps the invariant by what every effect obeys (`EffectOk`), a clock cycle by the
input it takes. -/
theorem stepKeepsInv : Obligations.StepKeepsInv := by
  intro s t hs h
  cases hready : ready s with
  | true =>
    obtain ⟨-, hr, -⟩ := ready_running hready
    exact inv_completeLatched hs hr ((step_of_ready hready).symm.trans h)
  | false => exact inv_clockCycle hs ((step_of_not_ready hready).symm.trans h)

end Sys2Proof.Proofs
end
